-- ==== Sys2Proof/Word.lean ====
section
/-! DEFINITION. The word types of primes_core: 64-bit values (00_scope.md R8) and stream bytes (R36). -/

namespace Sys2Proof

/-- A NumericValue: every register, every `SEQ` entry and every command word is one (R8, R23, R35, R80). -/
abbrev Word := BitVec 64

/-- One byte of the stream (R36). -/
abbrev Byte := BitVec 8

end Sys2Proof
end

