-- ==== Sys2Proof/Syntax.lean ====
section
/-! DEFINITION. The instructions of primes_core: one constructor per row of spec/opcode_table.json. The first five are
the commands (30_encoding.md R81, R83), the last three the records of the NCC stream (R87 to R89). -/

namespace Sys2Proof

/-- A row of the opcode table, with what its encoding carries. -/
inductive Instr where
  /-- SQRT, command word 1 (41_isqrt_bound.md R125). -/
  | sqrt
  /-- ISPRIME, command word 2 (42_trial_division.md R132). -/
  | isPrime
  /-- ISPRIME_LIST, command word 3 (42_trial_division.md R140). -/
  | isPrimeList
  /-- DECODE, command word 4 (43_gap_decoder.md R166). -/
  | decode
  /-- BAD_COMMAND: any other command word `w` (30_encoding.md R83, 40_command_lifecycle.md R110). -/
  | badCommand (w : Word)
  /-- NCC_ANCHOR: the 8-byte record of value `a`, read in ANCHOR mode (30_encoding.md R87). -/
  | nccAnchor (a : Word)
  /-- NCC_SENTINEL: the 2-byte record of value 0, read in DELTA mode (30_encoding.md R89). -/
  | nccSentinel
  /-- NCC_DELTA: the 2-byte record of value `d`, not 0, read in DELTA mode (30_encoding.md R88). -/
  | nccDelta (d : BitVec 16)
  deriving DecidableEq, Repr

/-- What `PEND` can hold beside none (10_state.md R37, 40_command_lifecycle.md R103). -/
inductive Opcode where
  | sqrt
  | isPrime
  | isPrimeList
  | decode
  | badCommand
  deriving DecidableEq, Repr

/-- Where the bits of an instruction are read: the `CMD` port, or the stream in one of the decoder's two modes. A
record's length and kind cannot be told from its bytes; the mode decides it (30_encoding.md R90). -/
inductive Source where
  | command
  | anchor
  | delta
  deriving DecidableEq, Repr

end Sys2Proof
end

