-- ==== Sys2Proof/WellFormed.lean ====
section
/-! DEFINITION. Which instructions the encodings can give (30_encoding.md R82, R83, R88, R89). -/

namespace Sys2Proof

/-- A BAD_COMMAND carries none of the four legal words (R83), and a delta record is not 0, since 0 is the sentinel
(R89: "The value 0 is the only reserved delta value"). The other rows admit every operand. -/
def Instr.wf : Instr → Bool
  | .sqrt => true
  | .isPrime => true
  | .isPrimeList => true
  | .decode => true
  | .badCommand w => decide (w ≠ 1#64 ∧ w ≠ 2#64 ∧ w ≠ 3#64 ∧ w ≠ 4#64)
  | .nccAnchor _ => true
  | .nccSentinel => true
  | .nccDelta d => decide (d ≠ 0#16)

end Sys2Proof
end

