-- ==== Sys2Proof/Decode.lean ====
section
/-! DEFINITION. The decoder, total on any bytes, and the encoder (30_encoding.md R80 to R91, 20_memory.md R54, R62). -/

namespace Sys2Proof

/-- `LE(b_0 .. b_{k-1})`, the sum of `b_j * 2^(8j)` (00_scope.md R12, 20_memory.md R62). -/
def leValue : List Byte → Nat
  | [] => 0
  | b :: bs => b.toNat + 256 * leValue bs

/-- The `k` bytes of `v`, the least significant first: `LE` read the other way. -/
def leBytes : Nat → Nat → List Byte
  | 0, _ => []
  | k + 1, v => BitVec.ofNat 8 v :: leBytes k (v / 256)

/-- `DecodeCmd` of R83, a total function on 64-bit words. -/
def decodeCmd (w : Word) : Instr :=
  if w = 0x1#64 then .sqrt
  else if w = 0x2#64 then .isPrime
  else if w = 0x3#64 then .isPrimeList
  else if w = 0x4#64 then .decode
  else .badCommand w

/-- A 2-byte record of value `d` read in DELTA mode (R88 to R90): 0 is the sentinel. -/
def decodeDelta (d : BitVec 16) : Instr :=
  if d = 0#16 then .nccSentinel else .nccDelta d

/-- Why bytes are no instruction: too few of them for what is read there. -/
inductive DecodeError where
  /-- Fewer than 8 bytes of a command word: no shorter form exists (R80). Safe: nothing is decoded. -/
  | shortCommand
  /-- Fewer than 8 bytes at an anchor position (R87, 43_gap_decoder.md R157). Safe. -/
  | shortAnchor
  /-- Fewer than 2 bytes at a delta position (R88, 43_gap_decoder.md R158). Safe. -/
  | shortDelta
  deriving DecidableEq, Repr

/-- How many bytes an instruction read there has (R80, R90). -/
def Source.size : Source → Nat
  | .command => 8
  | .anchor => 8
  | .delta => 2

/-- The refusal of too few bytes. -/
def Source.tooShort : Source → DecodeError
  | .command => .shortCommand
  | .anchor => .shortAnchor
  | .delta => .shortDelta

/-- The instruction that the value `v` stands for when it is read there. -/
def Source.instr : Source → Nat → Instr
  | .command, v => decodeCmd (BitVec.ofNat 64 v)
  | .anchor, v => .nccAnchor (BitVec.ofNat 64 v)
  | .delta, v => decodeDelta (BitVec.ofNat 16 v)

/-- The decoder: the first instruction of the bytes, and the bytes after it. The bytes past it are never looked at
(R86). -/
def decode (src : Source) (bytes : List Byte) : Except DecodeError (Instr × List Byte) :=
  if bytes.length < src.size then .error src.tooShort
  else .ok (src.instr (leValue (bytes.take src.size)), bytes.drop src.size)

/-- Where an instruction is read (R81, R90). -/
def Instr.source : Instr → Source
  | .sqrt => .command
  | .isPrime => .command
  | .isPrimeList => .command
  | .decode => .command
  | .badCommand _ => .command
  | .nccAnchor _ => .anchor
  | .nccSentinel => .delta
  | .nccDelta _ => .delta

/-- The eight bytes of a 64-bit value: byte `j` holds bits `[8j+7:8j]` (R87's table, R54's lanes). -/
def wordBytes (v : Word) : List Byte :=
  [v.extractLsb' 0 8, v.extractLsb' 8 8, v.extractLsb' 16 8, v.extractLsb' 24 8,
   v.extractLsb' 32 8, v.extractLsb' 40 8, v.extractLsb' 48 8, v.extractLsb' 56 8]

/-- The encoder, from the tables of R81, R87, R88 and R89. -/
def encode : Instr → List Byte
  | .sqrt => [0x01#8, 0x00#8, 0x00#8, 0x00#8, 0x00#8, 0x00#8, 0x00#8, 0x00#8]
  | .isPrime => [0x02#8, 0x00#8, 0x00#8, 0x00#8, 0x00#8, 0x00#8, 0x00#8, 0x00#8]
  | .isPrimeList => [0x03#8, 0x00#8, 0x00#8, 0x00#8, 0x00#8, 0x00#8, 0x00#8, 0x00#8]
  | .decode => [0x04#8, 0x00#8, 0x00#8, 0x00#8, 0x00#8, 0x00#8, 0x00#8, 0x00#8]
  | .badCommand w => wordBytes w
  | .nccAnchor a => wordBytes a
  | .nccSentinel => [0x00#8, 0x00#8]
  | .nccDelta d => [d.extractLsb' 0 8, d.extractLsb' 8 8]

/-- The opcode that the acceptance of a command word puts into `PEND` (R83, 40_command_lifecycle.md R103); a record is
no command. -/
def Instr.opcode? : Instr → Option Opcode
  | .sqrt => some .sqrt
  | .isPrime => some .isPrime
  | .isPrimeList => some .isPrimeList
  | .decode => some .decode
  | .badCommand _ => some .badCommand
  | .nccAnchor _ => none
  | .nccSentinel => none
  | .nccDelta _ => none

/-- `DecodeCmd(w)` as R103 uses it: the opcode of the command word `w`. -/
def commandOpcode (w : Word) : Opcode :=
  (decodeCmd w).opcode?.getD .badCommand

/-- The command the engine runs for a pending opcode. `PEND` keeps the opcode BAD_COMMAND and not the word that was
written, so a BAD_COMMAND runs with the word 0, which is as illegal; its meaning reads no operand (R110). Log 9. -/
def Opcode.instr : Opcode → Instr
  | .sqrt => .sqrt
  | .isPrime => .isPrime
  | .isPrimeList => .isPrimeList
  | .decode => .decode
  | .badCommand => .badCommand 0#64

/-- Where a word of the opcode table with `nbits` bits is read: the 16-bit rows are the records of DELTA mode, every
other row is a command word. A 64-bit anchor record has no mark that tells it from a command word (R90), so no word of
the table decodes to it here. Log 10. -/
def tableSource (nbits : Nat) : Source :=
  if nbits = 16 then .delta else .command

/-- The instruction the decoder reads from a word of the opcode table, its bytes laid out little-endian, zeros above
its `nbits` bits. -/
def decodeTableWord (nbits w : Nat) : Option Instr :=
  if nbits ≤ 64 ∧ w < 2 ^ nbits then
    match decode (tableSource nbits) (leBytes 8 w) with
    | .ok (i, _) => some i
    | .error _ => none
  else none

end Sys2Proof
end

