-- ==== Sys2Proof/Config.lean ====
section
/-! DEFINITION. The parameter of the block (00_scope.md R9) and the free values: what the spec leaves open
(93_implementation_defined.md U1, U2, U3, U8), as constants with no body, of which no proof can know a value. -/

namespace Sys2Proof.Config

/-- The largest `SEQ_CAP` (R9): the window `0x1000 + 8*i` then stays below offset `2^32` (D12). -/
def maxSeqCap : Nat := 2 ^ 29 - 512

/-- The parameter `SEQ_CAP` with its range `1 .. 2^29 − 512` (R9). A statement about every `SeqCap` is a statement
about every block the spec admits. -/
structure SeqCap where
  entries : Nat
  pos : 1 ≤ entries
  le_max : entries ≤ maxSeqCap
  deriving DecidableEq, Repr

/-- "Any value, chosen fresh on each read" (U2, U3, U8): applied to `State.tick`, which advances at each use.
Log 4. Safe: nothing can be proved of its values. -/
opaque freeWord : Nat → Word

/-- Any 4-bit value, for `STATUS.ERR` of a DECODE whose stream changed (R66, U3): applied to `State.tick`.
Log 4, log 12. Safe. -/
opaque freeCode : Nat → BitVec 4

/-- The value of a `SEQ` entry that nothing has written since reset (U1): applied to `State.epoch`, which advances at
each reset, and to the entry's index, so that it is "fixed until the entry is next written". Log 4. Safe. -/
opaque unwrittenSeq : Nat → Nat → Word

end Sys2Proof.Config
end

