-- ==== Sys2Proof/Machine/State.lean ====
section
/-! DEFINITION. The state of primes_core as plain data (10_state.md), why a step can stop, and the state after reset
(10_state.md R43). -/

namespace Sys2Proof.Machine

/-- `STATUS` by its fields (10_state.md R27). Bits 3 and 63:8 are reserved, read 0 and are never written (R34), so they
are no field; `Status.word` is the register as the host reads it. Log 15. -/
structure Status where
  /-- Bit 0: a command is accepted and not completed (R28). -/
  busy : Bool
  /-- Bit 1: a command has completed, and none was accepted since (R29). -/
  done : Bool
  /-- Bit 2: a `CMD` write was ignored because `BUSY` was 1 (R30). -/
  rej : Bool
  /-- Bits 7:4: the error code of the last completed command (R31). -/
  err : BitVec 4
  deriving DecidableEq, Repr

/-- The error codes by name (60_exceptions.md R181). -/
inductive ErrorCode where
  | ok
  | openFailure
  | shortReadAnchor
  | shortReadDelta
  | bufferOverflow
  | listInvalid
  | listRange
  | badCommand
  deriving DecidableEq, Repr

/-- The decoder's record mode (10_state.md R38, 30_encoding.md R90). -/
inductive Mode where
  | anchor
  | delta
  deriving DecidableEq, Repr

/-- The bisection of SqrtBound (10_state.md R39, 41_isqrt_bound.md R120): the bounds and the midpoint to be compared
next. Numbers are exact (00_scope.md R11); that 33 bits hold them is an invariant (R39, R123). Log 6, log 7. -/
structure Bisect where
  lo : Nat
  hi : Nat
  c : Nat
  deriving DecidableEq, Repr

/-- The trial division (10_state.md R40, 42_trial_division.md R130): the bound and the next divisor. Log 6. -/
structure Divide where
  b : Nat
  d : Nat
  deriving DecidableEq, Repr

/-- The walk along the known-primes list (10_state.md R40, 42_trial_division.md R133): the bound, the index of the next
entry and the previous candidate. Log 6. -/
structure Walk where
  b : Nat
  i : Nat
  prev : Nat
  deriving DecidableEq, Repr

/-- The source's DecodeCursor with the record mode (10_state.md R38): the offset of the next record, the running
baseline, the count of values emitted, the mode. Log 6. -/
structure Cursor where
  p : Nat
  last : Word
  cnt : Nat
  mode : Mode
  deriving DecidableEq, Repr

/-- The engine's working variables (10_state.md R38 to R40), by what the pending command is doing with them. -/
inductive Work where
  /-- SQRT evaluates SqrtBound (41_isqrt_bound.md R125). -/
  | sqrt (v : Bisect)
  /-- ISPRIME evaluates SqrtBound (42_trial_division.md R130). -/
  | primeBound (v : Bisect)
  /-- ISPRIME_LIST evaluates SqrtBound (42_trial_division.md R133). -/
  | listBound (v : Bisect)
  /-- ISPRIME divides, or ISPRIME_LIST does after its list (42_trial_division.md R130, R138). -/
  | divide (v : Divide)
  /-- ISPRIME_LIST walks its list (42_trial_division.md R133). -/
  | walk (v : Walk)
  /-- DECODE reads records (43_gap_decoder.md R153). -/
  | cursor (c : Cursor)
  deriving DecidableEq, Repr

/-- The stream's bytes; `STREAM_LEN` is their number, `0 .. 2^64 − 1` (00_scope.md R9, 10_state.md R36). -/
structure Stream where
  bytes : List Byte
  length_lt : bytes.length < 2 ^ 64
  deriving DecidableEq, Repr

/-- The width of a host access, in bytes (20_memory.md R52, R53). -/
inductive AccessSize where
  | one
  | two
  | four
  | eight
  deriving DecidableEq, Repr

/-- A host bus transaction (20_memory.md R51) at a byte offset of 32 bits. -/
inductive BusAccess where
  | read (size : AccessSize) (addr : BitVec 32)
  | write (size : AccessSize) (addr : BitVec 32) (data : Word)
  deriving DecidableEq, Repr

/-- What happens next: whose turn it is. The order of turns is data, so that every order the spec admits is some
`State.inbox`. Log 1. -/
inductive Turn where
  /-- The host accesses the bus (20_memory.md R51). -/
  | host (a : BusAccess)
  /-- The engine takes one step of the pending command's pseudocode (40_command_lifecycle.md R105). Log 2. -/
  | engine
  /-- The engine evaluates the pending command whole, in the step that completes it (40_command_lifecycle.md R105).
  Log 2. -/
  | complete
  /-- The input `rst` is asserted (true) or released (70_reset_and_hazards.md R210). Released while it was released
  already, it stands for a whole pulse of `rst` within the turn (DESIGN CHOICE, log 21). -/
  | reset (asserted : Bool)
  /-- The environment presents a stream, or none (10_state.md R36). -/
  | stream (present : Bool) (bytes : Stream)
  deriving DecidableEq, Repr

/-- `SEQ` as the entries written since reset, `(index, value)`, indices strictly rising: the one canonical form (see
`Memory.wf`). An entry not listed has no value of the spec's and reads as a free value (93_implementation_defined.md
U1), so no listed entry can be known to equal what an unlisted one reads as. Entries are the smallest unit there is
(20_memory.md R52). Log 5. -/
abbrev Memory := List (Nat × Word)

/-- The state of the block (10_state.md R21), of its inputs, and of the model's own counters. -/
structure State where
  /-- `CAPACITY`, the parameter `SEQ_CAP` (10_state.md R33): constant, no step changes it. Log 3. -/
  cap : Config.SeqCap
  /-- The environment's `STREAM_PRESENT` (10_state.md R36). Log 3. -/
  streamPresent : Bool
  /-- The environment's `STREAM` and `STREAM_LEN` (10_state.md R36). Log 3. -/
  stream : Stream
  /-- The level of the reset input (70_reset_and_hazards.md R210). -/
  rst : Bool
  /-- MODEL. The inputs and turns still to come. Log 1. -/
  inbox : List Turn
  /-- `ARG0` (10_state.md R24). -/
  arg0 : Word
  /-- `ARG1` (10_state.md R24). -/
  arg1 : Word
  /-- `ARG2` (10_state.md R24). -/
  arg2 : Word
  /-- `STATUS` (10_state.md R27). -/
  status : Status
  /-- `RESULT` (10_state.md R32). -/
  result : Word
  /-- `PEND` (10_state.md R37). -/
  pend : Option Opcode
  /-- The engine's working variables, if any exist (10_state.md R38 to R40). -/
  work : Option Work
  /-- `SEQ` (10_state.md R35). -/
  seq : Memory
  /-- MODEL. What the host's reads returned, the newest first. Log 16. -/
  reads : List Word
  /-- MODEL. Counts the resets, for the free values of unwritten `SEQ` entries. Log 4. -/
  epoch : Nat
  /-- MODEL. Counts the fresh free values drawn. Log 4. -/
  tick : Nat
  /-- MODEL. The stream has changed while the running or latest DECODE ran (20_memory.md R66). Log 12. -/
  streamMoved : Bool
  deriving DecidableEq, Repr

/-- Why the machine would stop with a fault: never. "No behaviour of the block is `stuck`"
(93_implementation_defined.md), and every error is returned in `STATUS.ERR` (60_exceptions.md R180). -/
inductive Fault where
  deriving DecidableEq, Repr

/-- What the model gives no meaning to. -/
inductive Refusal where
  /-- Raised by `exec`'s arm of an instruction that has no meaning yet. Safe. -/
  | notModelled (mnemonic : String)
  /-- Raised by `busAccess`: an access narrower than 8 bytes or at an offset that 8 does not divide (20_memory.md R53:
  "A model refuses it"). Safe. -/
  | hostAccess
  /-- Raised by the meanings of the three stream records where no running DECODE reads such a record: a record has a
  meaning only there (30_encoding.md R87 to R90). No step raises it in a state that meets the invariant. Log 8. Safe. -/
  | recordOutsideDecode
  deriving DecidableEq, Repr

/-- The state after reset (10_state.md R43). `SEQ` lists nothing: every entry is unspecified. The values that R43 does
not give are named in log 3 (the parameter and the inputs) and log 20 (the model's own fields); no statement rests on
them. -/
def State.reset : State where
  cap := { entries := 16, pos := by decide, le_max := by decide }
  streamPresent := false
  stream := { bytes := [], length_lt := by decide }
  rst := false
  inbox := []
  arg0 := 0#64
  arg1 := 0#64
  arg2 := 0#64
  status := { busy := false, done := false, rej := false, err := 0#4 }
  result := 0#64
  pend := none
  work := none
  seq := []
  reads := []
  epoch := 0
  tick := 0
  streamMoved := false

end Sys2Proof.Machine
end

