-- ==== Sys2Proof/Machine/Flags.lean ====
section
/-! DEFINITION. The computations of `STATUS` (10_state.md R27 to R31, 40_command_lifecycle.md R102, R103, R106) and the
numbers of the error codes (60_exceptions.md R181). -/

namespace Sys2Proof.Machine

/-- The code written to `STATUS.ERR` (R181). -/
def ErrorCode.code : ErrorCode → BitVec 4
  | .ok => 0x0#4
  | .openFailure => 0x1#4
  | .shortReadAnchor => 0x2#4
  | .shortReadDelta => 0x3#4
  | .bufferOverflow => 0x4#4
  | .listInvalid => 0x5#4
  | .listRange => 0x6#4
  | .badCommand => 0x7#4

/-- `STATUS` as the host reads it: `BUSY` bit 0, `DONE` bit 1, `REJ` bit 2, bit 3 zero, `ERR` bits 7:4, bits 63:8 zero
(R27, R34). -/
def Status.word (st : Status) : Word :=
  0#56 ++ st.err ++ 0#1 ++ BitVec.ofBool st.rej ++ BitVec.ofBool st.done ++ BitVec.ofBool st.busy

/-- `STATUS` after reset: `0x0` (R43). -/
def Status.cleared : Status := { busy := false, done := false, rej := false, err := ErrorCode.ok.code }

/-- `STATUS` after an acceptance (R103). -/
def Status.accepted : Status := { busy := true, done := false, rej := false, err := ErrorCode.ok.code }

/-- `STATUS` after a rejected `CMD` write: `REJ` alone is set (R102). -/
def Status.rejected (st : Status) : Status := { st with rej := true }

/-- `STATUS` after a completion with the code `e`: `REJ` is unchanged (R106). -/
def Status.completed (e : BitVec 4) (st : Status) : Status :=
  { busy := false, done := true, rej := st.rej, err := e }

/-- A Boolean result: `true` is `0x1`, `false` is `0x0` (30_encoding.md R94). -/
def boolWord : Bool → Word
  | true => 0x1#64
  | false => 0x0#64

end Sys2Proof.Machine
end

