-- ==== Sys2Proof/Machine/Operands.lean ====
section
/-! DEFINITION. Operand assembly (30_encoding.md R85): what each command takes from the argument registers, whole, as an
unsigned number. -/

namespace Sys2Proof.Machine

/-- `n` of SQRT, ISPRIME and ISPRIME_LIST: `ARG0` (R85). -/
def State.candidate (s : State) : Nat := s.arg0.toNat

/-- `LIST_BASE` of ISPRIME_LIST: `ARG1` (R85). -/
def State.listBase (s : State) : Nat := s.arg1.toNat

/-- `LIST_COUNT` of ISPRIME_LIST: `ARG2` (R85). -/
def State.listCount (s : State) : Nat := s.arg2.toNat

/-- `START` of DECODE: `ARG0` (R85, 43_gap_decoder.md R150). -/
def State.start (s : State) : Nat := s.arg0.toNat

/-- `DEST_BASE` of DECODE: `ARG1` (R85, 43_gap_decoder.md R150). -/
def State.destBase (s : State) : Nat := s.arg1.toNat

/-- `LENGTH` of DECODE: `ARG2` (R85, 43_gap_decoder.md R150). -/
def State.length (s : State) : Nat := s.arg2.toNat

/-- `SEQ_CAP`. -/
def State.capacity (s : State) : Nat := s.cap.entries

/-- `LIST_BASE + LIST_COUNT <= SEQ_CAP` in unbounded integers (42_trial_division.md R140). -/
def State.listInRange (s : State) : Bool := decide (s.listBase + s.listCount ≤ s.capacity)

/-- `DEST_BASE + LENGTH <= SEQ_CAP` in unbounded integers (43_gap_decoder.md R151). -/
def State.destInRange (s : State) : Bool := decide (s.destBase + s.length ≤ s.capacity)

/-- `j` is in the destination range `[ARG1, ARG1 + ARG2)` (20_memory.md R69). -/
def State.inDest (s : State) (j : Nat) : Bool := decide (s.destBase ≤ j ∧ j < s.destBase + s.length)

end Sys2Proof.Machine
end

