-- ==== Sys2Proof/Machine/Ops.lean ====
section
/-! DEFINITION. The shared operations: `SEQ` as a memory of entries, free values, acceptance and rejection of a command,
completion (with or without an error), and reset. -/

namespace Sys2Proof.Machine

/-- The value listed for entry `i`, if any was written since reset. -/
def Memory.find : Memory → Nat → Option Word
  | [], _ => none
  | (a, v) :: m, i => if a = i then some v else Memory.find m i

/-- Entry `i` becomes `v`; the form stays canonical. -/
def Memory.write : Memory → Nat → Word → Memory
  | [], i, v => [(i, v)]
  | (a, w) :: m, i, v =>
    if i < a then (i, v) :: (a, w) :: m
    else if i = a then (i, v) :: m
    else (a, w) :: Memory.write m i v

/-- The canonical form: indices strictly rising. -/
abbrev Memory.wf (m : Memory) : Prop := m.Pairwise (fun x y => x.1 < y.1)

/-- `SEQ[i]`: the value last written, or, where nothing was written since reset, a value fixed until the entry is
written that nothing else is known of (20_memory.md R63, 93_implementation_defined.md U1). -/
def State.seqRead (s : State) (i : Nat) : Word :=
  (s.seq.find i).getD (Config.unwrittenSeq s.epoch i)

/-- `SEQ[i] <- v` (00_scope.md R12). -/
def State.seqWrite (s : State) (i : Nat) (v : Word) : State :=
  { s with seq := s.seq.write i v }

/-- A fresh free value: "any value, chosen fresh" (93_implementation_defined.md U2, U8). -/
def State.freshWord (s : State) : Word := Config.freeWord s.tick

/-- The counter of free values advances. -/
def State.drawn (s : State) : State := { s with tick := s.tick + 1 }

/-- The working variables become `w` (10_state.md R38 to R40). -/
def State.setWork (w : Work) (s : State) : State := { s with work := some w }

/-- The turns still to come are `ts`. -/
def State.withInbox (ts : List Turn) (s : State) : State := { s with inbox := ts }

/-- `Accept(op)` (40_command_lifecycle.md R103). DESIGN CHOICE: no working variable exists yet, although 10_state.md R37
has them created at acceptance; the engine's first step creates them (log 22). The stream of a DECODE is watched from
here on (20_memory.md R66, log 12). -/
def State.accept (op : Opcode) (s : State) : State :=
  { s with pend := some op, status := Status.accepted, work := none, streamMoved := false }

/-- `Reject()` (40_command_lifecycle.md R102). -/
def State.reject (s : State) : State := { s with status := s.status.rejected }

/-- `CommandIssue(w)` (40_command_lifecycle.md R101). -/
def State.issue (w : Word) (s : State) : State :=
  if s.status.busy then s.reject else s.accept (commandOpcode w)

/-- The step that ends a command with the bits `e` in `ERR` and `v` in `RESULT`; the working variables are discarded
(40_command_lifecycle.md R106, 10_state.md R37). -/
def State.completeWith (e : BitVec 4) (v : Word) (s : State) : State :=
  { s with result := v, status := s.status.completed e, pend := none, work := none }

/-- `Complete(e, v)` (40_command_lifecycle.md R106): `finish(v)` is `complete .ok v`, `raise E(v)` is `complete E v`. An
error is returned like this and in no other way: no control transfer, nothing saved (60_exceptions.md R180). -/
def State.complete (e : ErrorCode) (v : Word) (s : State) : State := s.completeWith e.code v

/-- `finish(v)` (40_command_lifecycle.md R106). -/
def State.finish (v : Word) (s : State) : State := s.complete .ok v

/-- `raise e(v)` (40_command_lifecycle.md R106). -/
def State.raise (e : ErrorCode) (v : Word) (s : State) : State := s.complete e v

/-- `k` entries from index `i` on take any value (20_memory.md R66). -/
def State.scramble : Nat → Nat → State → State
  | 0, _, s => s
  | k + 1, i, s => State.scramble k (i + 1) (s.seqWrite i s.freshWord).drawn

/-- How many entries of the destination range `SEQ` has. -/
def State.destEntries (s : State) : Nat := min s.length (s.capacity - s.destBase)

/-- The completion of a DECODE. Where the stream changed while it ran, every entry of the destination range, `RESULT`
and `ERR` take any value (20_memory.md R66); `v` is the count of values emitted. Log 12. -/
def State.completeDecode (e : ErrorCode) (v : Nat) (s : State) : State :=
  if s.streamMoved then
    let t := State.scramble s.destEntries s.destBase s
    t.drawn.completeWith (Config.freeCode t.tick) t.freshWord
  else s.complete e (BitVec.ofNat 64 v)

/-- The state takes the values of 10_state.md R43 (70_reset_and_hazards.md R210): a pending command is abandoned without
completion, and every `SEQ` entry is unspecified anew (R211: "a model may treat every entry as unspecified"). The
parameter, the inputs and what the host has read are not the block's state. Log 13. -/
def State.applyReset (s : State) : State :=
  { s with
    arg0 := 0#64, arg1 := 0#64, arg2 := 0#64
    status := Status.cleared
    result := 0#64
    pend := none
    work := none
    seq := []
    epoch := s.epoch + 1
    streamMoved := false }

/-- The reset input goes to the level `asserted`: "While `rst` is asserted, and when it is released, the state takes the
values" (70_reset_and_hazards.md R210). DESIGN CHOICE: a turn that releases `rst` while it is released already, where no
assertion or release is left to take place, resets the block too and abandons a running command; it stands for a whole
pulse of `rst` within one turn. Log 13, log 21. -/
def State.setRst (asserted : Bool) (s : State) : State := { s.applyReset with rst := asserted }

/-- The environment presents the stream `b`, or none. A change while a DECODE is pending is noted (20_memory.md R66).
Log 12. -/
def State.setStream (present : Bool) (b : Stream) (s : State) : State :=
  { s with
    streamPresent := present
    stream := b
    streamMoved := s.streamMoved ||
      (decide (s.pend = some .decode) && !(decide (present = s.streamPresent) && decide (b = s.stream))) }

end Sys2Proof.Machine
end

