-- ==== Sys2Proof/Machine/Bus.lean ====
section
/-! DEFINITION. The host bus (20_memory.md R51 to R58, 10_state.md R23). -/

namespace Sys2Proof.Machine

/-- What stands at an offset (10_state.md R23). -/
inductive Target where
  | cmd
  | status
  | arg0
  | arg1
  | arg2
  | result
  | capacity
  | seq (i : Nat)
  | reserved
  deriving DecidableEq, Repr

/-- The register map (10_state.md R23, 20_memory.md R55) of a block with `cap` entries. -/
def busTarget (cap : Nat) (addr : BitVec 32) : Target :=
  if addr = 0x000#32 then .cmd
  else if addr = 0x008#32 then .status
  else if addr = 0x010#32 then .arg0
  else if addr = 0x018#32 then .arg1
  else if addr = 0x020#32 then .arg2
  else if addr = 0x028#32 then .result
  else if addr = 0x030#32 then .capacity
  else if 0x1000 ≤ addr.toNat ∧ addr.toNat < 0x1000 + 8 * cap then .seq ((addr.toNat - 0x1000) / 8)
  else .reserved

/-- Admitted: 8 bytes wide, at an offset that 8 divides (20_memory.md R52). -/
def busAdmitted (size : AccessSize) (addr : BitVec 32) : Bool :=
  decide (size = .eight ∧ addr.toNat % 8 = 0)

/-- A DECODE is running and `j` is in its destination range (20_memory.md R69). -/
def State.beingDecoded (s : State) (j : Nat) : Bool :=
  decide (s.pend = some .decode) && s.inDest j

/-- The data of a read goes to the host. -/
def State.returned (v : Word) (s : State) : State := { s with reads := v :: s.reads }

/-- A read that returns any value (20_memory.md R69, 70_reset_and_hazards.md R210). -/
def State.returnedAny (s : State) : State := s.drawn.returned s.freshWord

/-- `MemRead(addr, 8)` (20_memory.md R55): no side effect on the block (R57). -/
def memRead (addr : BitVec 32) (s : State) : State :=
  match busTarget s.capacity addr with
  | .cmd => s.returned 0#64
  | .status => s.returned s.status.word
  | .arg0 => s.returned s.arg0
  | .arg1 => s.returned s.arg1
  | .arg2 => s.returned s.arg2
  | .result => s.returned s.result
  | .capacity => s.returned (BitVec.ofNat 64 s.capacity)
  | .seq j => if s.beingDecoded j then s.returnedAny else s.returned (s.seqRead j)
  | .reserved => s.returned 0#64

/-- `MemWrite(addr, 8, v)` (20_memory.md R55). -/
def memWrite (addr : BitVec 32) (v : Word) (s : State) : State :=
  match busTarget s.capacity addr with
  | .cmd => s.issue v
  | .status => s
  | .arg0 => if s.status.busy then s else { s with arg0 := v }
  | .arg1 => if s.status.busy then s else { s with arg1 := v }
  | .arg2 => if s.status.busy then s else { s with arg2 := v }
  | .result => s
  | .capacity => s
  | .seq j => if s.status.busy then s else s.seqWrite j v
  | .reserved => s

/-- A host access. Any but an admitted one is refused (20_memory.md R53). While `rst` is asserted an access has no effect
and a read returns any value (70_reset_and_hazards.md R210). Log 14. -/
def busAccess (a : BusAccess) (s : State) : Host.Outcome State Fault Refusal :=
  match a with
  | .read size addr =>
    if busAdmitted size addr then .next (if s.rst then s.returnedAny else memRead addr s)
    else .refused .hostAccess
  | .write size addr v =>
    if busAdmitted size addr then .next (if s.rst then s else memWrite addr v s)
    else .refused .hostAccess

end Sys2Proof.Machine
end

