-- ==== Sys2Proof/Machine/GapDecoder.lean ====
section
/-! DEFINITION. gap_decoder: the stream records and the command DECODE (43_gap_decoder.md). -/

namespace Sys2Proof.Machine

/-- Where the record of a mode is read (30_encoding.md R90). -/
def Mode.source : Mode → Source
  | .anchor => .anchor
  | .delta => .delta

/-- The short read of a mode (R157, R158). -/
def Mode.shortRead : Mode → ErrorCode
  | .anchor => .shortReadAnchor
  | .delta => .shortReadDelta

/-- The bytes of the stream from offset `p` on: "sequential access to the file beginning at `start`" (20_memory.md R61).
-/
def State.streamFrom (s : State) (p : Nat) : List Byte := s.stream.bytes.drop p

/-- The cursor at the start of a DECODE (R153). -/
def Cursor.begin (start : Nat) : Cursor := { p := start, last := 0#64, cnt := 0, mode := .anchor }

/-- The cursor with which a running DECODE reads a record of mode `m`: it exists only while the loop wants another value
(R159) and after the buffer check (R151). Log 8. -/
def State.recordCursor (m : Mode) (s : State) : Option Cursor :=
  match s.work with
  | some (.cursor c) => if c.mode = m ∧ c.cnt < s.length ∧ s.destInRange then some c else none
  | _ => none

/-- `SEQ[DEST_BASE + cnt] <- v; cnt <- cnt + 1; last <- v`, the record's `k` bytes passed, in DELTA mode after it
(R153). -/
def State.emit (c : Cursor) (k : Nat) (v : Word) (s : State) : State :=
  (s.seqWrite (s.destBase + c.cnt) v).setWork
    (.cursor { p := c.p + k, last := v, cnt := c.cnt + 1, mode := .delta })

/-- NCC_ANCHOR: the value is appended and becomes `last`, and DELTA mode follows (R154). -/
def execNccAnchor (a : Word) (s : State) : Host.Outcome State Fault Refusal :=
  match s.recordCursor .anchor with
  | some c => .next (s.emit c 8 a)
  | none => .refused .recordOutsideDecode

/-- NCC_SENTINEL: nothing is appended, `last` and `cnt` are unchanged, and ANCHOR mode follows (R156). -/
def execNccSentinel (s : State) : Host.Outcome State Fault Refusal :=
  match s.recordCursor .delta with
  | some c => .next (s.setWork (.cursor { c with p := c.p + 2, mode := .anchor }))
  | none => .refused .recordOutsideDecode

/-- NCC_DELTA: `last + zext_64(d)` modulo `2^64` is appended and becomes `last` (R155, R161). -/
def execNccDelta (d : BitVec 16) (s : State) : Host.Outcome State Fault Refusal :=
  match s.recordCursor .delta with
  | some c => .next (s.emit c 2 (c.last + d.setWidth 64))
  | none => .refused .recordOutsideDecode

/-- A record of the stream runs. A command word is no record: the stream decoder never gives one. -/
def runRecord (i : Instr) (s : State) : Host.Outcome State Fault Refusal :=
  match i with
  | .nccAnchor a => execNccAnchor a s
  | .nccSentinel => execNccSentinel s
  | .nccDelta d => execNccDelta d s
  | .sqrt => .refused .recordOutsideDecode
  | .isPrime => .refused .recordOutsideDecode
  | .isPrimeList => .refused .recordOutsideDecode
  | .decode => .refused .recordOutsideDecode
  | .badCommand _ => .refused .recordOutsideDecode

/-- One iteration of DecodeLoop (R153): the count is tested first (R159), then the record at `p` is read in the cursor's
mode and runs, or is cut short (R157, R158). -/
def decodeTurn (c : Cursor) (s : State) : Host.Outcome State Fault Refusal :=
  if c.cnt < s.length then
    match Sys2Proof.decode c.mode.source (s.streamFrom c.p) with
    | .ok (i, _) => runRecord i s
    | .error _ => .next (s.completeDecode c.mode.shortRead c.cnt)
  else .next (s.completeDecode .ok c.cnt)

/-- At most `k` iterations; `2 * LENGTH + 1` are enough (R167). Log 19. -/
def decodeLoop : Nat → State → Host.Outcome State Fault Refusal
  | 0, s => .next s
  | k + 1, s =>
    match s.work with
    | some (.cursor c) =>
      match decodeTurn c s with
      | .next t => decodeLoop k t
      | .fault r => .fault r
      | .refused r => .refused r
    | _ => .next s

/-- The cursor is created (10_state.md R38). -/
def State.openCursor (s : State) : State := s.setWork (.cursor (Cursor.begin s.start))

/-- DECODE: the buffer check, the open check, the loop (R166, R151 to R153). -/
def execDecode (s : State) : Host.Outcome State Fault Refusal :=
  if !s.destInRange then .next (s.completeDecode .bufferOverflow 0)
  else if !s.streamPresent then .next (s.completeDecode .openFailure 0)
  else decodeLoop (2 * s.length + 1) s.openCursor

end Sys2Proof.Machine
end

