-- ==== Sys2Proof/Machine/Illegal.lean ====
section
/-! DEFINITION. The pseudo-operation BAD_COMMAND (40_command_lifecycle.md R110). -/

namespace Sys2Proof.Machine

/-- BAD_COMMAND: `raise BAD_COMMAND(0)`, whatever the word; no operand is read (R110, 60_exceptions.md R183). -/
def execBadCommand (_w : Word) (s : State) : Host.Outcome State Fault Refusal :=
  .next (s.raise .badCommand 0#64)

end Sys2Proof.Machine
end

