-- ==== Sys2Proof/Machine/Isqrt.lean ====
section
/-! DEFINITION. isqrt_bound: SqrtBound and the command SQRT (41_isqrt_bound.md). -/

namespace Sys2Proof.Machine

/-- What one iteration of a loop of the pseudocode ends with: the variables of the next one, or the loop's result. -/
inductive LoopStep (α ρ : Type) where
  | more (a : α)
  | done (r : ρ)
  deriving DecidableEq, Repr

/-- `c <- lo + (hi - lo) / 2` (R120). -/
def midpoint (lo hi : Nat) : Nat := lo + (hi - lo) / 2

/-- The loop's head: `while hi - lo > 1`, with the midpoint of the next iteration, or `return hi` (R120). -/
def bisectHead (lo hi : Nat) : LoopStep Bisect Nat :=
  if hi - lo > 1 then .more { lo := lo, hi := hi, c := midpoint lo hi } else .done hi

/-- SqrtBound up to its loop: the fixed points 0, 1, 2, and the initial bounds `0` and `2^32` (R120, 90_conflicts.md
C1). -/
def sqrtStart (n : Nat) : LoopStep Bisect Nat :=
  if n ≤ 2 then .done n else bisectHead 0 (2 ^ 32)

/-- One iteration: the comparison of `c * c` with `n`, and the loop's head again (R120). -/
def bisectNext (n : Nat) (v : Bisect) : LoopStep Bisect Nat :=
  if v.c * v.c < n then bisectHead v.c v.hi
  else if n < v.c * v.c then bisectHead v.lo v.c
  else .done v.c

/-- At most `k` iterations. 32 are enough from the initial bounds (R124), so the last line is not reached there.
Log 19. -/
def bisectLoop : Nat → Nat → Bisect → Nat
  | 0, _, v => v.hi
  | k + 1, n, v =>
    match bisectNext n v with
    | .more v' => bisectLoop k n v'
    | .done r => r

/-- `SqrtBound(n)` (R120). -/
def sqrtBound (n : Nat) : Nat :=
  match sqrtStart n with
  | .more v => bisectLoop 32 n v
  | .done r => r

/-- SQRT: `finish(SqrtBound(ARG0))` (R125). -/
def execSqrt (s : State) : Host.Outcome State Fault Refusal :=
  .next (s.finish (BitVec.ofNat 64 (sqrtBound s.candidate)))

end Sys2Proof.Machine
end

