-- ==== Sys2Proof/Machine/TrialDivision.lean ====
section
/-! DEFINITION. trial_division_tester: IsPrime, IsPrimeList and the commands ISPRIME and ISPRIME_LIST
(42_trial_division.md). -/

namespace Sys2Proof.Machine

/-- The fast path of both tests: `n < 2`, `n ∈ {2, 3}`, `n` even (R130, R134). -/
def fastPath (n : Nat) : Option Bool :=
  if n < 2 then some false
  else if n = 2 ∨ n = 3 then some true
  else if n % 2 = 0 then some false
  else none

/-- One iteration of `while d <= b` (R130, and the continuation of R133). -/
def divideNext (n : Nat) (v : Divide) : LoopStep Divide Bool :=
  if v.d ≤ v.b then
    if n % v.d = 0 then .done false else .more { v with d := v.d + 2 }
  else .done true

/-- At most `k` iterations; `b` are enough from any divisor from 3 on, so the first line is not reached there. Log 19. -/
def divideLoop : Nat → Nat → Divide → Bool
  | 0, _, _ => true
  | k + 1, n, v =>
    match divideNext n v with
    | .more v' => divideLoop k n v'
    | .done r => r

/-- Every second number from `d` up to and including `b` is tried (R130, R138). -/
def noDivisorFrom (n b d : Nat) : Bool := divideLoop b n { b := b, d := d }

/-- `IsPrime(n)` (R130). -/
def isPrime (n : Nat) : Bool :=
  match fastPath n with
  | some r => r
  | none => noDivisorFrom n (sqrtBound n) 3

/-- What the walk along the list ends with: `LIST_INVALID`, an answer, or the list's end with the last examined
candidate. -/
inductive WalkEnd where
  | invalid
  | answer (r : Bool)
  | exhausted (prev : Nat)
  deriving DecidableEq, Repr

/-- One iteration of `while i < count` (R133, R135 to R137), where `entry i` is `SEQ[base + i]`. -/
def walkNext (n count : Nat) (entry : Nat → Nat) (v : Walk) : LoopStep Walk WalkEnd :=
  if v.i < count then
    let e := entry v.i
    if v.i = 0 ∧ e = 2 then .more { v with i := v.i + 1 }
    else if e ≤ v.prev then .done .invalid
    else if v.b < e then .done (.answer true)
    else if n % e = 0 then .done (.answer false)
    else .more { v with i := v.i + 1, prev := e }
  else .done (.exhausted v.prev)

/-- At most `k` iterations; `count + 1` are enough from the list's start. Log 19. -/
def walkLoop : Nat → Nat → Nat → (Nat → Nat) → Walk → WalkEnd
  | 0, _, _, _, v => .exhausted v.prev
  | k + 1, n, count, entry, v =>
    match walkNext n count entry v with
    | .more v' => walkLoop k n count entry v'
    | .done r => r

/-- The walk's variables at its start: the value 2 is "already handled" (R133). -/
def Walk.begin (b : Nat) : Walk := { b := b, i := 0, prev := 2 }

/-- The first divisor after the list: `prev + 1` when `prev` is even, `prev + 2` when it is odd (R138). -/
def continuation (prev : Nat) : Nat := if prev % 2 = 0 then prev + 1 else prev + 2

/-- `IsPrimeList(n, base, count)` (R133), where `entry i` is `SEQ[base + i]`. -/
def isPrimeList (n count : Nat) (entry : Nat → Nat) : ErrorCode × Bool :=
  match fastPath n with
  | some r => (.ok, r)
  | none =>
    match walkLoop (count + 1) n count entry (Walk.begin (sqrtBound n)) with
    | .invalid => (.listInvalid, false)
    | .answer r => (.ok, r)
    | .exhausted prev => (.ok, noDivisorFrom n (sqrtBound n) (continuation prev))

/-- Entry `i` of the list: `L[i] = SEQ[LIST_BASE + i]` (R133). -/
def State.listEntry (s : State) (i : Nat) : Nat := (s.seqRead (s.listBase + i)).toNat

/-- ISPRIME: `finish(1)` or `finish(0)` (R132). -/
def execIsPrime (s : State) : Host.Outcome State Fault Refusal :=
  .next (s.finish (boolWord (isPrime s.candidate)))

/-- ISPRIME_LIST: the range check first, then the test (R140). On an error `RESULT` is 0. -/
def execIsPrimeList (s : State) : Host.Outcome State Fault Refusal :=
  if s.listInRange then
    let (e, r) := isPrimeList s.candidate s.listCount s.listEntry
    .next (s.complete e (boolWord r))
  else .next (s.raise .listRange 0#64)

end Sys2Proof.Machine
end

