-- ==== Sys2Proof/Machine/Dispatch.lean ====
section
/-! DEFINITION. The meaning of every row of the opcode table: a command's pseudocode from its start to its completion
(40_command_lifecycle.md R100, R105), a record's step of the decode loop (43_gap_decoder.md R154 to R156). -/

namespace Sys2Proof.Machine

def exec (i : Instr) (s : State) : Host.Outcome State Fault Refusal :=
  match i with
  | .sqrt => Sys2Proof.Machine.execSqrt s
  | .isPrime => Sys2Proof.Machine.execIsPrime s
  | .isPrimeList => Sys2Proof.Machine.execIsPrimeList s
  | .decode => Sys2Proof.Machine.execDecode s
  | .badCommand w => Sys2Proof.Machine.execBadCommand w s
  | .nccAnchor a => Sys2Proof.Machine.execNccAnchor a s
  | .nccSentinel => Sys2Proof.Machine.execNccSentinel s
  | .nccDelta d => Sys2Proof.Machine.execNccDelta d s

end Sys2Proof.Machine
end

