-- ==== Sys2Proof/Machine/Engine.lean ====
section
/-! DEFINITION. The engine's turns (40_command_lifecycle.md R105): one step of the pending command's pseudocode over the
working variables, or the whole evaluation in the step that completes it. -/

namespace Sys2Proof.Machine

/-- SqrtBound has the result `r`: SQRT finishes with it (41_isqrt_bound.md R125), or its loop goes on. -/
def sqrtTurn (l : LoopStep Bisect Nat) (s : State) : State :=
  match l with
  | .more v => s.setWork (.sqrt v)
  | .done r => s.finish (BitVec.ofNat 64 r)

/-- The same inside ISPRIME: division from 3 on follows (42_trial_division.md R130). -/
def primeBoundTurn (l : LoopStep Bisect Nat) (s : State) : State :=
  match l with
  | .more v => s.setWork (.primeBound v)
  | .done b => s.setWork (.divide { b := b, d := 3 })

/-- The same inside ISPRIME_LIST: the walk follows (42_trial_division.md R133). -/
def listBoundTurn (l : LoopStep Bisect Nat) (s : State) : State :=
  match l with
  | .more v => s.setWork (.listBound v)
  | .done b => s.setWork (.walk (Walk.begin b))

/-- An iteration of the trial division, which ends both tests (42_trial_division.md R130, R138). -/
def divideTurn (l : LoopStep Divide Bool) (s : State) : State :=
  match l with
  | .more v => s.setWork (.divide v)
  | .done r => s.finish (boolWord r)

/-- An iteration of the list walk with the bound `b` (42_trial_division.md R133). -/
def walkTurn (b : Nat) (l : LoopStep Walk WalkEnd) (s : State) : State :=
  match l with
  | .more v => s.setWork (.walk v)
  | .done .invalid => s.raise .listInvalid 0#64
  | .done (.answer r) => s.finish (boolWord r)
  | .done (.exhausted prev) => s.setWork (.divide { b := b, d := continuation prev })

/-- The first step of a pending command: its checks and fast path, and its working variables (40_command_lifecycle.md
R105). 10_state.md R37 has these created at acceptance; the model creates them here (log 22). -/
def engineStart (op : Opcode) (s : State) : State :=
  match op with
  | .sqrt => sqrtTurn (sqrtStart s.candidate) s
  | .isPrime =>
    match fastPath s.candidate with
    | some r => s.finish (boolWord r)
    | none => primeBoundTurn (sqrtStart s.candidate) s
  | .isPrimeList =>
    if s.listInRange then
      match fastPath s.candidate with
      | some r => s.finish (boolWord r)
      | none => listBoundTurn (sqrtStart s.candidate) s
    else s.raise .listRange 0#64
  | .decode =>
    if !s.destInRange then s.completeDecode .bufferOverflow 0
    else if !s.streamPresent then s.completeDecode .openFailure 0
    else s.openCursor
  | .badCommand => s.raise .badCommand 0#64

/-- A later step of a pending command: one iteration of the loop its variables are in. -/
def engineAdvance (w : Work) (s : State) : Host.Outcome State Fault Refusal :=
  match w with
  | .sqrt v => .next (sqrtTurn (bisectNext s.candidate v) s)
  | .primeBound v => .next (primeBoundTurn (bisectNext s.candidate v) s)
  | .listBound v => .next (listBoundTurn (bisectNext s.candidate v) s)
  | .divide v => .next (divideTurn (divideNext s.candidate v) s)
  | .walk v => .next (walkTurn v.b (walkNext s.candidate s.listCount s.listEntry v) s)
  | .cursor c => decodeTurn c s

/-- One engine step. An idle block does nothing (60_exceptions.md R194), nor does one held in reset
(70_reset_and_hazards.md R210). -/
def engineTurn (s : State) : Host.Outcome State Fault Refusal :=
  if s.rst then .next s
  else
    match s.pend, s.work with
    | none, _ => .next s
    | some op, none => .next (engineStart op s)
    | some _, some w => engineAdvance w s

/-- The engine evaluates the pending command whole: "A model may therefore perform the whole evaluation … in the single
engine step that completes the command" (40_command_lifecycle.md R105). Working variables that earlier steps left are
not read: the operands cannot have changed since acceptance (R103). Log 2. -/
def completeTurn (s : State) : Host.Outcome State Fault Refusal :=
  if s.rst then .next s
  else
    match s.pend with
    | none => .next s
    | some op => exec op.instr s

end Sys2Proof.Machine
end

