-- ==== Sys2Proof/Machine/Step.lean ====
section
/-! DEFINITION. One step of the machine: the next turn of the inbox, or, when none is scheduled, the engine's. -/

namespace Sys2Proof.Machine

/-- The step that a turn is (10_state.md R20). -/
def takeTurn (t : Turn) (s : State) : Host.Outcome State Fault Refusal :=
  match t with
  | .host a => busAccess a s
  | .engine => engineTurn s
  | .complete => completeTurn s
  | .reset level => .next (s.setRst level)
  | .stream present b => .next (s.setStream present b)

/-- The first scheduled turn is taken. When none is left the engine completes the pending command: a pending command
cannot stay pending forever (40_command_lifecycle.md R109). Log 1. -/
def step (s : State) : Host.Outcome State Fault Refusal :=
  match s.inbox with
  | [] => completeTurn s
  | t :: ts => takeTurn t (s.withInbox ts)

/-- A word of the opcode table placed where the next step runs it. A command word: it was written to `CMD` of the idle
block and accepted, and no turn is scheduled, so the engine runs it. A 16-bit word: the stream holds its two bytes, a
DECODE that wants one value for `SEQ[0]` is reading them in DELTA mode, and the engine's turn is next. Log 11. -/
def State.withFetchWord (s : State) (nbits w : Nat) : State :=
  match tableSource nbits with
  | .delta =>
    { s.accept .decode with
      rst := false
      inbox := [.engine]
      arg1 := 0#64
      arg2 := 1#64
      streamPresent := true
      stream := { bytes := leBytes 2 w, length_lt := by simp [leBytes] }
      work := some (.cursor { p := 0, last := 0#64, cnt := 0, mode := .delta }) }
  | .command | .anchor =>
    { s.accept (commandOpcode (BitVec.ofNat 64 w)) with rst := false, inbox := [] }

end Sys2Proof.Machine
end

