-- ==== Sys2Proof/Safety.lean ====
section
/-! DEFINITION. The terms of the claims: the invariant of the block, what a safe step is, runs of engine turns, and the
spec's contracts written apart from the machine (the ceiling square root, the list's entries, the NCC stream by values
and by segments). -/

namespace Sys2Proof.Machine

/-- "the least `r >= 0` with `r*r >= n`" (41_isqrt_bound.md R121). -/
def IsCeilSqrt (n r : Nat) : Prop := n ≤ r * r ∧ ∀ q, n ≤ q * q → r ≤ q

/-- The loop invariant of the bisection (41_isqrt_bound.md R121), its range (R39), and the midpoint in `c`. -/
def Bisect.Inv (n : Nat) (v : Bisect) : Prop :=
  v.lo * v.lo < n ∧ n ≤ v.hi * v.hi ∧ v.hi ≤ 2 ^ 32 ∧ v.lo + 1 < v.hi ∧ v.c = midpoint v.lo v.hi

/-- The candidates that the fast path leaves over: odd and at least 5 (42_trial_division.md R134). -/
def Slow (n : Nat) : Prop := 5 ≤ n ∧ n % 2 = 1

/-- The working variables fit the pending command and stay in their ranges (10_state.md R37 to R40,
42_trial_division.md R143, 43_gap_decoder.md R153). -/
def Work.Inv (s : State) : Work → Prop
  | .sqrt v => s.pend = some .sqrt ∧ 2 < s.candidate ∧ v.Inv s.candidate
  | .primeBound v => s.pend = some .isPrime ∧ Slow s.candidate ∧ v.Inv s.candidate
  | .listBound v =>
    s.pend = some .isPrimeList ∧ s.listInRange = true ∧ Slow s.candidate ∧ v.Inv s.candidate
  | .divide v =>
    (s.pend = some .isPrime ∨ s.pend = some .isPrimeList ∧ s.listInRange = true) ∧ Slow s.candidate ∧
      IsCeilSqrt s.candidate v.b ∧ 3 ≤ v.d ∧ v.d % 2 = 1 ∧ v.d ≤ v.b + 2
  | .walk v =>
    s.pend = some .isPrimeList ∧ s.listInRange = true ∧ Slow s.candidate ∧
      IsCeilSqrt s.candidate v.b ∧ v.i ≤ s.listCount ∧ 2 ≤ v.prev ∧ v.prev ≤ v.b
  | .cursor c =>
    s.pend = some .decode ∧ s.destInRange = true ∧ c.cnt ≤ s.length ∧ c.p < 2 ^ 64 ∧
      (c.mode = .delta → 1 ≤ c.cnt) ∧ (s.streamPresent = true ∨ s.streamMoved = true)

/-- The invariant of the block. -/
structure State.Inv (s : State) : Prop where
  /-- `SEQ` is in its canonical form. -/
  seq_wf : Memory.wf s.seq
  /-- `SEQ` has the entries `0 .. SEQ_CAP − 1` (10_state.md R35). -/
  seq_bound : ∀ e ∈ s.seq, e.1 < s.capacity
  /-- "`PEND ≠ none` exactly when `STATUS.BUSY = 1`" (10_state.md R37). -/
  busy_iff_pend : s.status.busy = s.pend.isSome
  /-- "`BUSY` and `DONE` are never both 1" (10_state.md R27). -/
  not_busy_done : ¬(s.status.busy = true ∧ s.status.done = true)
  /-- "The block never writes the values `0x8` to `0xF`" (10_state.md R31), unless the stream moved (20_memory.md R66). -/
  err_code : s.streamMoved = false → s.status.err.toNat < 8
  /-- Acceptance sets `ERR` to `OK`, and the next completion alone writes it (10_state.md R31). -/
  busy_err : s.status.busy = true → s.status.err = ErrorCode.ok.code
  /-- "`BUSY = 0` and `DONE = 0` together mean that no command has run since reset" (10_state.md R27). -/
  fresh : s.status.busy = false → s.status.done = false →
    s.status.rej = false ∧ s.status.err = ErrorCode.ok.code ∧ s.result = 0#64
  /-- The working variables fit what is pending. -/
  work_inv : ∀ w, s.work = some w → w.Inv s
  /-- Only a DECODE watches the stream (20_memory.md R66). -/
  moved : s.streamMoved = true → s.pend = none ∨ s.pend = some .decode
  /-- "While `rst` is asserted … the state takes the values" (70_reset_and_hazards.md R210). -/
  in_reset : s.rst = true →
    s.arg0 = 0#64 ∧ s.arg1 = 0#64 ∧ s.arg2 = 0#64 ∧ s.status = Status.cleared ∧ s.result = 0#64 ∧ s.pend = none

/-- A safe step: the machine goes on. -/
def State.StepsSafely (s : State) : Prop := ∃ t, step s = .next t

/-- The next turn is a host access that the block does not admit (20_memory.md R53): the one thing that is refused. -/
def State.BadAccessNext (s : State) : Prop :=
  ∃ ts, (∃ size addr, s.inbox = .host (.read size addr) :: ts ∧ busAdmitted size addr = false) ∨
    (∃ size addr v, s.inbox = .host (.write size addr v) :: ts ∧ busAdmitted size addr = false)

/-- `k` engine turns, one after the other. -/
def engineRun : Nat → State → Host.Outcome State Fault Refusal
  | 0, s => .next s
  | k + 1, s =>
    match engineTurn s with
    | .next t => engineRun k t
    | .fault r => .fault r
    | .refused r => .refused r

/-- How many engine turns a command needs at most: its first step, and the loops of 40_command_lifecycle.md R109: 32
bisection steps; at most `2^31 − 1` divisions and the test that ends them; the list's entries and the test that ends
them; `2 * LENGTH` records and the test that ends them. -/
def engineBound (op : Opcode) (s : State) : Nat :=
  match op with
  | .sqrt => 1 + 32
  | .isPrime => 1 + 32 + 2 ^ 31
  | .isPrimeList => 1 + 32 + (s.listCount + 1) + 2 ^ 31
  | .decode => 1 + 2 * s.length + 1
  | .badCommand => 1

/-- The previous candidate at entry `k` of a list walked so far without an end: 2 at the start, then the entry before
(42_trial_division.md R133, R135; a skipped leading 2 leaves it at 2). -/
def previous (L : Nat → Nat) (k : Nat) : Nat := if k = 0 then 2 else L (k - 1)

/-- Entry 0 is skipped when it is 2 (42_trial_division.md R135). -/
def Skipped (L : Nat → Nat) (k : Nat) : Prop := k = 0 ∧ L 0 = 2

/-- Entry `k` does not end the walk for the candidate `n` with the bound `b`: it is the skipped 2, or it is above the
previous candidate, not above the bound, and does not divide `n` (42_trial_division.md R133, R136, R137). -/
def Passed (n b : Nat) (L : Nat → Nat) (k : Nat) : Prop :=
  Skipped L k ∨ (previous L k < L k ∧ L k ≤ b ∧ ¬ L k ∣ n)

/-- The value of an anchor at the head of the bytes, and the bytes after it (43_gap_decoder.md R154, R157). -/
def anchorHead : List Byte → Except ErrorCode (Word × List Byte)
  | b0 :: b1 :: b2 :: b3 :: b4 :: b5 :: b6 :: b7 :: rest =>
    .ok (b7 ++ b6 ++ b5 ++ b4 ++ b3 ++ b2 ++ b1 ++ b0, rest)
  | _ => .error .shortReadAnchor

/-- The next value of a stream, a sentinel before it passed over (43_gap_decoder.md R154 to R158). -/
def nextValue (last : Word) : Mode → List Byte → Except ErrorCode (Word × List Byte)
  | .anchor, bytes => anchorHead bytes
  | .delta, b0 :: b1 :: rest =>
    if b0 = 0#8 ∧ b1 = 0#8 then anchorHead rest else .ok (last + (b1 ++ b0).setWidth 64, rest)
  | .delta, _ => .error .shortReadDelta

/-- The first `k` values of a stream, or those before the first short read and that error: the decode by values, not by
records (43_gap_decoder.md R153, R164, R165). -/
def nccValues : Nat → Mode → Word → List Byte → List Word × ErrorCode
  | 0, _, _, _ => ([], .ok)
  | k + 1, mode, last, bytes =>
    match nextValue last mode bytes with
    | .error e => ([], e)
    | .ok (v, rest) => (v :: (nccValues k .delta v rest).1, (nccValues k .delta v rest).2)

/-- The values `vs` stand in `SEQ` from entry `i` on, in order. -/
def Memory.writeAll : Memory → Nat → List Word → Memory
  | m, _, [] => m
  | m, i, v :: vs => Memory.writeAll (m.write i v) (i + 1) vs

/-- The same as an update of the state. -/
def State.seqWriteAll (i : Nat) (vs : List Word) (s : State) : State := { s with seq := s.seq.writeAll i vs }

/-- A segment of an NCC stream: an anchor and the deltas after it (30_encoding.md R86). -/
structure Segment where
  anchor : Word
  deltas : List (BitVec 16)
  deriving DecidableEq, Repr

/-- `anchor:8 (delta:2)*` (30_encoding.md R86). -/
def Segment.bytes (g : Segment) : List Byte :=
  encode (.nccAnchor g.anchor) ++ g.deltas.flatMap (fun d => encode (.nccDelta d))

/-- The running values of the deltas after `last`, modulo `2^64` (43_gap_decoder.md R155, R161). -/
def deltaValues : Word → List (BitVec 16) → List Word
  | _, [] => []
  | last, d :: ds => (last + d.setWidth 64) :: deltaValues (last + d.setWidth 64) ds

/-- The values a segment stands for. -/
def Segment.values (g : Segment) : List Word := g.anchor :: deltaValues g.anchor g.deltas

/-- `[anchor:8]([delta:2])* ( [zero:2][anchor:8] ([delta:2])* )*` (30_encoding.md R86). -/
def nccStream : Segment → List Segment → List Byte
  | g, [] => g.bytes
  | g, h :: gs => g.bytes ++ encode .nccSentinel ++ nccStream h gs

end Sys2Proof.Machine
end

