-- ==== Sys2Proof/Certificates/Slice0/Obligations.lean ====
section
/-! DEFINITION. The statements about primes_core for the provers, family by family. -/

open Sys2Proof Sys2Proof.Machine

/-! Encodings (30_encoding.md). -/

/-- Words written out from the tables of R81, R87, R88 and R89 decode to what they stand for. -/
def Obligations.SampleWordsDecode : Prop :=
  Sys2Proof.decode .command [0x01#8, 0, 0, 0, 0, 0, 0, 0] = .ok (.sqrt, []) ∧
  Sys2Proof.decode .command [0x02#8, 0, 0, 0, 0, 0, 0, 0] = .ok (.isPrime, []) ∧
  Sys2Proof.decode .command [0x03#8, 0, 0, 0, 0, 0, 0, 0] = .ok (.isPrimeList, []) ∧
  Sys2Proof.decode .command [0x04#8, 0, 0, 0, 0, 0, 0, 0] = .ok (.decode, []) ∧
  Sys2Proof.decode .command [0x11#8, 0, 0, 0, 0, 0, 0, 0x80#8] = .ok (.badCommand 0x8000000000000011#64, []) ∧
  Sys2Proof.decode .anchor [0xA0#8, 0x86#8, 0x01#8, 0, 0, 0, 0, 0, 0x03#8] = .ok (.nccAnchor 100000#64, [0x03#8]) ∧
  Sys2Proof.decode .delta [0x00#8, 0x00#8, 0x07#8] = .ok (.nccSentinel, [0x07#8]) ∧
  Sys2Proof.decode .delta [0x01#8, 0x02#8] = .ok (.nccDelta 0x0201#16, [])

/-- R81: the four legal command words; R82: a word with a reserved bit set is illegal whatever its `OP`. -/
def Obligations.LegalCommandWords : Prop :=
  decodeCmd 0x1#64 = .sqrt ∧ decodeCmd 0x2#64 = .isPrime ∧ decodeCmd 0x3#64 = .isPrimeList ∧
  decodeCmd 0x4#64 = .decode ∧
  (∀ w : Word, decodeCmd w = .badCommand w ↔ w ≠ 0x1#64 ∧ w ≠ 0x2#64 ∧ w ≠ 0x3#64 ∧ w ≠ 0x4#64) ∧
  (∀ w : Word, w.extractLsb' 4 60 ≠ 0#60 → decodeCmd w = .badCommand w)

/-- R83: DecodeCmd; an illegal word written while the block is idle is accepted as BAD_COMMAND and completes with that
error; one written while it is busy sets `REJ` and does nothing else. -/
def Obligations.IllegalCommandWord : Prop :=
  (decodeCmd 0x1#64 = .sqrt ∧ decodeCmd 0x2#64 = .isPrime ∧ decodeCmd 0x3#64 = .isPrimeList ∧
    decodeCmd 0x4#64 = .decode) ∧
  ∀ (w : Word) (s : State) (ts : List Turn),
    w ≠ 0x1#64 → w ≠ 0x2#64 → w ≠ 0x3#64 → w ≠ 0x4#64 → s.rst = false →
    decodeCmd w = .badCommand w ∧
    (s.status.busy = false → s.inbox = .host (.write .eight 0x000#32 w) :: .complete :: ts →
      ∃ t u, step s = .next t ∧ t.pend = some .badCommand ∧ t.status.busy = true ∧
        step t = .next u ∧ u.status = { busy := false, done := true, rej := false, err := 0x7#4 } ∧
        u.result = 0#64 ∧ u.pend = none ∧ u.inbox = ts ∧ u.seq = s.seq ∧
        u.arg0 = s.arg0 ∧ u.arg1 = s.arg1 ∧ u.arg2 = s.arg2) ∧
    (s.status.busy = true → s.inbox = .host (.write .eight 0x000#32 w) :: ts →
      step s = .next { s with inbox := ts, status := { s.status with rej := true } })

/-- Every well-formed instruction is read back from its encoding, whatever bytes follow it (R80, R81, R87 to R89). -/
def Obligations.EncodedInstructionsDecode : Prop :=
  ∀ (i : Instr) (rest : List Byte), i.wf = true → Sys2Proof.decode i.source (encode i ++ rest) = .ok (i, rest)

/-- Bytes have one reading in each mode: what is decoded is well formed, and its encoding is the bytes it was read from;
and only too few bytes are refused (R80, R83, R87 to R91). -/
def Obligations.DecodedBytesAreTheEncoding : Prop :=
  (∀ (src : Source) (bytes rest : List Byte) (i : Instr), Sys2Proof.decode src bytes = .ok (i, rest) →
    i.wf = true ∧ i.source = src ∧ bytes = encode i ++ rest) ∧
  (∀ (src : Source) (bytes : List Byte) (e : DecodeError), Sys2Proof.decode src bytes = .error e ↔
    bytes.length < src.size ∧ e = src.tooShort)

/-! The host bus (20_memory.md, 10_state.md). -/

/-- R55, MemRead: what a host read returns at each offset, in every state, busy or not; a `SEQ` entry that a running
DECODE may be writing has a statement of its own. -/
def Obligations.HostReads : Prop :=
  ∀ (s : State) (ts : List Turn), s.rst = false →
    let rd := fun addr => step (s.withInbox (.host (.read .eight addr) :: ts))
    let gives := fun v => Host.Outcome.next { s with inbox := ts, reads := v :: s.reads }
    rd 0x000#32 = gives 0#64 ∧ rd 0x008#32 = gives s.status.word ∧ rd 0x010#32 = gives s.arg0 ∧
    rd 0x018#32 = gives s.arg1 ∧ rd 0x020#32 = gives s.arg2 ∧ rd 0x028#32 = gives s.result ∧
    rd 0x030#32 = gives (BitVec.ofNat 64 s.cap.entries) ∧
    (∀ i, i < s.cap.entries →
      ¬(s.pend = some .decode ∧ s.arg1.toNat ≤ i ∧ i < s.arg1.toNat + s.arg2.toNat) →
      rd (BitVec.ofNat 32 (0x1000 + 8 * i)) = gives (s.seqRead i))

/-- R33: `CAPACITY` reads `SEQ_CAP`, right after reset and at all times (but that any read returns any value while `rst`
is asserted, R210), host writes to it are ignored, and no step changes it. -/
def Obligations.CapacityIsConstant : Prop :=
  (∀ (s : State) (ts : List Turn), s.rst = false →
    step (s.withInbox (.host (.read .eight 0x030#32) :: ts)) =
      .next { s with inbox := ts, reads := BitVec.ofNat 64 s.cap.entries :: s.reads }) ∧
  (∀ (s : State) (ts : List Turn) (v : Word),
    step (s.withInbox (.host (.write .eight 0x030#32 v) :: ts)) = .next { s with inbox := ts }) ∧
  (∀ s t : State, step s = .next t → t.cap = s.cap)

/-- The layout of `STATUS` (R27, R34): `BUSY` bit 0, `DONE` bit 1, `REJ` bit 2, `ERR` bits 7:4, and every other bit 0. -/
def Obligations.StatusLayout : Prop :=
  ∀ st : Status, st.word.getLsbD 0 = st.busy ∧ st.word.getLsbD 1 = st.done ∧ st.word.getLsbD 2 = st.rej ∧
    st.word.getLsbD 3 = false ∧ st.word.extractLsb' 4 4 = st.err ∧ st.word.extractLsb' 8 56 = 0#56

/-- R55, MemWrite, while the block is idle: the argument registers and the `SEQ` window take the value; `STATUS` and
`RESULT` ignore it. Everything else is unchanged. -/
def Obligations.IdleHostWrites : Prop :=
  ∀ (s : State) (ts : List Turn) (v : Word), s.rst = false → s.status.busy = false →
    let wr := fun addr => step (s.withInbox (.host (.write .eight addr v) :: ts))
    wr 0x010#32 = .next { s with inbox := ts, arg0 := v } ∧
    wr 0x018#32 = .next { s with inbox := ts, arg1 := v } ∧
    wr 0x020#32 = .next { s with inbox := ts, arg2 := v } ∧
    wr 0x008#32 = .next { s with inbox := ts } ∧ wr 0x028#32 = .next { s with inbox := ts } ∧
    (∀ i, i < s.cap.entries → ∃ m,
      wr (BitVec.ofNat 32 (0x1000 + 8 * i)) = .next { s with inbox := ts, seq := m } ∧
      m.find i = some v ∧ ∀ j, j ≠ i → m.find j = s.seq.find j)

/-- R104: while `BUSY`, a host write anywhere but to `CMD` leaves everything as it was; so does, at all times, one to a
read-only or reserved offset. -/
def Obligations.BusyHostWritesIgnored : Prop :=
  ∀ (s : State) (ts : List Turn) (addr : BitVec 32) (v : Word), addr.toNat % 8 = 0 → addr ≠ 0x000#32 →
    (s.status.busy = true →
      step (s.withInbox (.host (.write .eight addr v) :: ts)) = .next { s with inbox := ts }) ∧
    (addr ≠ 0x010#32 → addr ≠ 0x018#32 → addr ≠ 0x020#32 →
      ¬(0x1000 ≤ addr.toNat ∧ addr.toNat < 0x1000 + 8 * s.cap.entries) →
      step (s.withInbox (.host (.write .eight addr v) :: ts)) = .next { s with inbox := ts })

/-- R56: a read of an unmapped offset returns 0, a write to one is ignored, and so is a write to a read-only register. -/
def Obligations.UnmappedOffsets : Prop :=
  ∀ (s : State) (ts : List Turn) (addr : BitVec 32) (v : Word), s.rst = false → addr.toNat % 8 = 0 →
    ((0x038 ≤ addr.toNat ∧ addr.toNat < 0x1000) ∨ 0x1000 + 8 * s.cap.entries ≤ addr.toNat →
      step (s.withInbox (.host (.read .eight addr) :: ts)) =
        .next { s with inbox := ts, reads := 0#64 :: s.reads } ∧
      step (s.withInbox (.host (.write .eight addr v) :: ts)) = .next { s with inbox := ts }) ∧
    (addr = 0x008#32 ∨ addr = 0x028#32 ∨ addr = 0x030#32 →
      step (s.withInbox (.host (.write .eight addr v) :: ts)) = .next { s with inbox := ts })

/-- R57: an admitted host read changes nothing but what the host has read (and the model's counter of free values). -/
def Obligations.ReadsHaveNoSideEffect : Prop :=
  ∀ (s : State) (ts : List Turn) (addr : BitVec 32), addr.toNat % 8 = 0 →
    ∃ v k, step (s.withInbox (.host (.read .eight addr) :: ts)) =
      .next { s with inbox := ts, reads := v :: s.reads, tick := k }

/-- R53: an access narrower than 8 bytes, or at an offset that 8 does not divide, is refused. -/
def Obligations.InadmissibleAccessRefused : Prop :=
  ∀ (s : State) (ts : List Turn) (size : AccessSize) (addr : BitVec 32) (v : Word),
    size ≠ .eight ∨ addr.toNat % 8 ≠ 0 →
    step (s.withInbox (.host (.read size addr) :: ts)) = .refused .hostAccess ∧
    step (s.withInbox (.host (.write size addr v) :: ts)) = .refused .hostAccess

/-- R63: what the idle host writes into entry `i` through the window it reads back there, and no other entry changes. -/
def Obligations.SeqWindowReadsBack : Prop :=
  ∀ (s : State) (ts : List Turn) (i : Nat) (v : Word),
    s.rst = false → s.status.busy = false → s.pend = none → i < s.cap.entries →
    s.inbox = .host (.write .eight (BitVec.ofNat 32 (0x1000 + 8 * i)) v) ::
      .host (.read .eight (BitVec.ofNat 32 (0x1000 + 8 * i))) :: ts →
    ∃ t u, step s = .next t ∧ step t = .next u ∧ u.reads = v :: s.reads ∧ u.inbox = ts ∧
      u.seqRead i = v ∧ ∀ j, j ≠ i → u.seqRead j = s.seqRead j

/-- R69: while a DECODE runs, a read of an entry of its destination range returns any value, a fresh one each time, and a
read of any other entry its current value. -/
def Obligations.ReadsDuringDecode : Prop :=
  ∀ (s : State) (ts : List Turn) (i : Nat), s.rst = false → s.pend = some .decode → i < s.cap.entries →
    step (s.withInbox (.host (.read .eight (BitVec.ofNat 32 (0x1000 + 8 * i))) :: ts)) =
      if s.arg1.toNat ≤ i ∧ i < s.arg1.toNat + s.arg2.toNat then
        .next { s with inbox := ts, reads := Config.freeWord s.tick :: s.reads, tick := s.tick + 1 }
      else .next { s with inbox := ts, reads := s.seqRead i :: s.reads }

/-! The command lifecycle (40_command_lifecycle.md). -/

/-- R103: a `CMD` write while idle is accepted: `PEND` is its opcode, `BUSY` is set, `DONE`, `REJ` and `ERR` are cleared,
and `RESULT`, `ARG0..2` and `SEQ` are unchanged; while the command is pending nothing but a reset changes its operands.
Two clauses are the model's choice, not the rule's: `work := none`, since the model creates the working variables in the
engine's first step and not yet in the acceptance (log 22), and `streamMoved := false`, since it watches the stream from
here on (log 12). -/
def Obligations.CommandAccepted : Prop :=
  (∀ (s : State) (ts : List Turn) (w : Word) (op : Opcode),
    s.rst = false → s.status.busy = false → (decodeCmd w).opcode? = some op →
    step (s.withInbox (.host (.write .eight 0x000#32 w) :: ts)) =
      .next { s with
        inbox := ts
        pend := some op
        status := { busy := true, done := false, rej := false, err := 0x0#4 }
        work := none
        streamMoved := false }) ∧
  (∀ s t : State, s.status.busy = true → step s = .next t → (¬ ∃ level ts, s.inbox = .reset level :: ts) →
    t.arg0 = s.arg0 ∧ t.arg1 = s.arg1 ∧ t.arg2 = s.arg2)

/-- R102: a `CMD` write while busy sets `REJ` and does nothing else. -/
def Obligations.CommandRejected : Prop :=
  ∀ (s : State) (ts : List Turn) (w : Word), s.rst = false → s.status.busy = true →
    step (s.withInbox (.host (.write .eight 0x000#32 w) :: ts)) =
      .next { s with inbox := ts, status := { s.status with rej := true } }

/-- R106: what a completion writes, with the numbers of the error codes (R181); and whatever step ends a pending command
without a reset is such a completion, with one of those eight codes unless the stream moved (R31, R66). -/
def Obligations.CompletionWrites : Prop :=
  (∀ s t : State, step s = .next t → s.pend ≠ none → t.pend = none →
    (¬ ∃ level ts, s.inbox = .reset level :: ts) →
    ∃ (c : BitVec 4) (k : Nat), t =
        { s with
          inbox := t.inbox
          seq := t.seq
          result := t.result
          status := { busy := false, done := true, rej := s.status.rej, err := c }
          pend := none
          work := none
          tick := k } ∧
      (s.streamMoved = false → k = s.tick ∧ ∃ e : ErrorCode, c = e.code)) ∧
  (∀ (e : ErrorCode) (v : Word) (s : State),
    s.complete e v =
      { s with
        result := v
        status := { busy := false, done := true, rej := s.status.rej, err := e.code }
        pend := none
        work := none }) ∧
  ErrorCode.ok.code = 0#4 ∧ ErrorCode.openFailure.code = 1#4 ∧ ErrorCode.shortReadAnchor.code = 2#4 ∧
  ErrorCode.shortReadDelta.code = 3#4 ∧ ErrorCode.bufferOverflow.code = 4#4 ∧ ErrorCode.listInvalid.code = 5#4 ∧
  ErrorCode.listRange.code = 6#4 ∧ ErrorCode.badCommand.code = 7#4

/-- R110: BAD_COMMAND completes with its error and `RESULT` 0 and touches nothing else; `STATUS` then reads `0x72` when
no write was rejected. -/
def Obligations.BadCommandCompletes : Prop :=
  (∀ w : Word, w ≠ 0x1#64 → w ≠ 0x2#64 → w ≠ 0x3#64 → w ≠ 0x4#64 → decodeCmd w = .badCommand w) ∧
  ∀ (w : Word) (s : State),
    exec (.badCommand w) s = .next (s.complete .badCommand 0#64) ∧
    (s.status.rej = false → (s.complete .badCommand 0#64).status.word = 0x72#64)

/-! isqrt_bound (41_isqrt_bound.md). -/

/-- R125: SQRT completes with `OK` and SqrtBound of `ARG0`, which is the ceiling square root. -/
def Obligations.SqrtCompletes : Prop :=
  decodeCmd 0x1#64 = .sqrt ∧
  ∀ s : State, exec .sqrt s = .next (s.complete .ok (BitVec.ofNat 64 (sqrtBound s.arg0.toNat))) ∧
    IsCeilSqrt s.arg0.toNat (sqrtBound s.arg0.toNat)

/-- R121: SqrtBound is the least root, and the loop keeps `lo*lo < n <= hi*hi` from its start until it ends with that
root. -/
def Obligations.SqrtBoundIsLeastRoot : Prop :=
  ∀ n, n < 2 ^ 64 →
    IsCeilSqrt n (sqrtBound n) ∧
    (∀ v, sqrtStart n = .more v → v.lo * v.lo < n ∧ n ≤ v.hi * v.hi ∧ v.Inv n) ∧
    (∀ v v', v.Inv n → bisectNext n v = .more v' → v'.lo * v'.lo < n ∧ n ≤ v'.hi * v'.hi ∧ v'.Inv n) ∧
    (∀ v r, v.Inv n → bisectNext n v = .done r → IsCeilSqrt n r)

/-- R122: the range of SqrtBound, and which candidates give `2^32`. -/
def Obligations.SqrtBoundRange : Prop :=
  ∀ n, n < 2 ^ 64 →
    sqrtBound n ≤ 2 ^ 32 ∧ (sqrtBound n = 2 ^ 32 ↔ 0xFFFFFFFE00000001 < n) ∧
    (BitVec.ofNat 64 (sqrtBound n)).toNat = sqrtBound n

/-- R123: no midpoint and no square of one overflows 64 bits, in the engine's bisection at any moment. -/
def Obligations.MidpointsDoNotOverflow : Prop :=
  ∀ (s : State) (v : Bisect), s.Inv →
    s.work = some (.sqrt v) ∨ s.work = some (.primeBound v) ∨ s.work = some (.listBound v) →
    v.c ≤ 2 ^ 32 - 1 ∧ v.c * v.c ≤ 2 ^ 64 - 2 ^ 33 + 1 ∧ v.lo ≤ 2 ^ 32 ∧ v.hi ≤ 2 ^ 32

/-- R126: the corner cases of SQRT. -/
def Obligations.SqrtCornerCases : Prop :=
  sqrtBound 0 = 0 ∧ sqrtBound 1 = 1 ∧ sqrtBound 2 = 2 ∧ sqrtBound 3 = 2 ∧ sqrtBound 4 = 2 ∧ sqrtBound 5 = 3 ∧
  sqrtBound (2 ^ 32) = 2 ^ 16 ∧ sqrtBound ((2 ^ 32 - 1) ^ 2) = 2 ^ 32 - 1 ∧
  sqrtBound ((2 ^ 32 - 1) ^ 2 + 1) = 2 ^ 32 ∧ sqrtBound (2 ^ 64 - 1) = 2 ^ 32 ∧
  (∀ n, n < 2 ^ 64 → sqrtBound n ≤ n) ∧ (∀ n, 3 ≤ n → n < 2 ^ 64 → sqrtBound n < n)

/-! trial_division_tester (42_trial_division.md). -/

/-- R131, R132: ISPRIME completes with `OK` and 1 exactly when `ARG0` is prime, else with `OK` and 0. -/
def Obligations.IsPrimeDecidesPrimality : Prop :=
  decodeCmd 0x2#64 = .isPrime ∧
  ∀ s : State,
    (s.arg0.toNat.Prime → exec .isPrime s = .next (s.complete .ok 1#64)) ∧
    (¬ s.arg0.toNat.Prime → exec .isPrime s = .next (s.complete .ok 0#64))

/-- R140: the range check of ISPRIME_LIST, then the test of R133, whose answer is 1 or 0 with `OK`, or LIST_INVALID
with 0. -/
def Obligations.IsPrimeListCompletes : Prop :=
  decodeCmd 0x3#64 = .isPrimeList ∧
  ∀ s : State,
    (s.cap.entries < s.arg1.toNat + s.arg2.toNat →
      exec .isPrimeList s = .next (s.complete .listRange 0#64)) ∧
    (s.arg1.toNat + s.arg2.toNat ≤ s.cap.entries →
      let answer := isPrimeList s.arg0.toNat s.arg2.toNat (fun i => (s.seqRead (s.arg1.toNat + i)).toNat)
      (answer = (.ok, true) ∧ exec .isPrimeList s = .next (s.complete .ok 1#64)) ∨
      (answer = (.ok, false) ∧ exec .isPrimeList s = .next (s.complete .ok 0#64)) ∨
      (answer = (.listInvalid, false) ∧ exec .isPrimeList s = .next (s.complete .listInvalid 0#64)))

/-- R134: for `n < 2`, 2, 3 and even `n` ISPRIME_LIST does what ISPRIME does, whatever the list holds. -/
def Obligations.ListFastPathReadsNoEntry : Prop :=
  ∀ s : State, s.arg1.toNat + s.arg2.toNat ≤ s.cap.entries →
    (s.arg0.toNat < 2 → exec .isPrimeList s = .next (s.complete .ok 0#64)) ∧
    (s.arg0.toNat = 2 ∨ s.arg0.toNat = 3 → exec .isPrimeList s = .next (s.complete .ok 1#64)) ∧
    (2 < s.arg0.toNat → s.arg0.toNat % 2 = 0 → exec .isPrimeList s = .next (s.complete .ok 0#64)) ∧
    (¬(5 ≤ s.arg0.toNat ∧ s.arg0.toNat % 2 = 1) → exec .isPrimeList s = exec .isPrime s)

/-- R133, R135 to R137, R139: the first entry of the list that is not passed ends the command, whatever stands after it:
with LIST_INVALID when it is not above the previous candidate, with 1 when it is above the bound, with 0 when it
divides. -/
def Obligations.FirstEntryNotPassedEndsWalk : Prop :=
  ∀ (s : State) (b k : Nat),
    let n := s.arg0.toNat
    let L := fun i => (s.seqRead (s.arg1.toNat + i)).toNat
    s.arg1.toNat + s.arg2.toNat ≤ s.cap.entries → 5 ≤ n → n % 2 = 1 → IsCeilSqrt n b →
    k < s.arg2.toNat → (∀ i < k, Passed n b L i) → ¬ Skipped L k →
    (L k ≤ previous L k → exec .isPrimeList s = .next (s.complete .listInvalid 0#64)) ∧
    (previous L k < L k → b < L k → exec .isPrimeList s = .next (s.complete .ok 1#64)) ∧
    (previous L k < L k → L k ≤ b → L k ∣ n → exec .isPrimeList s = .next (s.complete .ok 0#64))

/-- R138: a list whose every entry is passed is continued by the odd numbers after the last examined candidate, up to the
bound. -/
def Obligations.ExhaustedListContinues : Prop :=
  ∀ (s : State) (b : Nat),
    let n := s.arg0.toNat
    let L := fun i => (s.seqRead (s.arg1.toNat + i)).toNat
    let prev := previous L s.arg2.toNat
    s.arg1.toNat + s.arg2.toNat ≤ s.cap.entries → 5 ≤ n → n % 2 = 1 → IsCeilSqrt n b →
    (∀ i < s.arg2.toNat, Passed n b L i) →
    ((∃ q, q % 2 = 1 ∧ prev < q ∧ q ≤ b ∧ q ∣ n) → exec .isPrimeList s = .next (s.complete .ok 0#64)) ∧
    ((¬ ∃ q, q % 2 = 1 ∧ prev < q ∧ q ≤ b ∧ q ∣ n) → exec .isPrimeList s = .next (s.complete .ok 1#64))

/-- R141: with a list that holds the first primes in order, as many as it holds, ISPRIME_LIST does exactly what ISPRIME
does. -/
def Obligations.PrimePrefixListAgrees : Prop :=
  ∀ s : State, s.arg1.toNat + s.arg2.toNat ≤ s.cap.entries →
    (∀ i < s.arg2.toNat, (s.seqRead (s.arg1.toNat + i)).toNat = Nat.nth Nat.Prime i) →
    exec .isPrimeList s = exec .isPrime s ∧
    ∃ r : Word, exec .isPrimeList s = .next (s.complete .ok r)

/-- R142: whatever the list, ISPRIME_LIST never answers 0 with `OK` for a prime. -/
def Obligations.ListNeverDeniesPrime : Prop :=
  ∀ s : State, s.arg0.toNat.Prime →
    ∃ t, exec .isPrimeList s = .next t ∧ ¬(t.status.err = 0#4 ∧ t.result = 0#64)

/-- R143, for the engine's steps. A plain or continuation divisor `d` is tried only up to the bound, and is then at least
3 and at most `2^32`, with `d + 2` at most `2^32 + 2`; beyond the bound the test ends without a division. The entry `e`
of the list which the walk examines next is skipped when it is the leading 2; another one that is not above the previous
candidate (so every other one below 3) ends the walk with LIST_INVALID, and one above the bound ends it with 1, neither
after a division; the rest divide, and each is at least 3 and at most `2^32`. -/
def Obligations.DivisorsStayInRange : Prop :=
  ∀ (s : State) (ts : List Turn), s.Inv →
    let n := s.arg0.toNat
    let run := step (s.withInbox (.engine :: ts))
    (∀ v, s.work = some (.divide v) →
      (v.b < v.d → run = .next ((s.withInbox ts).complete .ok 1#64)) ∧
      (v.d ≤ v.b →
        3 ≤ v.d ∧ v.d ≤ 2 ^ 32 ∧ v.d + 2 ≤ 2 ^ 32 + 2 ∧
        (v.d ∣ n → run = .next ((s.withInbox ts).complete .ok 0#64)) ∧
        (¬ v.d ∣ n → run = .next { s with inbox := ts, work := some (.divide { b := v.b, d := v.d + 2 }) }))) ∧
    (∀ v, s.work = some (.walk v) → v.i < s.arg2.toNat →
      let e := (s.seqRead (s.arg1.toNat + v.i)).toNat
      2 ≤ v.prev ∧
      (v.i = 0 ∧ e = 2 →
        run = .next { s with inbox := ts, work := some (.walk { b := v.b, i := 1, prev := v.prev }) }) ∧
      (¬(v.i = 0 ∧ e = 2) → e < 3 ∨ e ≤ v.prev →
        run = .next ((s.withInbox ts).complete .listInvalid 0#64)) ∧
      (v.prev < e → v.b < e → run = .next ((s.withInbox ts).complete .ok 1#64)) ∧
      (v.prev < e → e ≤ v.b →
        3 ≤ e ∧ e ≤ 2 ^ 32 ∧
        (e ∣ n → run = .next ((s.withInbox ts).complete .ok 0#64)) ∧
        (¬ e ∣ n → run = .next { s with inbox := ts, work := some (.walk { b := v.b, i := v.i + 1, prev := e }) })))

/-! gap_decoder (43_gap_decoder.md). -/

/-- R151: the buffer check of DECODE comes first; nothing is read and nothing written. -/
def Obligations.DecodeBufferOverflow : Prop :=
  ∀ s : State, s.streamMoved = false → s.cap.entries < s.arg1.toNat + s.arg2.toNat →
    exec .decode s = .next (s.complete .bufferOverflow 0#64)

/-- R152: the open check comes next, even for `LENGTH = 0`; nothing is read and nothing written. -/
def Obligations.DecodeOpenFailure : Prop :=
  ∀ s : State, s.streamMoved = false → s.arg1.toNat + s.arg2.toNat ≤ s.cap.entries → s.streamPresent = false →
    exec .decode s = .next (s.complete .openFailure 0#64)

/-- R153, R154: a DECODE starts in ANCHOR mode at `START`; there the engine reads 8 bytes as the value `A`, which is
appended and becomes `last`, and DELTA mode follows. That the cursor is created by an engine step of its own is the
model's choice (log 22). -/
def Obligations.AnchorRecordAppends : Prop :=
  (∀ (s : State) (ts : List Turn), s.rst = false → s.pend = some .decode → s.work = none →
    s.arg1.toNat + s.arg2.toNat ≤ s.cap.entries → s.streamPresent = true →
    step (s.withInbox (.engine :: ts)) =
      .next { s with
        inbox := ts
        work := some (.cursor { p := s.arg0.toNat, last := 0#64, cnt := 0, mode := .anchor }) }) ∧
  (∀ (s : State) (c : Cursor) (a : Word),
    s.work = some (.cursor c) → c.mode = .anchor → c.cnt < s.arg2.toNat →
    s.arg1.toNat + s.arg2.toNat ≤ s.cap.entries →
    (∃ m, exec (.nccAnchor a) s =
        .next { s with
          seq := m
          work := some (.cursor { p := c.p + 8, last := a, cnt := c.cnt + 1, mode := .delta }) } ∧
      m.find (s.arg1.toNat + c.cnt) = some a ∧ ∀ j, j ≠ s.arg1.toNat + c.cnt → m.find j = s.seq.find j) ∧
    (∀ (ts : List Turn) (b0 b1 b2 b3 b4 b5 b6 b7 : Byte) (rest : List Byte),
      s.rst = false → s.pend = some .decode →
      s.stream.bytes.drop c.p = b0 :: b1 :: b2 :: b3 :: b4 :: b5 :: b6 :: b7 :: rest →
      a = b7 ++ b6 ++ b5 ++ b4 ++ b3 ++ b2 ++ b1 ++ b0 →
      step (s.withInbox (.engine :: ts)) = exec (.nccAnchor a) (s.withInbox ts)))

/-- R155: in DELTA mode two bytes of a value `D` other than 0 append `last + D`, modulo `2^64`, which becomes `last`; DELTA
mode stays. -/
def Obligations.DeltaRecordAppends : Prop :=
  ∀ (s : State) (c : Cursor) (d : BitVec 16),
    s.work = some (.cursor c) → c.mode = .delta → c.cnt < s.arg2.toNat →
    s.arg1.toNat + s.arg2.toNat ≤ s.cap.entries →
    (∃ m v, exec (.nccDelta d) s =
        .next { s with
          seq := m
          work := some (.cursor { p := c.p + 2, last := v, cnt := c.cnt + 1, mode := .delta }) } ∧
      v.toNat = (c.last.toNat + d.toNat) % 2 ^ 64 ∧
      m.find (s.arg1.toNat + c.cnt) = some v ∧ ∀ j, j ≠ s.arg1.toNat + c.cnt → m.find j = s.seq.find j) ∧
    (∀ (ts : List Turn) (b0 b1 : Byte) (rest : List Byte),
      s.rst = false → s.pend = some .decode → s.stream.bytes.drop c.p = b0 :: b1 :: rest →
      d = b1 ++ b0 → d ≠ 0#16 →
      step (s.withInbox (.engine :: ts)) = exec (.nccDelta d) (s.withInbox ts))

/-- R156: in DELTA mode two zero bytes append nothing, `last` and `cnt` stay, and an anchor is read next. -/
def Obligations.SentinelResynchronises : Prop :=
  ∀ (s : State) (c : Cursor),
    s.work = some (.cursor c) → c.mode = .delta → c.cnt < s.arg2.toNat →
    s.arg1.toNat + s.arg2.toNat ≤ s.cap.entries →
    exec .nccSentinel s =
      .next { s with work := some (.cursor { p := c.p + 2, last := c.last, cnt := c.cnt, mode := .anchor }) } ∧
    (∀ (ts : List Turn) (rest : List Byte),
      s.rst = false → s.pend = some .decode → s.stream.bytes.drop c.p = 0#8 :: 0#8 :: rest →
      step (s.withInbox (.engine :: ts)) = exec .nccSentinel (s.withInbox ts))

/-- The model's choice (log 8): a record is refused where no DECODE is running, where its cursor reads another kind of
record, where the count has reached `LENGTH` and nothing is read any more (R159), and where the destination range is out
of `SEQ`, so that DECODE has ended before reading anything (R151). -/
def Obligations.RecordOutsideDecodeRefused : Prop :=
  ∀ s : State,
    let idleIn := fun m : Mode => ∀ c, s.work = some (.cursor c) →
      c.mode ≠ m ∨ s.arg2.toNat ≤ c.cnt ∨ s.cap.entries < s.arg1.toNat + s.arg2.toNat
    (idleIn .anchor → ∀ a, exec (.nccAnchor a) s = .refused .recordOutsideDecode) ∧
    (idleIn .delta →
      exec .nccSentinel s = .refused .recordOutsideDecode ∧
      ∀ d, exec (.nccDelta d) s = .refused .recordOutsideDecode)

/-- R157: an anchor cut short ends DECODE; the values emitted before it stay, and `RESULT` is their number. -/
def Obligations.ShortAnchorRead : Prop :=
  ∀ (s : State) (ts : List Turn) (c : Cursor),
    s.rst = false → s.pend = some .decode → s.streamMoved = false → s.inbox = .engine :: ts →
    s.work = some (.cursor c) → c.mode = .anchor → c.cnt < s.arg2.toNat → s.stream.bytes.length < c.p + 8 →
    step s = .next ((s.withInbox ts).complete .shortReadAnchor (BitVec.ofNat 64 c.cnt))

/-- R158: a delta-position record cut short ends DECODE; the values emitted before it stay, and `RESULT` is their
number. -/
def Obligations.ShortDeltaRead : Prop :=
  ∀ (s : State) (ts : List Turn) (c : Cursor),
    s.rst = false → s.pend = some .decode → s.streamMoved = false → s.inbox = .engine :: ts →
    s.work = some (.cursor c) → c.mode = .delta → c.cnt < s.arg2.toNat → s.stream.bytes.length < c.p + 2 →
    step s = .next ((s.withInbox ts).complete .shortReadDelta (BitVec.ofNat 64 c.cnt))

/-- R159: once the count is `LENGTH` the next step completes with `OK`, whatever stands in the stream; a DECODE of length 0
completes with `OK` and 0 once its checks pass; and every record but a sentinel counts one value. -/
def Obligations.DecodeStopsAtLength : Prop :=
  (∀ (s : State) (ts : List Turn) (c : Cursor),
    s.rst = false → s.pend = some .decode → s.streamMoved = false → s.inbox = .engine :: ts →
    s.work = some (.cursor c) → c.cnt = s.arg2.toNat →
    step s = .next ((s.withInbox ts).complete .ok s.arg2)) ∧
  (∀ s : State, s.streamMoved = false → s.arg2 = 0#64 → s.arg1.toNat ≤ s.cap.entries → s.streamPresent = true →
    exec .decode s = .next (s.complete .ok 0#64)) ∧
  (∀ (s t : State) (c : Cursor) (i : Instr), s.work = some (.cursor c) → i.opcode? = none → exec i s = .next t →
    ∃ c' : Cursor, t.work = some (.cursor c') ∧ c'.cnt = c.cnt + if i = .nccSentinel then 0 else 1)

/-- R153, R160, R161, R164 to R166: DECODE as a decode by values: it writes the values of the stream from `START` on,
up to `LENGTH` or the first short read, from entry `DEST_BASE` on, and completes with their number and that error. -/
def Obligations.DecodeMatchesValues : Prop :=
  decodeCmd 0x4#64 = .decode ∧
  ∀ s : State, s.streamMoved = false → s.arg1.toNat + s.arg2.toNat ≤ s.cap.entries → s.streamPresent = true →
    let out := nccValues s.arg2.toNat .anchor 0#64 (s.stream.bytes.drop s.arg0.toNat)
    exec .decode s =
      .next (({ s with seq := s.seq.writeAll s.arg1.toNat out.1 } : State).complete out.2
        (BitVec.ofNat 64 out.1.length))

/-- R160: in every state DECODE completes; it writes entries of its destination range only, of these only the first
`RESULT` when the stream held still, and no register but `STATUS` and `RESULT`. -/
def Obligations.DecodeFrame : Prop :=
  ∀ s : State, ∃ t, exec .decode s = .next t ∧
    t.arg0 = s.arg0 ∧ t.arg1 = s.arg1 ∧ t.arg2 = s.arg2 ∧ t.cap = s.cap ∧ t.pend = none ∧ t.work = none ∧
    t.status.busy = false ∧ t.status.done = true ∧ t.status.rej = s.status.rej ∧
    t.stream = s.stream ∧ t.streamPresent = s.streamPresent ∧ t.rst = s.rst ∧ t.inbox = s.inbox ∧
    t.reads = s.reads ∧ t.epoch = s.epoch ∧ t.streamMoved = s.streamMoved ∧
    (s.streamMoved = false → t.tick = s.tick) ∧
    (∀ j, ¬(s.arg1.toNat ≤ j ∧ j < s.arg1.toNat + s.arg2.toNat) → t.seqRead j = s.seqRead j) ∧
    (s.streamMoved = false →
      ∀ j, ¬(s.arg1.toNat ≤ j ∧ j < s.arg1.toNat + t.result.toNat) → t.seqRead j = s.seqRead j)

/-- R86, R165: a stream of segments, each an anchor and its deltas, a sentinel between them, decodes to the segments'
values: the first `LENGTH` of them stand in the destination range, in order, and `RESULT = LENGTH` with `OK`. -/
def Obligations.SegmentStreamDecodes : Prop :=
  ∀ (s : State) (g : Segment) (gs : List Segment) (rest : List Byte),
    s.streamMoved = false → s.streamPresent = true → s.arg1.toNat + s.arg2.toNat ≤ s.cap.entries →
    (∀ h ∈ g :: gs, ∀ d ∈ h.deltas, d ≠ 0#16) →
    s.stream.bytes.drop s.arg0.toNat = nccStream g gs ++ rest →
    s.arg2.toNat ≤ ((g :: gs).flatMap Segment.values).length →
    ∃ t, exec .decode s = .next t ∧ t.result = s.arg2 ∧ t.status.err = 0#4 ∧
      ∀ j (h : j < ((g :: gs).flatMap Segment.values).length), j < s.arg2.toNat →
        t.seqRead (s.arg1.toNat + j) = ((g :: gs).flatMap Segment.values)[j]

/-- R66 (log 12): the environment's change of the stream is noted exactly while a DECODE is pending, and changes nothing
else; a DECODE whose stream moved completes with any value in `RESULT`, in `ERR` and in every entry of its destination
range, and leaves every other entry. -/
def Obligations.MovedStreamGivesAnyValue : Prop :=
  (∀ (s : State) (ts : List Turn) (present : Bool) (b : Stream), s.inbox = .stream present b :: ts →
    ∃ moved, step s = .next { s with inbox := ts, streamPresent := present, stream := b, streamMoved := moved } ∧
      (moved = true ↔ s.streamMoved = true ∨
        s.pend = some .decode ∧ (present ≠ s.streamPresent ∨ b ≠ s.stream))) ∧
  (∀ s : State, s.streamMoved = true →
    let n := min s.arg2.toNat (s.cap.entries - s.arg1.toNat)
    ∃ t, exec .decode s = .next t ∧
      t.result = Config.freeWord (s.tick + n) ∧ t.status.err = Config.freeCode (s.tick + n) ∧
      (∀ j, j < n → t.seqRead (s.arg1.toNat + j) = Config.freeWord (s.tick + j)) ∧
      (∀ j, ¬(s.arg1.toNat ≤ j ∧ j < s.arg1.toNat + s.arg2.toNat) → t.seqRead j = s.seqRead j))

/-! The machine as a whole. -/

/-- The engine's turn that evaluates a pending command whole runs that command's meaning, as R105 permits. That a step
with no turn scheduled is such a turn is the model's choice (log 1), which the rules do not state. -/
def Obligations.StepRunsPendingCommand : Prop :=
  ∀ (s : State) (ts : List Turn) (op : Opcode) (w : Word),
    s.rst = false → s.pend = some op → (decodeCmd w).opcode? = some op →
    step (s.withInbox (.complete :: ts)) = exec (decodeCmd w) (s.withInbox ts) ∧
    step (s.withInbox []) = exec (decodeCmd w) (s.withInbox [])

/-- The engine's turn inside a DECODE that wants another value runs the record which the decoder reads at the cursor, in
the cursor's mode (R153). -/
def Obligations.StepRunsStreamRecord : Prop :=
  ∀ (s : State) (ts : List Turn) (c : Cursor) (i : Instr) (rest : List Byte) (op : Opcode),
    s.rst = false → s.pend = some op → s.work = some (.cursor c) → c.cnt < s.arg2.toNat →
    Sys2Proof.decode c.mode.source (s.stream.bytes.drop c.p) = .ok (i, rest) →
    step (s.withInbox (.engine :: ts)) = exec i (s.withInbox ts)

/-- R105, R109: the engine's single steps, from the first one after the acceptance on, reach the very state of the whole
evaluation, and within the number of steps that the loops' bounds give. -/
def Obligations.EngineStepsReachCompletion : Prop :=
  ∀ (s : State) (op : Opcode), s.rst = false → s.pend = some op → s.work = none →
    ∃ k, k ≤ engineBound op s ∧ engineRun k s = exec op.instr s

/-- A pending command is completed by the engine in the step in which nothing else is scheduled; `REJ`, the arguments and
every other register but `RESULT` and `STATUS` are as before (R106). R109 says only that a command completes after
finitely many engine steps: that it does in this very step is the model's choice (log 1). -/
def Obligations.PendingCommandCompletes : Prop :=
  ∀ (s : State) (op : Opcode), s.rst = false → s.pend = some op → s.inbox = [] →
    ∃ t, step s = .next t ∧ t.pend = none ∧ t.work = none ∧ t.status.busy = false ∧ t.status.done = true ∧
      t.status.rej = s.status.rej ∧ t.arg0 = s.arg0 ∧ t.arg1 = s.arg1 ∧ t.arg2 = s.arg2 ∧ t.cap = s.cap ∧
      (op ≠ .decode → t.seq = s.seq ∧ t.tick = s.tick)

/-- R184: after any completion, with an error or without, the block is idle and accepts the next command; and the code
stays until that acceptance sets it to `OK` (or a reset does). -/
def Obligations.ErrorsDoNotStopTheBlock : Prop :=
  (∀ (s : State) (op : Opcode) (t : State) (w : Word) (ts : List Turn),
    s.rst = false → exec op.instr s = .next t →
    t.status.busy = false ∧
    ∃ u, step (t.withInbox (.host (.write .eight 0x000#32 w) :: ts)) = .next u ∧
      u.status.busy = true ∧ u.status.err = 0#4 ∧ (∃ op', u.pend = some op') ∧ u.result = t.result) ∧
  (∀ s t : State, s.Inv → s.status.busy = false → step s = .next t →
    (¬ ∃ level ts, s.inbox = .reset level :: ts) → t.status.err ≠ s.status.err →
    t.status.busy = true ∧ t.status.err = 0#4)

/-- R194: an idle block does nothing by itself, whatever the engine's turns. -/
def Obligations.IdleBlockDoesNothing : Prop :=
  ∀ (s : State) (ts : List Turn), s.pend = none →
    step (s.withInbox (.engine :: ts)) = .next { s with inbox := ts } ∧
    step (s.withInbox (.complete :: ts)) = .next { s with inbox := ts } ∧
    step (s.withInbox []) = .next { s with inbox := [] }

/-- The invariant holds after reset. -/
def Obligations.InvariantAtReset : Prop := State.reset.Inv

/-- Every step keeps the invariant. -/
def Obligations.StepKeepsInvariant : Prop :=
  ∀ s t : State, s.Inv → step s = .next t → t.Inv

/-- In a state that meets the invariant the machine goes on, but for a host access that the block does not admit (R53):
nothing else is refused, and nothing faults. -/
def Obligations.OnlyBadAccessStops : Prop :=
  ∀ s : State, s.Inv → s.StepsSafely ∨ (s.BadAccessNext ∧ step s = .refused .hostAccess)

/-- R32: `RESULT` changes only in the step that completes the pending command, or in reset. -/
def Obligations.ResultChangesOnlyAtCompletion : Prop :=
  ∀ s t : State, step s = .next t → t.result ≠ s.result →
    (s.pend ≠ none ∧ t.pend = none ∧ t.status.busy = false ∧ t.status.done = true) ∨
    (∃ level ts, s.inbox = .reset level :: ts)

/-- R24: an argument register changes only by a host write of its new value while the block is idle, or in reset. -/
def Obligations.ArgumentsChangeOnlyByHost : Prop :=
  ∀ s t : State, step s = .next t → (¬ ∃ level ts, s.inbox = .reset level :: ts) →
    (t.arg0 ≠ s.arg0 →
      s.status.busy = false ∧ ∃ ts, s.inbox = .host (.write .eight 0x010#32 t.arg0) :: ts) ∧
    (t.arg1 ≠ s.arg1 →
      s.status.busy = false ∧ ∃ ts, s.inbox = .host (.write .eight 0x018#32 t.arg1) :: ts) ∧
    (t.arg2 ≠ s.arg2 →
      s.status.busy = false ∧ ∃ ts, s.inbox = .host (.write .eight 0x020#32 t.arg2) :: ts)

/-- R28, R29, R30: without a reset, `BUSY` is set only by an accepted `CMD` write (which clears `DONE` and `REJ`) and
cleared only by a completion (which sets `DONE` and leaves `REJ`), `DONE` changes only with `BUSY`, `REJ` is set only by
a `CMD` write while busy, and cleared only by a `CMD` write that is accepted. -/
def Obligations.StatusChangesOnlyByLifecycle : Prop :=
  ∀ s t : State, s.Inv → step s = .next t → (¬ ∃ level ts, s.inbox = .reset level :: ts) →
    (s.status.busy = false → t.status.busy = true →
      (∃ w ts, s.inbox = .host (.write .eight 0x000#32 w) :: ts) ∧ t.status.done = false ∧ t.status.rej = false) ∧
    (s.status.busy = true → t.status.busy = false →
      s.pend ≠ none ∧ t.pend = none ∧ t.status.done = true ∧ t.status.rej = s.status.rej) ∧
    (t.status.busy = s.status.busy → t.status.done = s.status.done) ∧
    (s.status.rej = false → t.status.rej = true →
      s.status.busy = true ∧ ∃ w ts, s.inbox = .host (.write .eight 0x000#32 w) :: ts) ∧
    (s.status.rej = true → t.status.rej = false →
      s.status.busy = false ∧ t.status.busy = true ∧ s.pend = none ∧ t.pend ≠ none ∧
        ∃ w ts, s.inbox = .host (.write .eight 0x000#32 w) :: ts)

/-- R35, R64: an entry of `SEQ` changes only by a host write to it while the block is idle, by a pending DECODE in its
destination range, or in reset. -/
def Obligations.SeqChangesOnlyByItsWriters : Prop :=
  ∀ (s t : State) (j : Nat), s.Inv → step s = .next t → t.seqRead j ≠ s.seqRead j →
    (s.status.busy = false ∧ ∃ ts,
      s.inbox = .host (.write .eight (BitVec.ofNat 32 (0x1000 + 8 * j)) (t.seqRead j)) :: ts) ∨
    (s.pend = some .decode ∧ s.arg1.toNat ≤ j ∧ j < s.arg1.toNat + s.arg2.toNat) ∨
    (∃ level ts, s.inbox = .reset level :: ts)

/-! Reset (10_state.md R43, 70_reset_and_hazards.md). -/

/-- R43, R210: asserting or releasing `rst` puts the block's registers to their reset values and abandons a pending
command (R211); `State.reset` has those values too. Two clauses are the model's choice: that every `SEQ` entry is
unspecified anew, also after a reset during a command that does not write it (log 13: R211 only permits it), and that a
turn which sets the level that is there already resets the block too (log 21). -/
def Obligations.ResetValues : Prop :=
  (∀ (s : State) (level : Bool) (ts : List Turn), s.inbox = .reset level :: ts →
    ∃ t, step s = .next t ∧ t.arg0 = 0#64 ∧ t.arg1 = 0#64 ∧ t.arg2 = 0#64 ∧ t.status.word = 0#64 ∧
      t.result = 0#64 ∧ t.pend = none ∧ t.work = none ∧ t.rst = level ∧ t.inbox = ts ∧ t.cap = s.cap ∧
      t.streamPresent = s.streamPresent ∧ t.stream = s.stream ∧
      ∀ j, t.seqRead j = Config.unwrittenSeq (s.epoch + 1) j) ∧
  State.reset.arg0 = 0#64 ∧ State.reset.arg1 = 0#64 ∧ State.reset.arg2 = 0#64 ∧ State.reset.status.word = 0#64 ∧
  State.reset.result = 0#64 ∧ State.reset.pend = none ∧ State.reset.work = none ∧
  ∀ j, State.reset.seqRead j = Config.unwrittenSeq State.reset.epoch j

/-- R210: while `rst` is asserted an admitted write has no effect, a read returns any value, and the engine does
nothing. -/
def Obligations.HeldInReset : Prop :=
  ∀ (s : State) (ts : List Turn) (addr : BitVec 32) (v : Word), s.rst = true → addr.toNat % 8 = 0 →
    step (s.withInbox (.host (.write .eight addr v) :: ts)) = .next { s with inbox := ts } ∧
    step (s.withInbox (.host (.read .eight addr) :: ts)) =
      .next { s with inbox := ts, reads := Config.freeWord s.tick :: s.reads, tick := s.tick + 1 } ∧
    step (s.withInbox (.engine :: ts)) = .next { s with inbox := ts } ∧
    step (s.withInbox (.complete :: ts)) = .next { s with inbox := ts }
end

