-- ==== Sys2Proof/Laws/State.lean ====
section
/-! SUPPORT. One lemma per field and per update of the state, so that no proof unfolds an update. -/

namespace Sys2Proof.Machine

@[simp] theorem State.accept_cap (op : Opcode) (s : State) : (s.accept op).cap = s.cap := rfl
@[simp] theorem State.accept_streamPresent (op : Opcode) (s : State) : (s.accept op).streamPresent = s.streamPresent := rfl
@[simp] theorem State.accept_stream (op : Opcode) (s : State) : (s.accept op).stream = s.stream := rfl
@[simp] theorem State.accept_rst (op : Opcode) (s : State) : (s.accept op).rst = s.rst := rfl
@[simp] theorem State.accept_inbox (op : Opcode) (s : State) : (s.accept op).inbox = s.inbox := rfl
@[simp] theorem State.accept_arg0 (op : Opcode) (s : State) : (s.accept op).arg0 = s.arg0 := rfl
@[simp] theorem State.accept_arg1 (op : Opcode) (s : State) : (s.accept op).arg1 = s.arg1 := rfl
@[simp] theorem State.accept_arg2 (op : Opcode) (s : State) : (s.accept op).arg2 = s.arg2 := rfl
@[simp] theorem State.accept_status (op : Opcode) (s : State) : (s.accept op).status = Status.accepted := rfl
@[simp] theorem State.accept_result (op : Opcode) (s : State) : (s.accept op).result = s.result := rfl
@[simp] theorem State.accept_pend (op : Opcode) (s : State) : (s.accept op).pend = some op := rfl
@[simp] theorem State.accept_work (op : Opcode) (s : State) : (s.accept op).work = none := rfl
@[simp] theorem State.accept_seq (op : Opcode) (s : State) : (s.accept op).seq = s.seq := rfl
@[simp] theorem State.accept_reads (op : Opcode) (s : State) : (s.accept op).reads = s.reads := rfl
@[simp] theorem State.accept_epoch (op : Opcode) (s : State) : (s.accept op).epoch = s.epoch := rfl
@[simp] theorem State.accept_tick (op : Opcode) (s : State) : (s.accept op).tick = s.tick := rfl
@[simp] theorem State.accept_streamMoved (op : Opcode) (s : State) : (s.accept op).streamMoved = false := rfl

@[simp] theorem State.reject_cap (s : State) : (s.reject).cap = s.cap := rfl
@[simp] theorem State.reject_streamPresent (s : State) : (s.reject).streamPresent = s.streamPresent := rfl
@[simp] theorem State.reject_stream (s : State) : (s.reject).stream = s.stream := rfl
@[simp] theorem State.reject_rst (s : State) : (s.reject).rst = s.rst := rfl
@[simp] theorem State.reject_inbox (s : State) : (s.reject).inbox = s.inbox := rfl
@[simp] theorem State.reject_arg0 (s : State) : (s.reject).arg0 = s.arg0 := rfl
@[simp] theorem State.reject_arg1 (s : State) : (s.reject).arg1 = s.arg1 := rfl
@[simp] theorem State.reject_arg2 (s : State) : (s.reject).arg2 = s.arg2 := rfl
@[simp] theorem State.reject_status (s : State) : (s.reject).status = s.status.rejected := rfl
@[simp] theorem State.reject_result (s : State) : (s.reject).result = s.result := rfl
@[simp] theorem State.reject_pend (s : State) : (s.reject).pend = s.pend := rfl
@[simp] theorem State.reject_work (s : State) : (s.reject).work = s.work := rfl
@[simp] theorem State.reject_seq (s : State) : (s.reject).seq = s.seq := rfl
@[simp] theorem State.reject_reads (s : State) : (s.reject).reads = s.reads := rfl
@[simp] theorem State.reject_epoch (s : State) : (s.reject).epoch = s.epoch := rfl
@[simp] theorem State.reject_tick (s : State) : (s.reject).tick = s.tick := rfl
@[simp] theorem State.reject_streamMoved (s : State) : (s.reject).streamMoved = s.streamMoved := rfl

@[simp] theorem State.completeWith_cap (e : BitVec 4) (v : Word) (s : State) : (s.completeWith e v).cap = s.cap := rfl
@[simp] theorem State.completeWith_streamPresent (e : BitVec 4) (v : Word) (s : State) : (s.completeWith e v).streamPresent = s.streamPresent := rfl
@[simp] theorem State.completeWith_stream (e : BitVec 4) (v : Word) (s : State) : (s.completeWith e v).stream = s.stream := rfl
@[simp] theorem State.completeWith_rst (e : BitVec 4) (v : Word) (s : State) : (s.completeWith e v).rst = s.rst := rfl
@[simp] theorem State.completeWith_inbox (e : BitVec 4) (v : Word) (s : State) : (s.completeWith e v).inbox = s.inbox := rfl
@[simp] theorem State.completeWith_arg0 (e : BitVec 4) (v : Word) (s : State) : (s.completeWith e v).arg0 = s.arg0 := rfl
@[simp] theorem State.completeWith_arg1 (e : BitVec 4) (v : Word) (s : State) : (s.completeWith e v).arg1 = s.arg1 := rfl
@[simp] theorem State.completeWith_arg2 (e : BitVec 4) (v : Word) (s : State) : (s.completeWith e v).arg2 = s.arg2 := rfl
@[simp] theorem State.completeWith_status (e : BitVec 4) (v : Word) (s : State) : (s.completeWith e v).status = s.status.completed e := rfl
@[simp] theorem State.completeWith_result (e : BitVec 4) (v : Word) (s : State) : (s.completeWith e v).result = v := rfl
@[simp] theorem State.completeWith_pend (e : BitVec 4) (v : Word) (s : State) : (s.completeWith e v).pend = none := rfl
@[simp] theorem State.completeWith_work (e : BitVec 4) (v : Word) (s : State) : (s.completeWith e v).work = none := rfl
@[simp] theorem State.completeWith_seq (e : BitVec 4) (v : Word) (s : State) : (s.completeWith e v).seq = s.seq := rfl
@[simp] theorem State.completeWith_reads (e : BitVec 4) (v : Word) (s : State) : (s.completeWith e v).reads = s.reads := rfl
@[simp] theorem State.completeWith_epoch (e : BitVec 4) (v : Word) (s : State) : (s.completeWith e v).epoch = s.epoch := rfl
@[simp] theorem State.completeWith_tick (e : BitVec 4) (v : Word) (s : State) : (s.completeWith e v).tick = s.tick := rfl
@[simp] theorem State.completeWith_streamMoved (e : BitVec 4) (v : Word) (s : State) : (s.completeWith e v).streamMoved = s.streamMoved := rfl

@[simp] theorem State.complete_cap (e : ErrorCode) (v : Word) (s : State) : (s.complete e v).cap = s.cap := rfl
@[simp] theorem State.complete_streamPresent (e : ErrorCode) (v : Word) (s : State) : (s.complete e v).streamPresent = s.streamPresent := rfl
@[simp] theorem State.complete_stream (e : ErrorCode) (v : Word) (s : State) : (s.complete e v).stream = s.stream := rfl
@[simp] theorem State.complete_rst (e : ErrorCode) (v : Word) (s : State) : (s.complete e v).rst = s.rst := rfl
@[simp] theorem State.complete_inbox (e : ErrorCode) (v : Word) (s : State) : (s.complete e v).inbox = s.inbox := rfl
@[simp] theorem State.complete_arg0 (e : ErrorCode) (v : Word) (s : State) : (s.complete e v).arg0 = s.arg0 := rfl
@[simp] theorem State.complete_arg1 (e : ErrorCode) (v : Word) (s : State) : (s.complete e v).arg1 = s.arg1 := rfl
@[simp] theorem State.complete_arg2 (e : ErrorCode) (v : Word) (s : State) : (s.complete e v).arg2 = s.arg2 := rfl
@[simp] theorem State.complete_status (e : ErrorCode) (v : Word) (s : State) : (s.complete e v).status = s.status.completed e.code := rfl
@[simp] theorem State.complete_result (e : ErrorCode) (v : Word) (s : State) : (s.complete e v).result = v := rfl
@[simp] theorem State.complete_pend (e : ErrorCode) (v : Word) (s : State) : (s.complete e v).pend = none := rfl
@[simp] theorem State.complete_work (e : ErrorCode) (v : Word) (s : State) : (s.complete e v).work = none := rfl
@[simp] theorem State.complete_seq (e : ErrorCode) (v : Word) (s : State) : (s.complete e v).seq = s.seq := rfl
@[simp] theorem State.complete_reads (e : ErrorCode) (v : Word) (s : State) : (s.complete e v).reads = s.reads := rfl
@[simp] theorem State.complete_epoch (e : ErrorCode) (v : Word) (s : State) : (s.complete e v).epoch = s.epoch := rfl
@[simp] theorem State.complete_tick (e : ErrorCode) (v : Word) (s : State) : (s.complete e v).tick = s.tick := rfl
@[simp] theorem State.complete_streamMoved (e : ErrorCode) (v : Word) (s : State) : (s.complete e v).streamMoved = s.streamMoved := rfl

@[simp] theorem State.finish_cap (v : Word) (s : State) : (s.finish v).cap = s.cap := rfl
@[simp] theorem State.finish_streamPresent (v : Word) (s : State) : (s.finish v).streamPresent = s.streamPresent := rfl
@[simp] theorem State.finish_stream (v : Word) (s : State) : (s.finish v).stream = s.stream := rfl
@[simp] theorem State.finish_rst (v : Word) (s : State) : (s.finish v).rst = s.rst := rfl
@[simp] theorem State.finish_inbox (v : Word) (s : State) : (s.finish v).inbox = s.inbox := rfl
@[simp] theorem State.finish_arg0 (v : Word) (s : State) : (s.finish v).arg0 = s.arg0 := rfl
@[simp] theorem State.finish_arg1 (v : Word) (s : State) : (s.finish v).arg1 = s.arg1 := rfl
@[simp] theorem State.finish_arg2 (v : Word) (s : State) : (s.finish v).arg2 = s.arg2 := rfl
@[simp] theorem State.finish_status (v : Word) (s : State) : (s.finish v).status = s.status.completed ErrorCode.ok.code := rfl
@[simp] theorem State.finish_result (v : Word) (s : State) : (s.finish v).result = v := rfl
@[simp] theorem State.finish_pend (v : Word) (s : State) : (s.finish v).pend = none := rfl
@[simp] theorem State.finish_work (v : Word) (s : State) : (s.finish v).work = none := rfl
@[simp] theorem State.finish_seq (v : Word) (s : State) : (s.finish v).seq = s.seq := rfl
@[simp] theorem State.finish_reads (v : Word) (s : State) : (s.finish v).reads = s.reads := rfl
@[simp] theorem State.finish_epoch (v : Word) (s : State) : (s.finish v).epoch = s.epoch := rfl
@[simp] theorem State.finish_tick (v : Word) (s : State) : (s.finish v).tick = s.tick := rfl
@[simp] theorem State.finish_streamMoved (v : Word) (s : State) : (s.finish v).streamMoved = s.streamMoved := rfl

@[simp] theorem State.raise_cap (e : ErrorCode) (v : Word) (s : State) : (s.raise e v).cap = s.cap := rfl
@[simp] theorem State.raise_streamPresent (e : ErrorCode) (v : Word) (s : State) : (s.raise e v).streamPresent = s.streamPresent := rfl
@[simp] theorem State.raise_stream (e : ErrorCode) (v : Word) (s : State) : (s.raise e v).stream = s.stream := rfl
@[simp] theorem State.raise_rst (e : ErrorCode) (v : Word) (s : State) : (s.raise e v).rst = s.rst := rfl
@[simp] theorem State.raise_inbox (e : ErrorCode) (v : Word) (s : State) : (s.raise e v).inbox = s.inbox := rfl
@[simp] theorem State.raise_arg0 (e : ErrorCode) (v : Word) (s : State) : (s.raise e v).arg0 = s.arg0 := rfl
@[simp] theorem State.raise_arg1 (e : ErrorCode) (v : Word) (s : State) : (s.raise e v).arg1 = s.arg1 := rfl
@[simp] theorem State.raise_arg2 (e : ErrorCode) (v : Word) (s : State) : (s.raise e v).arg2 = s.arg2 := rfl
@[simp] theorem State.raise_status (e : ErrorCode) (v : Word) (s : State) : (s.raise e v).status = s.status.completed e.code := rfl
@[simp] theorem State.raise_result (e : ErrorCode) (v : Word) (s : State) : (s.raise e v).result = v := rfl
@[simp] theorem State.raise_pend (e : ErrorCode) (v : Word) (s : State) : (s.raise e v).pend = none := rfl
@[simp] theorem State.raise_work (e : ErrorCode) (v : Word) (s : State) : (s.raise e v).work = none := rfl
@[simp] theorem State.raise_seq (e : ErrorCode) (v : Word) (s : State) : (s.raise e v).seq = s.seq := rfl
@[simp] theorem State.raise_reads (e : ErrorCode) (v : Word) (s : State) : (s.raise e v).reads = s.reads := rfl
@[simp] theorem State.raise_epoch (e : ErrorCode) (v : Word) (s : State) : (s.raise e v).epoch = s.epoch := rfl
@[simp] theorem State.raise_tick (e : ErrorCode) (v : Word) (s : State) : (s.raise e v).tick = s.tick := rfl
@[simp] theorem State.raise_streamMoved (e : ErrorCode) (v : Word) (s : State) : (s.raise e v).streamMoved = s.streamMoved := rfl

@[simp] theorem State.seqWrite_cap (i : Nat) (v : Word) (s : State) : (s.seqWrite i v).cap = s.cap := rfl
@[simp] theorem State.seqWrite_streamPresent (i : Nat) (v : Word) (s : State) : (s.seqWrite i v).streamPresent = s.streamPresent := rfl
@[simp] theorem State.seqWrite_stream (i : Nat) (v : Word) (s : State) : (s.seqWrite i v).stream = s.stream := rfl
@[simp] theorem State.seqWrite_rst (i : Nat) (v : Word) (s : State) : (s.seqWrite i v).rst = s.rst := rfl
@[simp] theorem State.seqWrite_inbox (i : Nat) (v : Word) (s : State) : (s.seqWrite i v).inbox = s.inbox := rfl
@[simp] theorem State.seqWrite_arg0 (i : Nat) (v : Word) (s : State) : (s.seqWrite i v).arg0 = s.arg0 := rfl
@[simp] theorem State.seqWrite_arg1 (i : Nat) (v : Word) (s : State) : (s.seqWrite i v).arg1 = s.arg1 := rfl
@[simp] theorem State.seqWrite_arg2 (i : Nat) (v : Word) (s : State) : (s.seqWrite i v).arg2 = s.arg2 := rfl
@[simp] theorem State.seqWrite_status (i : Nat) (v : Word) (s : State) : (s.seqWrite i v).status = s.status := rfl
@[simp] theorem State.seqWrite_result (i : Nat) (v : Word) (s : State) : (s.seqWrite i v).result = s.result := rfl
@[simp] theorem State.seqWrite_pend (i : Nat) (v : Word) (s : State) : (s.seqWrite i v).pend = s.pend := rfl
@[simp] theorem State.seqWrite_work (i : Nat) (v : Word) (s : State) : (s.seqWrite i v).work = s.work := rfl
@[simp] theorem State.seqWrite_seq (i : Nat) (v : Word) (s : State) : (s.seqWrite i v).seq = s.seq.write i v := rfl
@[simp] theorem State.seqWrite_reads (i : Nat) (v : Word) (s : State) : (s.seqWrite i v).reads = s.reads := rfl
@[simp] theorem State.seqWrite_epoch (i : Nat) (v : Word) (s : State) : (s.seqWrite i v).epoch = s.epoch := rfl
@[simp] theorem State.seqWrite_tick (i : Nat) (v : Word) (s : State) : (s.seqWrite i v).tick = s.tick := rfl
@[simp] theorem State.seqWrite_streamMoved (i : Nat) (v : Word) (s : State) : (s.seqWrite i v).streamMoved = s.streamMoved := rfl

@[simp] theorem State.drawn_cap (s : State) : (s.drawn).cap = s.cap := rfl
@[simp] theorem State.drawn_streamPresent (s : State) : (s.drawn).streamPresent = s.streamPresent := rfl
@[simp] theorem State.drawn_stream (s : State) : (s.drawn).stream = s.stream := rfl
@[simp] theorem State.drawn_rst (s : State) : (s.drawn).rst = s.rst := rfl
@[simp] theorem State.drawn_inbox (s : State) : (s.drawn).inbox = s.inbox := rfl
@[simp] theorem State.drawn_arg0 (s : State) : (s.drawn).arg0 = s.arg0 := rfl
@[simp] theorem State.drawn_arg1 (s : State) : (s.drawn).arg1 = s.arg1 := rfl
@[simp] theorem State.drawn_arg2 (s : State) : (s.drawn).arg2 = s.arg2 := rfl
@[simp] theorem State.drawn_status (s : State) : (s.drawn).status = s.status := rfl
@[simp] theorem State.drawn_result (s : State) : (s.drawn).result = s.result := rfl
@[simp] theorem State.drawn_pend (s : State) : (s.drawn).pend = s.pend := rfl
@[simp] theorem State.drawn_work (s : State) : (s.drawn).work = s.work := rfl
@[simp] theorem State.drawn_seq (s : State) : (s.drawn).seq = s.seq := rfl
@[simp] theorem State.drawn_reads (s : State) : (s.drawn).reads = s.reads := rfl
@[simp] theorem State.drawn_epoch (s : State) : (s.drawn).epoch = s.epoch := rfl
@[simp] theorem State.drawn_tick (s : State) : (s.drawn).tick = s.tick + 1 := rfl
@[simp] theorem State.drawn_streamMoved (s : State) : (s.drawn).streamMoved = s.streamMoved := rfl

@[simp] theorem State.applyReset_cap (s : State) : (s.applyReset).cap = s.cap := rfl
@[simp] theorem State.applyReset_streamPresent (s : State) : (s.applyReset).streamPresent = s.streamPresent := rfl
@[simp] theorem State.applyReset_stream (s : State) : (s.applyReset).stream = s.stream := rfl
@[simp] theorem State.applyReset_rst (s : State) : (s.applyReset).rst = s.rst := rfl
@[simp] theorem State.applyReset_inbox (s : State) : (s.applyReset).inbox = s.inbox := rfl
@[simp] theorem State.applyReset_arg0 (s : State) : (s.applyReset).arg0 = 0#64 := rfl
@[simp] theorem State.applyReset_arg1 (s : State) : (s.applyReset).arg1 = 0#64 := rfl
@[simp] theorem State.applyReset_arg2 (s : State) : (s.applyReset).arg2 = 0#64 := rfl
@[simp] theorem State.applyReset_status (s : State) : (s.applyReset).status = Status.cleared := rfl
@[simp] theorem State.applyReset_result (s : State) : (s.applyReset).result = 0#64 := rfl
@[simp] theorem State.applyReset_pend (s : State) : (s.applyReset).pend = none := rfl
@[simp] theorem State.applyReset_work (s : State) : (s.applyReset).work = none := rfl
@[simp] theorem State.applyReset_seq (s : State) : (s.applyReset).seq = [] := rfl
@[simp] theorem State.applyReset_reads (s : State) : (s.applyReset).reads = s.reads := rfl
@[simp] theorem State.applyReset_epoch (s : State) : (s.applyReset).epoch = s.epoch + 1 := rfl
@[simp] theorem State.applyReset_tick (s : State) : (s.applyReset).tick = s.tick := rfl
@[simp] theorem State.applyReset_streamMoved (s : State) : (s.applyReset).streamMoved = false := rfl

@[simp] theorem State.setRst_cap (l : Bool) (s : State) : (s.setRst l).cap = s.cap := rfl
@[simp] theorem State.setRst_streamPresent (l : Bool) (s : State) : (s.setRst l).streamPresent = s.streamPresent := rfl
@[simp] theorem State.setRst_stream (l : Bool) (s : State) : (s.setRst l).stream = s.stream := rfl
@[simp] theorem State.setRst_rst (l : Bool) (s : State) : (s.setRst l).rst = l := rfl
@[simp] theorem State.setRst_inbox (l : Bool) (s : State) : (s.setRst l).inbox = s.inbox := rfl
@[simp] theorem State.setRst_arg0 (l : Bool) (s : State) : (s.setRst l).arg0 = 0#64 := rfl
@[simp] theorem State.setRst_arg1 (l : Bool) (s : State) : (s.setRst l).arg1 = 0#64 := rfl
@[simp] theorem State.setRst_arg2 (l : Bool) (s : State) : (s.setRst l).arg2 = 0#64 := rfl
@[simp] theorem State.setRst_status (l : Bool) (s : State) : (s.setRst l).status = Status.cleared := rfl
@[simp] theorem State.setRst_result (l : Bool) (s : State) : (s.setRst l).result = 0#64 := rfl
@[simp] theorem State.setRst_pend (l : Bool) (s : State) : (s.setRst l).pend = none := rfl
@[simp] theorem State.setRst_work (l : Bool) (s : State) : (s.setRst l).work = none := rfl
@[simp] theorem State.setRst_seq (l : Bool) (s : State) : (s.setRst l).seq = [] := rfl
@[simp] theorem State.setRst_reads (l : Bool) (s : State) : (s.setRst l).reads = s.reads := rfl
@[simp] theorem State.setRst_epoch (l : Bool) (s : State) : (s.setRst l).epoch = s.epoch + 1 := rfl
@[simp] theorem State.setRst_tick (l : Bool) (s : State) : (s.setRst l).tick = s.tick := rfl
@[simp] theorem State.setRst_streamMoved (l : Bool) (s : State) : (s.setRst l).streamMoved = false := rfl

@[simp] theorem State.setStream_cap (p : Bool) (b : Stream) (s : State) : (s.setStream p b).cap = s.cap := rfl
@[simp] theorem State.setStream_streamPresent (p : Bool) (b : Stream) (s : State) : (s.setStream p b).streamPresent = p := rfl
@[simp] theorem State.setStream_stream (p : Bool) (b : Stream) (s : State) : (s.setStream p b).stream = b := rfl
@[simp] theorem State.setStream_rst (p : Bool) (b : Stream) (s : State) : (s.setStream p b).rst = s.rst := rfl
@[simp] theorem State.setStream_inbox (p : Bool) (b : Stream) (s : State) : (s.setStream p b).inbox = s.inbox := rfl
@[simp] theorem State.setStream_arg0 (p : Bool) (b : Stream) (s : State) : (s.setStream p b).arg0 = s.arg0 := rfl
@[simp] theorem State.setStream_arg1 (p : Bool) (b : Stream) (s : State) : (s.setStream p b).arg1 = s.arg1 := rfl
@[simp] theorem State.setStream_arg2 (p : Bool) (b : Stream) (s : State) : (s.setStream p b).arg2 = s.arg2 := rfl
@[simp] theorem State.setStream_status (p : Bool) (b : Stream) (s : State) : (s.setStream p b).status = s.status := rfl
@[simp] theorem State.setStream_result (p : Bool) (b : Stream) (s : State) : (s.setStream p b).result = s.result := rfl
@[simp] theorem State.setStream_pend (p : Bool) (b : Stream) (s : State) : (s.setStream p b).pend = s.pend := rfl
@[simp] theorem State.setStream_work (p : Bool) (b : Stream) (s : State) : (s.setStream p b).work = s.work := rfl
@[simp] theorem State.setStream_seq (p : Bool) (b : Stream) (s : State) : (s.setStream p b).seq = s.seq := rfl
@[simp] theorem State.setStream_reads (p : Bool) (b : Stream) (s : State) : (s.setStream p b).reads = s.reads := rfl
@[simp] theorem State.setStream_epoch (p : Bool) (b : Stream) (s : State) : (s.setStream p b).epoch = s.epoch := rfl
@[simp] theorem State.setStream_tick (p : Bool) (b : Stream) (s : State) : (s.setStream p b).tick = s.tick := rfl

@[simp] theorem State.returned_cap (v : Word) (s : State) : (s.returned v).cap = s.cap := rfl
@[simp] theorem State.returned_streamPresent (v : Word) (s : State) : (s.returned v).streamPresent = s.streamPresent := rfl
@[simp] theorem State.returned_stream (v : Word) (s : State) : (s.returned v).stream = s.stream := rfl
@[simp] theorem State.returned_rst (v : Word) (s : State) : (s.returned v).rst = s.rst := rfl
@[simp] theorem State.returned_inbox (v : Word) (s : State) : (s.returned v).inbox = s.inbox := rfl
@[simp] theorem State.returned_arg0 (v : Word) (s : State) : (s.returned v).arg0 = s.arg0 := rfl
@[simp] theorem State.returned_arg1 (v : Word) (s : State) : (s.returned v).arg1 = s.arg1 := rfl
@[simp] theorem State.returned_arg2 (v : Word) (s : State) : (s.returned v).arg2 = s.arg2 := rfl
@[simp] theorem State.returned_status (v : Word) (s : State) : (s.returned v).status = s.status := rfl
@[simp] theorem State.returned_result (v : Word) (s : State) : (s.returned v).result = s.result := rfl
@[simp] theorem State.returned_pend (v : Word) (s : State) : (s.returned v).pend = s.pend := rfl
@[simp] theorem State.returned_work (v : Word) (s : State) : (s.returned v).work = s.work := rfl
@[simp] theorem State.returned_seq (v : Word) (s : State) : (s.returned v).seq = s.seq := rfl
@[simp] theorem State.returned_reads (v : Word) (s : State) : (s.returned v).reads = v :: s.reads := rfl
@[simp] theorem State.returned_epoch (v : Word) (s : State) : (s.returned v).epoch = s.epoch := rfl
@[simp] theorem State.returned_tick (v : Word) (s : State) : (s.returned v).tick = s.tick := rfl
@[simp] theorem State.returned_streamMoved (v : Word) (s : State) : (s.returned v).streamMoved = s.streamMoved := rfl

@[simp] theorem State.setWork_cap (w : Work) (s : State) : (s.setWork w).cap = s.cap := rfl
@[simp] theorem State.setWork_streamPresent (w : Work) (s : State) : (s.setWork w).streamPresent = s.streamPresent := rfl
@[simp] theorem State.setWork_stream (w : Work) (s : State) : (s.setWork w).stream = s.stream := rfl
@[simp] theorem State.setWork_rst (w : Work) (s : State) : (s.setWork w).rst = s.rst := rfl
@[simp] theorem State.setWork_inbox (w : Work) (s : State) : (s.setWork w).inbox = s.inbox := rfl
@[simp] theorem State.setWork_arg0 (w : Work) (s : State) : (s.setWork w).arg0 = s.arg0 := rfl
@[simp] theorem State.setWork_arg1 (w : Work) (s : State) : (s.setWork w).arg1 = s.arg1 := rfl
@[simp] theorem State.setWork_arg2 (w : Work) (s : State) : (s.setWork w).arg2 = s.arg2 := rfl
@[simp] theorem State.setWork_status (w : Work) (s : State) : (s.setWork w).status = s.status := rfl
@[simp] theorem State.setWork_result (w : Work) (s : State) : (s.setWork w).result = s.result := rfl
@[simp] theorem State.setWork_pend (w : Work) (s : State) : (s.setWork w).pend = s.pend := rfl
@[simp] theorem State.setWork_work (w : Work) (s : State) : (s.setWork w).work = some w := rfl
@[simp] theorem State.setWork_seq (w : Work) (s : State) : (s.setWork w).seq = s.seq := rfl
@[simp] theorem State.setWork_reads (w : Work) (s : State) : (s.setWork w).reads = s.reads := rfl
@[simp] theorem State.setWork_epoch (w : Work) (s : State) : (s.setWork w).epoch = s.epoch := rfl
@[simp] theorem State.setWork_tick (w : Work) (s : State) : (s.setWork w).tick = s.tick := rfl
@[simp] theorem State.setWork_streamMoved (w : Work) (s : State) : (s.setWork w).streamMoved = s.streamMoved := rfl

@[simp] theorem State.withInbox_cap (ts : List Turn) (s : State) : (s.withInbox ts).cap = s.cap := rfl
@[simp] theorem State.withInbox_streamPresent (ts : List Turn) (s : State) : (s.withInbox ts).streamPresent = s.streamPresent := rfl
@[simp] theorem State.withInbox_stream (ts : List Turn) (s : State) : (s.withInbox ts).stream = s.stream := rfl
@[simp] theorem State.withInbox_rst (ts : List Turn) (s : State) : (s.withInbox ts).rst = s.rst := rfl
@[simp] theorem State.withInbox_inbox (ts : List Turn) (s : State) : (s.withInbox ts).inbox = ts := rfl
@[simp] theorem State.withInbox_arg0 (ts : List Turn) (s : State) : (s.withInbox ts).arg0 = s.arg0 := rfl
@[simp] theorem State.withInbox_arg1 (ts : List Turn) (s : State) : (s.withInbox ts).arg1 = s.arg1 := rfl
@[simp] theorem State.withInbox_arg2 (ts : List Turn) (s : State) : (s.withInbox ts).arg2 = s.arg2 := rfl
@[simp] theorem State.withInbox_status (ts : List Turn) (s : State) : (s.withInbox ts).status = s.status := rfl
@[simp] theorem State.withInbox_result (ts : List Turn) (s : State) : (s.withInbox ts).result = s.result := rfl
@[simp] theorem State.withInbox_pend (ts : List Turn) (s : State) : (s.withInbox ts).pend = s.pend := rfl
@[simp] theorem State.withInbox_work (ts : List Turn) (s : State) : (s.withInbox ts).work = s.work := rfl
@[simp] theorem State.withInbox_seq (ts : List Turn) (s : State) : (s.withInbox ts).seq = s.seq := rfl
@[simp] theorem State.withInbox_reads (ts : List Turn) (s : State) : (s.withInbox ts).reads = s.reads := rfl
@[simp] theorem State.withInbox_epoch (ts : List Turn) (s : State) : (s.withInbox ts).epoch = s.epoch := rfl
@[simp] theorem State.withInbox_tick (ts : List Turn) (s : State) : (s.withInbox ts).tick = s.tick := rfl
@[simp] theorem State.withInbox_streamMoved (ts : List Turn) (s : State) : (s.withInbox ts).streamMoved = s.streamMoved := rfl

@[simp] theorem State.seqWriteAll_cap (i : Nat) (vs : List Word) (s : State) : (s.seqWriteAll i vs).cap = s.cap := rfl
@[simp] theorem State.seqWriteAll_streamPresent (i : Nat) (vs : List Word) (s : State) : (s.seqWriteAll i vs).streamPresent = s.streamPresent := rfl
@[simp] theorem State.seqWriteAll_stream (i : Nat) (vs : List Word) (s : State) : (s.seqWriteAll i vs).stream = s.stream := rfl
@[simp] theorem State.seqWriteAll_rst (i : Nat) (vs : List Word) (s : State) : (s.seqWriteAll i vs).rst = s.rst := rfl
@[simp] theorem State.seqWriteAll_inbox (i : Nat) (vs : List Word) (s : State) : (s.seqWriteAll i vs).inbox = s.inbox := rfl
@[simp] theorem State.seqWriteAll_arg0 (i : Nat) (vs : List Word) (s : State) : (s.seqWriteAll i vs).arg0 = s.arg0 := rfl
@[simp] theorem State.seqWriteAll_arg1 (i : Nat) (vs : List Word) (s : State) : (s.seqWriteAll i vs).arg1 = s.arg1 := rfl
@[simp] theorem State.seqWriteAll_arg2 (i : Nat) (vs : List Word) (s : State) : (s.seqWriteAll i vs).arg2 = s.arg2 := rfl
@[simp] theorem State.seqWriteAll_status (i : Nat) (vs : List Word) (s : State) : (s.seqWriteAll i vs).status = s.status := rfl
@[simp] theorem State.seqWriteAll_result (i : Nat) (vs : List Word) (s : State) : (s.seqWriteAll i vs).result = s.result := rfl
@[simp] theorem State.seqWriteAll_pend (i : Nat) (vs : List Word) (s : State) : (s.seqWriteAll i vs).pend = s.pend := rfl
@[simp] theorem State.seqWriteAll_work (i : Nat) (vs : List Word) (s : State) : (s.seqWriteAll i vs).work = s.work := rfl
@[simp] theorem State.seqWriteAll_seq (i : Nat) (vs : List Word) (s : State) : (s.seqWriteAll i vs).seq = s.seq.writeAll i vs := rfl
@[simp] theorem State.seqWriteAll_reads (i : Nat) (vs : List Word) (s : State) : (s.seqWriteAll i vs).reads = s.reads := rfl
@[simp] theorem State.seqWriteAll_epoch (i : Nat) (vs : List Word) (s : State) : (s.seqWriteAll i vs).epoch = s.epoch := rfl
@[simp] theorem State.seqWriteAll_tick (i : Nat) (vs : List Word) (s : State) : (s.seqWriteAll i vs).tick = s.tick := rfl
@[simp] theorem State.seqWriteAll_streamMoved (i : Nat) (vs : List Word) (s : State) : (s.seqWriteAll i vs).streamMoved = s.streamMoved := rfl

@[simp] theorem State.openCursor_cap (s : State) : (s.openCursor).cap = s.cap := rfl
@[simp] theorem State.openCursor_streamPresent (s : State) : (s.openCursor).streamPresent = s.streamPresent := rfl
@[simp] theorem State.openCursor_stream (s : State) : (s.openCursor).stream = s.stream := rfl
@[simp] theorem State.openCursor_rst (s : State) : (s.openCursor).rst = s.rst := rfl
@[simp] theorem State.openCursor_inbox (s : State) : (s.openCursor).inbox = s.inbox := rfl
@[simp] theorem State.openCursor_arg0 (s : State) : (s.openCursor).arg0 = s.arg0 := rfl
@[simp] theorem State.openCursor_arg1 (s : State) : (s.openCursor).arg1 = s.arg1 := rfl
@[simp] theorem State.openCursor_arg2 (s : State) : (s.openCursor).arg2 = s.arg2 := rfl
@[simp] theorem State.openCursor_status (s : State) : (s.openCursor).status = s.status := rfl
@[simp] theorem State.openCursor_result (s : State) : (s.openCursor).result = s.result := rfl
@[simp] theorem State.openCursor_pend (s : State) : (s.openCursor).pend = s.pend := rfl
@[simp] theorem State.openCursor_work (s : State) : (s.openCursor).work = some (.cursor (Cursor.begin s.start)) := rfl
@[simp] theorem State.openCursor_seq (s : State) : (s.openCursor).seq = s.seq := rfl
@[simp] theorem State.openCursor_reads (s : State) : (s.openCursor).reads = s.reads := rfl
@[simp] theorem State.openCursor_epoch (s : State) : (s.openCursor).epoch = s.epoch := rfl
@[simp] theorem State.openCursor_tick (s : State) : (s.openCursor).tick = s.tick := rfl
@[simp] theorem State.openCursor_streamMoved (s : State) : (s.openCursor).streamMoved = s.streamMoved := rfl

@[simp] theorem State.emit_cap (c : Cursor) (k : Nat) (v : Word) (s : State) : (s.emit c k v).cap = s.cap := rfl
@[simp] theorem State.emit_streamPresent (c : Cursor) (k : Nat) (v : Word) (s : State) : (s.emit c k v).streamPresent = s.streamPresent := rfl
@[simp] theorem State.emit_stream (c : Cursor) (k : Nat) (v : Word) (s : State) : (s.emit c k v).stream = s.stream := rfl
@[simp] theorem State.emit_rst (c : Cursor) (k : Nat) (v : Word) (s : State) : (s.emit c k v).rst = s.rst := rfl
@[simp] theorem State.emit_inbox (c : Cursor) (k : Nat) (v : Word) (s : State) : (s.emit c k v).inbox = s.inbox := rfl
@[simp] theorem State.emit_arg0 (c : Cursor) (k : Nat) (v : Word) (s : State) : (s.emit c k v).arg0 = s.arg0 := rfl
@[simp] theorem State.emit_arg1 (c : Cursor) (k : Nat) (v : Word) (s : State) : (s.emit c k v).arg1 = s.arg1 := rfl
@[simp] theorem State.emit_arg2 (c : Cursor) (k : Nat) (v : Word) (s : State) : (s.emit c k v).arg2 = s.arg2 := rfl
@[simp] theorem State.emit_status (c : Cursor) (k : Nat) (v : Word) (s : State) : (s.emit c k v).status = s.status := rfl
@[simp] theorem State.emit_result (c : Cursor) (k : Nat) (v : Word) (s : State) : (s.emit c k v).result = s.result := rfl
@[simp] theorem State.emit_pend (c : Cursor) (k : Nat) (v : Word) (s : State) : (s.emit c k v).pend = s.pend := rfl
@[simp] theorem State.emit_work (c : Cursor) (k : Nat) (v : Word) (s : State) : (s.emit c k v).work = some (.cursor { p := c.p + k, last := v, cnt := c.cnt + 1, mode := .delta }) := rfl
@[simp] theorem State.emit_seq (c : Cursor) (k : Nat) (v : Word) (s : State) : (s.emit c k v).seq = s.seq.write (s.destBase + c.cnt) v := rfl
@[simp] theorem State.emit_reads (c : Cursor) (k : Nat) (v : Word) (s : State) : (s.emit c k v).reads = s.reads := rfl
@[simp] theorem State.emit_epoch (c : Cursor) (k : Nat) (v : Word) (s : State) : (s.emit c k v).epoch = s.epoch := rfl
@[simp] theorem State.emit_tick (c : Cursor) (k : Nat) (v : Word) (s : State) : (s.emit c k v).tick = s.tick := rfl
@[simp] theorem State.emit_streamMoved (c : Cursor) (k : Nat) (v : Word) (s : State) : (s.emit c k v).streamMoved = s.streamMoved := rfl

/-! The operands, by the registers they are. -/

@[simp] theorem State.accept_candidate (op : Opcode) (s : State) : (s.accept op).candidate = s.candidate := rfl
@[simp] theorem State.accept_listBase (op : Opcode) (s : State) : (s.accept op).listBase = s.listBase := rfl
@[simp] theorem State.accept_listCount (op : Opcode) (s : State) : (s.accept op).listCount = s.listCount := rfl
@[simp] theorem State.accept_start (op : Opcode) (s : State) : (s.accept op).start = s.start := rfl
@[simp] theorem State.accept_destBase (op : Opcode) (s : State) : (s.accept op).destBase = s.destBase := rfl
@[simp] theorem State.accept_length (op : Opcode) (s : State) : (s.accept op).length = s.length := rfl
@[simp] theorem State.accept_capacity (op : Opcode) (s : State) : (s.accept op).capacity = s.capacity := rfl

@[simp] theorem State.reject_candidate (s : State) : (s.reject).candidate = s.candidate := rfl
@[simp] theorem State.reject_listBase (s : State) : (s.reject).listBase = s.listBase := rfl
@[simp] theorem State.reject_listCount (s : State) : (s.reject).listCount = s.listCount := rfl
@[simp] theorem State.reject_start (s : State) : (s.reject).start = s.start := rfl
@[simp] theorem State.reject_destBase (s : State) : (s.reject).destBase = s.destBase := rfl
@[simp] theorem State.reject_length (s : State) : (s.reject).length = s.length := rfl
@[simp] theorem State.reject_capacity (s : State) : (s.reject).capacity = s.capacity := rfl

@[simp] theorem State.completeWith_candidate (e : BitVec 4) (v : Word) (s : State) : (s.completeWith e v).candidate = s.candidate := rfl
@[simp] theorem State.completeWith_listBase (e : BitVec 4) (v : Word) (s : State) : (s.completeWith e v).listBase = s.listBase := rfl
@[simp] theorem State.completeWith_listCount (e : BitVec 4) (v : Word) (s : State) : (s.completeWith e v).listCount = s.listCount := rfl
@[simp] theorem State.completeWith_start (e : BitVec 4) (v : Word) (s : State) : (s.completeWith e v).start = s.start := rfl
@[simp] theorem State.completeWith_destBase (e : BitVec 4) (v : Word) (s : State) : (s.completeWith e v).destBase = s.destBase := rfl
@[simp] theorem State.completeWith_length (e : BitVec 4) (v : Word) (s : State) : (s.completeWith e v).length = s.length := rfl
@[simp] theorem State.completeWith_capacity (e : BitVec 4) (v : Word) (s : State) : (s.completeWith e v).capacity = s.capacity := rfl

@[simp] theorem State.complete_candidate (e : ErrorCode) (v : Word) (s : State) : (s.complete e v).candidate = s.candidate := rfl
@[simp] theorem State.complete_listBase (e : ErrorCode) (v : Word) (s : State) : (s.complete e v).listBase = s.listBase := rfl
@[simp] theorem State.complete_listCount (e : ErrorCode) (v : Word) (s : State) : (s.complete e v).listCount = s.listCount := rfl
@[simp] theorem State.complete_start (e : ErrorCode) (v : Word) (s : State) : (s.complete e v).start = s.start := rfl
@[simp] theorem State.complete_destBase (e : ErrorCode) (v : Word) (s : State) : (s.complete e v).destBase = s.destBase := rfl
@[simp] theorem State.complete_length (e : ErrorCode) (v : Word) (s : State) : (s.complete e v).length = s.length := rfl
@[simp] theorem State.complete_capacity (e : ErrorCode) (v : Word) (s : State) : (s.complete e v).capacity = s.capacity := rfl

@[simp] theorem State.finish_candidate (v : Word) (s : State) : (s.finish v).candidate = s.candidate := rfl
@[simp] theorem State.finish_listBase (v : Word) (s : State) : (s.finish v).listBase = s.listBase := rfl
@[simp] theorem State.finish_listCount (v : Word) (s : State) : (s.finish v).listCount = s.listCount := rfl
@[simp] theorem State.finish_start (v : Word) (s : State) : (s.finish v).start = s.start := rfl
@[simp] theorem State.finish_destBase (v : Word) (s : State) : (s.finish v).destBase = s.destBase := rfl
@[simp] theorem State.finish_length (v : Word) (s : State) : (s.finish v).length = s.length := rfl
@[simp] theorem State.finish_capacity (v : Word) (s : State) : (s.finish v).capacity = s.capacity := rfl

@[simp] theorem State.raise_candidate (e : ErrorCode) (v : Word) (s : State) : (s.raise e v).candidate = s.candidate := rfl
@[simp] theorem State.raise_listBase (e : ErrorCode) (v : Word) (s : State) : (s.raise e v).listBase = s.listBase := rfl
@[simp] theorem State.raise_listCount (e : ErrorCode) (v : Word) (s : State) : (s.raise e v).listCount = s.listCount := rfl
@[simp] theorem State.raise_start (e : ErrorCode) (v : Word) (s : State) : (s.raise e v).start = s.start := rfl
@[simp] theorem State.raise_destBase (e : ErrorCode) (v : Word) (s : State) : (s.raise e v).destBase = s.destBase := rfl
@[simp] theorem State.raise_length (e : ErrorCode) (v : Word) (s : State) : (s.raise e v).length = s.length := rfl
@[simp] theorem State.raise_capacity (e : ErrorCode) (v : Word) (s : State) : (s.raise e v).capacity = s.capacity := rfl

@[simp] theorem State.seqWrite_candidate (i : Nat) (v : Word) (s : State) : (s.seqWrite i v).candidate = s.candidate := rfl
@[simp] theorem State.seqWrite_listBase (i : Nat) (v : Word) (s : State) : (s.seqWrite i v).listBase = s.listBase := rfl
@[simp] theorem State.seqWrite_listCount (i : Nat) (v : Word) (s : State) : (s.seqWrite i v).listCount = s.listCount := rfl
@[simp] theorem State.seqWrite_start (i : Nat) (v : Word) (s : State) : (s.seqWrite i v).start = s.start := rfl
@[simp] theorem State.seqWrite_destBase (i : Nat) (v : Word) (s : State) : (s.seqWrite i v).destBase = s.destBase := rfl
@[simp] theorem State.seqWrite_length (i : Nat) (v : Word) (s : State) : (s.seqWrite i v).length = s.length := rfl
@[simp] theorem State.seqWrite_capacity (i : Nat) (v : Word) (s : State) : (s.seqWrite i v).capacity = s.capacity := rfl

@[simp] theorem State.drawn_candidate (s : State) : (s.drawn).candidate = s.candidate := rfl
@[simp] theorem State.drawn_listBase (s : State) : (s.drawn).listBase = s.listBase := rfl
@[simp] theorem State.drawn_listCount (s : State) : (s.drawn).listCount = s.listCount := rfl
@[simp] theorem State.drawn_start (s : State) : (s.drawn).start = s.start := rfl
@[simp] theorem State.drawn_destBase (s : State) : (s.drawn).destBase = s.destBase := rfl
@[simp] theorem State.drawn_length (s : State) : (s.drawn).length = s.length := rfl
@[simp] theorem State.drawn_capacity (s : State) : (s.drawn).capacity = s.capacity := rfl

@[simp] theorem State.applyReset_capacity (s : State) : (s.applyReset).capacity = s.capacity := rfl

@[simp] theorem State.setRst_capacity (l : Bool) (s : State) : (s.setRst l).capacity = s.capacity := rfl

@[simp] theorem State.setStream_candidate (p : Bool) (b : Stream) (s : State) : (s.setStream p b).candidate = s.candidate := rfl
@[simp] theorem State.setStream_listBase (p : Bool) (b : Stream) (s : State) : (s.setStream p b).listBase = s.listBase := rfl
@[simp] theorem State.setStream_listCount (p : Bool) (b : Stream) (s : State) : (s.setStream p b).listCount = s.listCount := rfl
@[simp] theorem State.setStream_start (p : Bool) (b : Stream) (s : State) : (s.setStream p b).start = s.start := rfl
@[simp] theorem State.setStream_destBase (p : Bool) (b : Stream) (s : State) : (s.setStream p b).destBase = s.destBase := rfl
@[simp] theorem State.setStream_length (p : Bool) (b : Stream) (s : State) : (s.setStream p b).length = s.length := rfl
@[simp] theorem State.setStream_capacity (p : Bool) (b : Stream) (s : State) : (s.setStream p b).capacity = s.capacity := rfl

@[simp] theorem State.returned_candidate (v : Word) (s : State) : (s.returned v).candidate = s.candidate := rfl
@[simp] theorem State.returned_listBase (v : Word) (s : State) : (s.returned v).listBase = s.listBase := rfl
@[simp] theorem State.returned_listCount (v : Word) (s : State) : (s.returned v).listCount = s.listCount := rfl
@[simp] theorem State.returned_start (v : Word) (s : State) : (s.returned v).start = s.start := rfl
@[simp] theorem State.returned_destBase (v : Word) (s : State) : (s.returned v).destBase = s.destBase := rfl
@[simp] theorem State.returned_length (v : Word) (s : State) : (s.returned v).length = s.length := rfl
@[simp] theorem State.returned_capacity (v : Word) (s : State) : (s.returned v).capacity = s.capacity := rfl

@[simp] theorem State.setWork_candidate (w : Work) (s : State) : (s.setWork w).candidate = s.candidate := rfl
@[simp] theorem State.setWork_listBase (w : Work) (s : State) : (s.setWork w).listBase = s.listBase := rfl
@[simp] theorem State.setWork_listCount (w : Work) (s : State) : (s.setWork w).listCount = s.listCount := rfl
@[simp] theorem State.setWork_start (w : Work) (s : State) : (s.setWork w).start = s.start := rfl
@[simp] theorem State.setWork_destBase (w : Work) (s : State) : (s.setWork w).destBase = s.destBase := rfl
@[simp] theorem State.setWork_length (w : Work) (s : State) : (s.setWork w).length = s.length := rfl
@[simp] theorem State.setWork_capacity (w : Work) (s : State) : (s.setWork w).capacity = s.capacity := rfl

@[simp] theorem State.withInbox_candidate (ts : List Turn) (s : State) : (s.withInbox ts).candidate = s.candidate := rfl
@[simp] theorem State.withInbox_listBase (ts : List Turn) (s : State) : (s.withInbox ts).listBase = s.listBase := rfl
@[simp] theorem State.withInbox_listCount (ts : List Turn) (s : State) : (s.withInbox ts).listCount = s.listCount := rfl
@[simp] theorem State.withInbox_start (ts : List Turn) (s : State) : (s.withInbox ts).start = s.start := rfl
@[simp] theorem State.withInbox_destBase (ts : List Turn) (s : State) : (s.withInbox ts).destBase = s.destBase := rfl
@[simp] theorem State.withInbox_length (ts : List Turn) (s : State) : (s.withInbox ts).length = s.length := rfl
@[simp] theorem State.withInbox_capacity (ts : List Turn) (s : State) : (s.withInbox ts).capacity = s.capacity := rfl

@[simp] theorem State.seqWriteAll_candidate (i : Nat) (vs : List Word) (s : State) : (s.seqWriteAll i vs).candidate = s.candidate := rfl
@[simp] theorem State.seqWriteAll_listBase (i : Nat) (vs : List Word) (s : State) : (s.seqWriteAll i vs).listBase = s.listBase := rfl
@[simp] theorem State.seqWriteAll_listCount (i : Nat) (vs : List Word) (s : State) : (s.seqWriteAll i vs).listCount = s.listCount := rfl
@[simp] theorem State.seqWriteAll_start (i : Nat) (vs : List Word) (s : State) : (s.seqWriteAll i vs).start = s.start := rfl
@[simp] theorem State.seqWriteAll_destBase (i : Nat) (vs : List Word) (s : State) : (s.seqWriteAll i vs).destBase = s.destBase := rfl
@[simp] theorem State.seqWriteAll_length (i : Nat) (vs : List Word) (s : State) : (s.seqWriteAll i vs).length = s.length := rfl
@[simp] theorem State.seqWriteAll_capacity (i : Nat) (vs : List Word) (s : State) : (s.seqWriteAll i vs).capacity = s.capacity := rfl

@[simp] theorem State.openCursor_candidate (s : State) : (s.openCursor).candidate = s.candidate := rfl
@[simp] theorem State.openCursor_listBase (s : State) : (s.openCursor).listBase = s.listBase := rfl
@[simp] theorem State.openCursor_listCount (s : State) : (s.openCursor).listCount = s.listCount := rfl
@[simp] theorem State.openCursor_start (s : State) : (s.openCursor).start = s.start := rfl
@[simp] theorem State.openCursor_destBase (s : State) : (s.openCursor).destBase = s.destBase := rfl
@[simp] theorem State.openCursor_length (s : State) : (s.openCursor).length = s.length := rfl
@[simp] theorem State.openCursor_capacity (s : State) : (s.openCursor).capacity = s.capacity := rfl

@[simp] theorem State.emit_candidate (c : Cursor) (k : Nat) (v : Word) (s : State) : (s.emit c k v).candidate = s.candidate := rfl
@[simp] theorem State.emit_listBase (c : Cursor) (k : Nat) (v : Word) (s : State) : (s.emit c k v).listBase = s.listBase := rfl
@[simp] theorem State.emit_listCount (c : Cursor) (k : Nat) (v : Word) (s : State) : (s.emit c k v).listCount = s.listCount := rfl
@[simp] theorem State.emit_start (c : Cursor) (k : Nat) (v : Word) (s : State) : (s.emit c k v).start = s.start := rfl
@[simp] theorem State.emit_destBase (c : Cursor) (k : Nat) (v : Word) (s : State) : (s.emit c k v).destBase = s.destBase := rfl
@[simp] theorem State.emit_length (c : Cursor) (k : Nat) (v : Word) (s : State) : (s.emit c k v).length = s.length := rfl
@[simp] theorem State.emit_capacity (c : Cursor) (k : Nat) (v : Word) (s : State) : (s.emit c k v).capacity = s.capacity := rfl

@[simp] theorem State.accept_listInRange (op : Opcode) (s : State) : (s.accept op).listInRange = s.listInRange := rfl
@[simp] theorem State.accept_destInRange (op : Opcode) (s : State) : (s.accept op).destInRange = s.destInRange := rfl
@[simp] theorem State.accept_inDest (op : Opcode) (s : State) (j : Nat) : (s.accept op).inDest j = s.inDest j := rfl

@[simp] theorem State.reject_listInRange (s : State) : (s.reject).listInRange = s.listInRange := rfl
@[simp] theorem State.reject_destInRange (s : State) : (s.reject).destInRange = s.destInRange := rfl
@[simp] theorem State.reject_inDest (s : State) (j : Nat) : (s.reject).inDest j = s.inDest j := rfl

@[simp] theorem State.completeWith_listInRange (e : BitVec 4) (v : Word) (s : State) : (s.completeWith e v).listInRange = s.listInRange := rfl
@[simp] theorem State.completeWith_destInRange (e : BitVec 4) (v : Word) (s : State) : (s.completeWith e v).destInRange = s.destInRange := rfl
@[simp] theorem State.completeWith_inDest (e : BitVec 4) (v : Word) (s : State) (j : Nat) : (s.completeWith e v).inDest j = s.inDest j := rfl

@[simp] theorem State.complete_listInRange (e : ErrorCode) (v : Word) (s : State) : (s.complete e v).listInRange = s.listInRange := rfl
@[simp] theorem State.complete_destInRange (e : ErrorCode) (v : Word) (s : State) : (s.complete e v).destInRange = s.destInRange := rfl
@[simp] theorem State.complete_inDest (e : ErrorCode) (v : Word) (s : State) (j : Nat) : (s.complete e v).inDest j = s.inDest j := rfl

@[simp] theorem State.finish_listInRange (v : Word) (s : State) : (s.finish v).listInRange = s.listInRange := rfl
@[simp] theorem State.finish_destInRange (v : Word) (s : State) : (s.finish v).destInRange = s.destInRange := rfl
@[simp] theorem State.finish_inDest (v : Word) (s : State) (j : Nat) : (s.finish v).inDest j = s.inDest j := rfl

@[simp] theorem State.raise_listInRange (e : ErrorCode) (v : Word) (s : State) : (s.raise e v).listInRange = s.listInRange := rfl
@[simp] theorem State.raise_destInRange (e : ErrorCode) (v : Word) (s : State) : (s.raise e v).destInRange = s.destInRange := rfl
@[simp] theorem State.raise_inDest (e : ErrorCode) (v : Word) (s : State) (j : Nat) : (s.raise e v).inDest j = s.inDest j := rfl

@[simp] theorem State.seqWrite_listInRange (i : Nat) (v : Word) (s : State) : (s.seqWrite i v).listInRange = s.listInRange := rfl
@[simp] theorem State.seqWrite_destInRange (i : Nat) (v : Word) (s : State) : (s.seqWrite i v).destInRange = s.destInRange := rfl
@[simp] theorem State.seqWrite_inDest (i : Nat) (v : Word) (s : State) (j : Nat) : (s.seqWrite i v).inDest j = s.inDest j := rfl

@[simp] theorem State.drawn_listInRange (s : State) : (s.drawn).listInRange = s.listInRange := rfl
@[simp] theorem State.drawn_destInRange (s : State) : (s.drawn).destInRange = s.destInRange := rfl
@[simp] theorem State.drawn_inDest (s : State) (j : Nat) : (s.drawn).inDest j = s.inDest j := rfl

@[simp] theorem State.setStream_listInRange (p : Bool) (b : Stream) (s : State) : (s.setStream p b).listInRange = s.listInRange := rfl
@[simp] theorem State.setStream_destInRange (p : Bool) (b : Stream) (s : State) : (s.setStream p b).destInRange = s.destInRange := rfl
@[simp] theorem State.setStream_inDest (p : Bool) (b : Stream) (s : State) (j : Nat) : (s.setStream p b).inDest j = s.inDest j := rfl

@[simp] theorem State.returned_listInRange (v : Word) (s : State) : (s.returned v).listInRange = s.listInRange := rfl
@[simp] theorem State.returned_destInRange (v : Word) (s : State) : (s.returned v).destInRange = s.destInRange := rfl
@[simp] theorem State.returned_inDest (v : Word) (s : State) (j : Nat) : (s.returned v).inDest j = s.inDest j := rfl

@[simp] theorem State.setWork_listInRange (w : Work) (s : State) : (s.setWork w).listInRange = s.listInRange := rfl
@[simp] theorem State.setWork_destInRange (w : Work) (s : State) : (s.setWork w).destInRange = s.destInRange := rfl
@[simp] theorem State.setWork_inDest (w : Work) (s : State) (j : Nat) : (s.setWork w).inDest j = s.inDest j := rfl

@[simp] theorem State.withInbox_listInRange (ts : List Turn) (s : State) : (s.withInbox ts).listInRange = s.listInRange := rfl
@[simp] theorem State.withInbox_destInRange (ts : List Turn) (s : State) : (s.withInbox ts).destInRange = s.destInRange := rfl
@[simp] theorem State.withInbox_inDest (ts : List Turn) (s : State) (j : Nat) : (s.withInbox ts).inDest j = s.inDest j := rfl

@[simp] theorem State.seqWriteAll_listInRange (i : Nat) (vs : List Word) (s : State) : (s.seqWriteAll i vs).listInRange = s.listInRange := rfl
@[simp] theorem State.seqWriteAll_destInRange (i : Nat) (vs : List Word) (s : State) : (s.seqWriteAll i vs).destInRange = s.destInRange := rfl
@[simp] theorem State.seqWriteAll_inDest (i : Nat) (vs : List Word) (s : State) (j : Nat) : (s.seqWriteAll i vs).inDest j = s.inDest j := rfl

@[simp] theorem State.openCursor_listInRange (s : State) : (s.openCursor).listInRange = s.listInRange := rfl
@[simp] theorem State.openCursor_destInRange (s : State) : (s.openCursor).destInRange = s.destInRange := rfl
@[simp] theorem State.openCursor_inDest (s : State) (j : Nat) : (s.openCursor).inDest j = s.inDest j := rfl

@[simp] theorem State.emit_listInRange (c : Cursor) (k : Nat) (v : Word) (s : State) : (s.emit c k v).listInRange = s.listInRange := rfl
@[simp] theorem State.emit_destInRange (c : Cursor) (k : Nat) (v : Word) (s : State) : (s.emit c k v).destInRange = s.destInRange := rfl
@[simp] theorem State.emit_inDest (c : Cursor) (k : Nat) (v : Word) (s : State) (j : Nat) : (s.emit c k v).inDest j = s.inDest j := rfl

@[simp] theorem State.accept_seqRead (op : Opcode) (s : State) (j : Nat) : (s.accept op).seqRead j = s.seqRead j := rfl
@[simp] theorem State.reject_seqRead (s : State) (j : Nat) : (s.reject).seqRead j = s.seqRead j := rfl
@[simp] theorem State.completeWith_seqRead (e : BitVec 4) (v : Word) (s : State) (j : Nat) : (s.completeWith e v).seqRead j = s.seqRead j := rfl
@[simp] theorem State.complete_seqRead (e : ErrorCode) (v : Word) (s : State) (j : Nat) : (s.complete e v).seqRead j = s.seqRead j := rfl
@[simp] theorem State.finish_seqRead (v : Word) (s : State) (j : Nat) : (s.finish v).seqRead j = s.seqRead j := rfl
@[simp] theorem State.raise_seqRead (e : ErrorCode) (v : Word) (s : State) (j : Nat) : (s.raise e v).seqRead j = s.seqRead j := rfl
@[simp] theorem State.drawn_seqRead (s : State) (j : Nat) : (s.drawn).seqRead j = s.seqRead j := rfl
@[simp] theorem State.setStream_seqRead (p : Bool) (b : Stream) (s : State) (j : Nat) : (s.setStream p b).seqRead j = s.seqRead j := rfl
@[simp] theorem State.returned_seqRead (v : Word) (s : State) (j : Nat) : (s.returned v).seqRead j = s.seqRead j := rfl
@[simp] theorem State.setWork_seqRead (w : Work) (s : State) (j : Nat) : (s.setWork w).seqRead j = s.seqRead j := rfl
@[simp] theorem State.withInbox_seqRead (ts : List Turn) (s : State) (j : Nat) : (s.withInbox ts).seqRead j = s.seqRead j := rfl
@[simp] theorem State.openCursor_seqRead (s : State) (j : Nat) : (s.openCursor).seqRead j = s.seqRead j := rfl

@[simp] theorem Status.completed_busy (e : BitVec 4) (st : Status) : (st.completed e).busy = false := rfl
@[simp] theorem Status.completed_done (e : BitVec 4) (st : Status) : (st.completed e).done = true := rfl
@[simp] theorem Status.completed_rej (e : BitVec 4) (st : Status) : (st.completed e).rej = st.rej := rfl
@[simp] theorem Status.completed_err (e : BitVec 4) (st : Status) : (st.completed e).err = e := rfl
@[simp] theorem Status.rejected_busy (st : Status) : st.rejected.busy = st.busy := rfl
@[simp] theorem Status.rejected_done (st : Status) : st.rejected.done = st.done := rfl
@[simp] theorem Status.rejected_rej (st : Status) : st.rejected.rej = true := rfl
@[simp] theorem Status.rejected_err (st : Status) : st.rejected.err = st.err := rfl
@[simp] theorem Status.accepted_busy : Status.accepted.busy = true := rfl
@[simp] theorem Status.accepted_done : Status.accepted.done = false := rfl
@[simp] theorem Status.accepted_rej : Status.accepted.rej = false := rfl
@[simp] theorem Status.accepted_err : Status.accepted.err = ErrorCode.ok.code := rfl
@[simp] theorem Status.cleared_busy : Status.cleared.busy = false := rfl
@[simp] theorem Status.cleared_done : Status.cleared.done = false := rfl
@[simp] theorem Status.cleared_rej : Status.cleared.rej = false := rfl
@[simp] theorem Status.cleared_err : Status.cleared.err = ErrorCode.ok.code := rfl

end Sys2Proof.Machine
end

