-- ==== Sys2Proof/Laws/Memory.lean ====
section
/-! SUPPORT. `SEQ` as a memory: a read after a write, other entries, the canonical form, the range of indices. -/

namespace Sys2Proof.Machine

/-- The buffer check in the registers' own names (43_gap_decoder.md R151). -/
theorem destInRange_iff {s : State} :
    s.destInRange = true ↔ s.arg1.toNat + s.arg2.toNat ≤ s.cap.entries := by
  rw [State.destInRange, decide_eq_true_iff]
  rfl

/-- The range check in the registers' own names (42_trial_division.md R140). -/
theorem listInRange_iff {s : State} :
    s.listInRange = true ↔ s.arg1.toNat + s.arg2.toNat ≤ s.cap.entries := by
  rw [State.listInRange, decide_eq_true_iff]
  rfl

@[simp] theorem Memory.find_write_same (m : Memory) (i : Nat) (v : Word) : (m.write i v).find i = some v := by
  induction m with
  | nil => simp [Memory.write, Memory.find]
  | cons e m ih =>
    obtain ⟨a, w⟩ := e
    unfold Memory.write
    split_ifs with h1 h2
    · simp [Memory.find]
    · simp [Memory.find]
    · simp [Memory.find, ih, Ne.symm h2]

theorem Memory.find_write_other (m : Memory) {i j : Nat} (v : Word) (h : j ≠ i) :
    (m.write i v).find j = m.find j := by
  induction m with
  | nil => simp [Memory.write, Memory.find, Ne.symm h]
  | cons e m ih =>
    obtain ⟨a, w⟩ := e
    unfold Memory.write
    split_ifs with h1 h2
    · simp [Memory.find, Ne.symm h]
    · subst h2
      simp [Memory.find, Ne.symm h]
    · by_cases ha : a = j <;> simp [Memory.find, ih, ha]

theorem Memory.mem_write {m : Memory} {i : Nat} {v : Word} {e : Nat × Word} (h : e ∈ m.write i v) :
    e = (i, v) ∨ e ∈ m := by
  induction m with
  | nil => simpa [Memory.write] using h
  | cons x m ih =>
    obtain ⟨a, w⟩ := x
    unfold Memory.write at h
    split_ifs at h with h1 h2
    · simpa using h
    · rcases List.mem_cons.1 h with rfl | h
      · exact .inl rfl
      · exact .inr (List.mem_cons_of_mem _ h)
    · rcases List.mem_cons.1 h with rfl | h
      · simp
      · rcases ih h with rfl | h
        · exact .inl rfl
        · exact .inr (List.mem_cons_of_mem _ h)

/-- A write keeps the canonical form. -/
theorem Memory.wf_write {m : Memory} (i : Nat) (v : Word) (h : Memory.wf m) : Memory.wf (m.write i v) := by
  induction m with
  | nil => simp [Memory.write]
  | cons x m ih =>
    obtain ⟨a, w⟩ := x
    obtain ⟨hx, hm⟩ := List.pairwise_cons.1 h
    unfold Memory.write
    split_ifs with h1 h2
    · refine List.pairwise_cons.2 ⟨fun e he => ?_, h⟩
      rcases List.mem_cons.1 he with rfl | he
      · exact h1
      · exact h1.trans (hx e he)
    · subst h2
      exact List.pairwise_cons.2 ⟨hx, hm⟩
    · refine List.pairwise_cons.2 ⟨fun e he => ?_, ih hm⟩
      rcases Memory.mem_write he with rfl | he
      · show a < i
        omega
      · exact hx e he

/-- A write keeps the range of indices. -/
theorem Memory.bound_write {m : Memory} {i n : Nat} {v : Word} (hi : i < n) (h : ∀ e ∈ m, e.1 < n) :
    ∀ e ∈ m.write i v, e.1 < n := by
  intro e he
  rcases Memory.mem_write he with rfl | he
  · exact hi
  · exact h e he

@[simp] theorem State.seqRead_seqWrite_same (s : State) (i : Nat) (v : Word) :
    (s.seqWrite i v).seqRead i = v := by
  simp [State.seqRead]

theorem State.seqRead_seqWrite_other (s : State) {i j : Nat} (v : Word) (h : j ≠ i) :
    (s.seqWrite i v).seqRead j = s.seqRead j := by
  simp [State.seqRead, Memory.find_write_other _ v h]

theorem Memory.find_writeAll_before (m : Memory) {i j : Nat} (vs : List Word) (h : j < i) :
    (m.writeAll i vs).find j = m.find j := by
  induction vs generalizing m i with
  | nil => rfl
  | cons v vs ih =>
    rw [Memory.writeAll, ih _ (by omega), Memory.find_write_other _ _ (by omega)]

theorem Memory.find_writeAll_after (m : Memory) {i j : Nat} (vs : List Word) (h : i + vs.length ≤ j) :
    (m.writeAll i vs).find j = m.find j := by
  induction vs generalizing m i with
  | nil => rfl
  | cons v vs ih =>
    simp only [List.length_cons] at h
    rw [Memory.writeAll, ih _ (by omega), Memory.find_write_other _ _ (by omega)]

/-- What a row of values leaves at each of its entries. -/
theorem Memory.find_writeAll_at (m : Memory) (i k : Nat) (vs : List Word) (h : k < vs.length) :
    (m.writeAll i vs).find (i + k) = some vs[k] := by
  induction vs generalizing m i k with
  | nil => simp at h
  | cons v vs ih =>
    rw [Memory.writeAll]
    cases k with
    | zero => rw [Memory.find_writeAll_before _ _ (by omega)]; simp
    | succ k =>
      have h' : k < vs.length := by simpa using h
      have := ih (m.write i v) (i + 1) k h'
      rw [show i + (k + 1) = i + 1 + k by omega, this]
      simp

theorem Memory.wf_writeAll {m : Memory} (i : Nat) (vs : List Word) (h : Memory.wf m) :
    Memory.wf (m.writeAll i vs) := by
  induction vs generalizing m i with
  | nil => exact h
  | cons v vs ih => exact ih _ (Memory.wf_write _ _ h)

end Sys2Proof.Machine
end

