-- ==== Sys2Proof/Laws/Decode.lean ====
section
/-! SUPPORT. The decoder and the encoder: what the bytes of a value are worth, what each source reads. -/

namespace Sys2Proof

theorem leValue_wordBytes (w : Word) : leValue (wordBytes w) = w.toNat := by
  have h := w.isLt
  simp only [wordBytes, leValue, BitVec.extractLsb'_toNat, Nat.shiftRight_eq_div_pow]
  omega

theorem leValue_delta (d : BitVec 16) : leValue [d.extractLsb' 0 8, d.extractLsb' 8 8] = d.toNat := by
  have h := d.isLt
  simp only [leValue, BitVec.extractLsb'_toNat, Nat.shiftRight_eq_div_pow]
  omega

@[simp] theorem wordBytes_length (w : Word) : (wordBytes w).length = 8 := rfl

@[simp] theorem encode_length (i : Instr) : (encode i).length = i.source.size := by
  cases i <;> rfl

/-- The decoder on a whole instruction's bytes with anything after them. -/
theorem decode_append (src : Source) (bytes rest : List Byte) (h : bytes.length = src.size) :
    decode src (bytes ++ rest) = .ok (src.instr (leValue bytes), rest) := by
  simp [decode, ← h]

/-- The decoder refuses exactly the bytes that are too few. -/
theorem decode_error_iff (src : Source) (bytes : List Byte) (e : DecodeError) :
    decode src bytes = .error e ↔ bytes.length < src.size ∧ e = src.tooShort := by
  unfold decode
  split_ifs with h
  · simp [h, eq_comm]
  · simp [h]

theorem decode_ok_iff (src : Source) (bytes rest : List Byte) (i : Instr) :
    decode src bytes = .ok (i, rest) ↔
      src.size ≤ bytes.length ∧ i = src.instr (leValue (bytes.take src.size)) ∧ rest = bytes.drop src.size := by
  unfold decode
  split_ifs with h
  · simp [Nat.not_le.2 h]
  · simp [Nat.not_lt.1 h, eq_comm]

theorem decodeCmd_wf (w : Word) : (decodeCmd w).wf = true := by
  unfold decodeCmd
  split_ifs <;> simp_all [Instr.wf]

theorem decodeCmd_badCommand {w : Word} (h : w ≠ 1#64 ∧ w ≠ 2#64 ∧ w ≠ 3#64 ∧ w ≠ 4#64) :
    decodeCmd w = .badCommand w := by
  simp [decodeCmd, h.1, h.2.1, h.2.2.1, h.2.2.2]

theorem commandOpcode_instr (w : Word) :
    (commandOpcode w).instr = decodeCmd w ∨ (commandOpcode w = .badCommand ∧ decodeCmd w = .badCommand w) := by
  unfold commandOpcode decodeCmd
  split_ifs <;> simp [Instr.opcode?, Opcode.instr]

/-- A record is all that a stream source gives. -/
theorem instr_anchor (v : Nat) : Source.instr .anchor v = .nccAnchor (BitVec.ofNat 64 v) := rfl

theorem instr_delta (v : Nat) :
    Source.instr .delta v = .nccSentinel ∨ ∃ d, d ≠ 0#16 ∧ Source.instr .delta v = .nccDelta d := by
  by_cases h : BitVec.ofNat 16 v = 0#16
  · exact .inl (by simp [Source.instr, decodeDelta, h])
  · exact .inr ⟨_, h, by simp [Source.instr, decodeDelta, h]⟩

/-- Eight bytes are the bytes of the value they stand for. -/
theorem wordBytes_ofLe (b0 b1 b2 b3 b4 b5 b6 b7 : Byte) :
    wordBytes (BitVec.ofNat 64 (leValue [b0, b1, b2, b3, b4, b5, b6, b7])) = [b0, b1, b2, b3, b4, b5, b6, b7] := by
  have := b0.isLt
  have := b1.isLt
  have := b2.isLt
  have := b3.isLt
  have := b4.isLt
  have := b5.isLt
  have := b6.isLt
  have := b7.isLt
  simp only [wordBytes, List.cons.injEq, and_true]
  refine ⟨?_, ?_, ?_, ?_, ?_, ?_, ?_, ?_⟩ <;> apply BitVec.eq_of_toNat_eq <;>
    simp only [leValue, BitVec.extractLsb'_toNat, BitVec.toNat_ofNat, Nat.shiftRight_eq_div_pow] <;> omega

/-- A command word is encoded by its own bytes, legal or not. -/
theorem encode_decodeCmd (w : Word) : encode (decodeCmd w) = wordBytes w := by
  unfold decodeCmd
  split_ifs with h1 h2 h3 h4
  all_goals (subst_vars; rfl)

end Sys2Proof
end

