-- ==== Sys2Proof/Laws/GapDecoder.lean ====
section
/-! SUPPORT. The decode loop: what one turn can do, how many turns it takes, and what it leaves (43_gap_decoder.md). -/

namespace Sys2Proof.Machine

theorem recordCursor_eq_some {m : Mode} {s : State} {c : Cursor} :
    s.recordCursor m = some c ↔
      s.work = some (.cursor c) ∧ c.mode = m ∧ c.cnt < s.length ∧ s.destInRange = true := by
  unfold State.recordCursor
  split
  · rename_i c' hw
    split_ifs with h
    · constructor
      · rintro h'
        obtain rfl : c' = c := by simpa using h'
        exact ⟨hw, h⟩
      · rintro ⟨h', -⟩
        rw [hw] at h'
        simpa using h'
    · simp only [false_iff]
      rintro ⟨h', h''⟩
      rw [hw] at h'
      obtain rfl : c' = c := by simpa using h'
      exact h h''
  · rename_i hw
    simp only [reduceCtorEq, false_iff]
    rintro ⟨h', -⟩
    exact hw c h'

theorem execNccAnchor_next {a : Word} {s : State} {c : Cursor} (h : s.recordCursor .anchor = some c) :
    execNccAnchor a s = .next (s.emit c 8 a) := by simp [execNccAnchor, h]

theorem execNccSentinel_next {s : State} {c : Cursor} (h : s.recordCursor .delta = some c) :
    execNccSentinel s =
      .next (s.setWork (.cursor { c with p := c.p + 2, mode := .anchor })) := by
  simp [execNccSentinel, h]

theorem execNccDelta_next {d : BitVec 16} {s : State} {c : Cursor} (h : s.recordCursor .delta = some c) :
    execNccDelta d s = .next (s.emit c 2 (c.last + d.setWidth 64)) := by simp [execNccDelta, h]

/-- A record of the stream runs by its meaning in `exec`. -/
theorem runRecord_eq_exec {i : Instr} (s : State) (h : i.opcode? = none) : runRecord i s = exec i s := by
  cases i <;> first | rfl | simp [Instr.opcode?] at h

theorem instr_opcode_none (m : Mode) (v : Nat) : (m.source.instr v).opcode? = none := by
  cases m
  · rfl
  · rcases instr_delta v with h | ⟨d, -, h⟩ <;> rw [Mode.source, h] <;> rfl

/-- The short reads of R157 and R158. -/
theorem decodeTurn_short {s : State} {c : Cursor} (hc : c.cnt < s.length)
    (h : s.stream.bytes.length < c.p + c.mode.source.size) :
    decodeTurn c s = .next (s.completeDecode c.mode.shortRead c.cnt) := by
  have hl : (s.streamFrom c.p).length < c.mode.source.size := by
    simp only [State.streamFrom, List.length_drop]
    have : 0 < c.mode.source.size := by cases c.mode <;> decide
    omega
  rw [decodeTurn, if_pos hc, (decode_error_iff _ _ _).2 ⟨hl, rfl⟩]

/-- A whole record runs. -/
theorem decodeTurn_record {s : State} {c : Cursor} (hc : c.cnt < s.length)
    (h : c.p + c.mode.source.size ≤ s.stream.bytes.length) :
    decodeTurn c s =
      runRecord (c.mode.source.instr (leValue ((s.streamFrom c.p).take c.mode.source.size))) s := by
  have hl : c.mode.source.size ≤ (s.streamFrom c.p).length := by
    simp only [State.streamFrom, List.length_drop]; omega
  rw [decodeTurn, if_pos hc, (decode_ok_iff _ _ _ _).2 ⟨hl, rfl, rfl⟩]

theorem decodeTurn_stop {s : State} {c : Cursor} (hc : s.length ≤ c.cnt) :
    decodeTurn c s = .next (s.completeDecode .ok c.cnt) := by
  rw [decodeTurn, if_neg (by omega)]

/-- How many records the loop reads at most from here: an anchor position costs one less than a delta position, which
may hold a sentinel (R167). -/
def Cursor.budget (c : Cursor) (length : Nat) : Nat :=
  2 * (length - c.cnt) - (match c.mode with | .anchor => 1 | .delta => 0)

/-- One turn of a running DECODE: it completes, or it goes on with another cursor that needs fewer records, and nothing
but the working variables and the entry `DEST_BASE + cnt` has changed. -/
theorem decodeTurn_cases {s : State} {c : Cursor} (hw : s.work = some (.cursor c)) (hr : s.destInRange = true) :
    (∃ e, decodeTurn c s = .next (s.completeDecode e c.cnt)) ∨
    (∃ c', c'.budget s.length < c.budget s.length ∧ c.cnt < s.length ∧
      (decodeTurn c s = .next (s.setWork (.cursor c')) ∧ c'.cnt = c.cnt ∧ c'.mode = .anchor ∨
       (∃ v, decodeTurn c s = .next ((s.seqWrite (s.destBase + c.cnt) v).setWork (.cursor c'))) ∧
        c'.cnt = c.cnt + 1 ∧ c'.mode = .delta) ∧
      c'.p ≤ s.stream.bytes.length) := by
  by_cases hc : c.cnt < s.length
  · by_cases hp : c.p + c.mode.source.size ≤ s.stream.bytes.length
    · refine .inr ?_
      rw [decodeTurn_record hc hp]
      cases hm : c.mode with
      | anchor =>
        have h : s.recordCursor .anchor = some c := recordCursor_eq_some.2 ⟨hw, hm, hc, hr⟩
        simp only [Mode.source, instr_anchor, runRecord, execNccAnchor_next h]
        refine ⟨_, ?_, hc, .inr ⟨⟨_, rfl⟩, rfl, rfl⟩, by simpa [hm, Mode.source, Source.size] using hp⟩
        simp only [Cursor.budget, hm]; omega
      | delta =>
        have h : s.recordCursor .delta = some c := recordCursor_eq_some.2 ⟨hw, hm, hc, hr⟩
        have hp' : c.p + 2 ≤ s.stream.bytes.length := by simpa [hm, Mode.source, Source.size] using hp
        rcases instr_delta (leValue ((s.streamFrom c.p).take Mode.delta.source.size)) with hi | ⟨d, -, hi⟩
        · simp only [Mode.source] at hi ⊢
          simp only [hi, runRecord, execNccSentinel_next h]
          refine ⟨_, ?_, hc, .inl ⟨rfl, rfl, rfl⟩, hp'⟩
          simp only [Cursor.budget, hm]; omega
        · simp only [Mode.source] at hi ⊢
          simp only [hi, runRecord, execNccDelta_next h]
          refine ⟨_, ?_, hc, .inr ⟨⟨_, rfl⟩, rfl, rfl⟩, hp'⟩
          simp only [Cursor.budget, hm]; omega
    · exact .inl ⟨_, decodeTurn_short hc (by omega)⟩
  · exact .inl ⟨_, decodeTurn_stop (by omega)⟩

/-! Completion of a DECODE. -/

theorem scramble_work (k i : Nat) (s : State) (w : Option Work) :
    State.scramble k i { s with work := w } = { State.scramble k i s with work := w } := by
  induction k generalizing i s with
  | zero => rfl
  | succ k ih => exact ih (i + 1) (s.seqWrite i s.freshWord).drawn

theorem completeDecode_work (e : ErrorCode) (n : Nat) (s : State) (w : Option Work) :
    ({ s with work := w } : State).completeDecode e n = s.completeDecode e n := by
  have key : ({ s with work := w } : State).completeDecode e n =
      if s.streamMoved then
        let t := State.scramble s.destEntries s.destBase { s with work := w }
        t.drawn.completeWith (Config.freeCode t.tick) t.freshWord
      else s.complete e (BitVec.ofNat 64 n) := rfl
  rw [key, scramble_work]
  rfl

@[simp] theorem completeDecode_setWork (e : ErrorCode) (n : Nat) (s : State) (w : Work) :
    (s.setWork w).completeDecode e n = s.completeDecode e n := completeDecode_work e n s (some w)

theorem completeDecode_still {s : State} (h : s.streamMoved = false) (e : ErrorCode) (n : Nat) :
    s.completeDecode e n = s.complete e (BitVec.ofNat 64 n) := by simp [State.completeDecode, h]

/-- What a row of free values changes. -/
theorem scramble_spec (k i : Nat) (s : State) :
    ∃ m, State.scramble k i s = { s with seq := m, tick := s.tick + k } ∧
      (∀ j, j < i ∨ i + k ≤ j → m.find j = s.seq.find j) ∧
      (∀ j, j < k → m.find (i + j) = some (Config.freeWord (s.tick + j))) ∧
      (Memory.wf s.seq → Memory.wf m) ∧
      (∀ n, i + k ≤ n → (∀ e ∈ s.seq, e.1 < n) → ∀ e ∈ m, e.1 < n) := by
  induction k generalizing i s with
  | zero => exact ⟨s.seq, rfl, fun _ _ => rfl, fun j hj => by omega, id, fun _ _ h => h⟩
  | succ k ih =>
    obtain ⟨m, h1, h2, h3, h4, h5⟩ := ih (i + 1) (s.seqWrite i s.freshWord).drawn
    refine ⟨m, ?_, ?_, ?_, ?_, ?_⟩
    · rw [State.scramble, h1]
      simp [State.seqWrite, State.drawn, Nat.add_assoc, Nat.add_comm 1 k]
    · intro j hj
      rw [h2 j (by omega)]
      exact Memory.find_write_other _ _ (by omega)
    · intro j hj
      cases j with
      | zero =>
        rw [h2 _ (by omega)]
        exact Memory.find_write_same _ _ _
      | succ j =>
        have := h3 j (by omega)
        rw [show i + 1 + j = i + (j + 1) by omega] at this
        rw [this]
        simp [Nat.add_assoc, Nat.add_comm 1 j]
    · exact fun h => h4 (Memory.wf_write _ _ h)
    · intro n hn h
      exact h5 n (by omega) (Memory.bound_write (by omega) h)

/-! The loop as a whole. -/

theorem anchorHead_short {bytes : List Byte} (h : bytes.length < 8) : anchorHead bytes = .error .shortReadAnchor := by
  match bytes, h with
  | [], _ | [_], _ | [_, _], _ | [_, _, _], _ | [_, _, _, _], _ | [_, _, _, _, _], _ | [_, _, _, _, _, _], _
  | [_, _, _, _, _, _, _], _ => rfl

theorem toNat_append_byte {w : Nat} (x : BitVec w) (b : Byte) : (x ++ b).toNat = x.toNat * 256 + b.toNat := by
  rw [BitVec.toNat_append, ← Nat.shiftLeft_add_eq_or_of_lt b.isLt, Nat.shiftLeft_eq]

theorem leValue_eight (b0 b1 b2 b3 b4 b5 b6 b7 : Byte) :
    BitVec.ofNat 64 (leValue [b0, b1, b2, b3, b4, b5, b6, b7]) = b7 ++ b6 ++ b5 ++ b4 ++ b3 ++ b2 ++ b1 ++ b0 := by
  apply BitVec.eq_of_toNat_eq
  simp only [leValue, BitVec.toNat_ofNat, toNat_append_byte]
  have := b0.isLt
  have := b1.isLt
  have := b2.isLt
  have := b3.isLt
  have := b4.isLt
  have := b5.isLt
  have := b6.isLt
  have := b7.isLt
  omega

theorem anchorHead_eight {bytes : List Byte} (h : 8 ≤ bytes.length) :
    anchorHead bytes = .ok (BitVec.ofNat 64 (leValue (bytes.take 8)), bytes.drop 8) := by
  match bytes, h with
  | b0 :: b1 :: b2 :: b3 :: b4 :: b5 :: b6 :: b7 :: rest, _ =>
    rw [anchorHead]
    simp only [List.take_succ_cons, List.take_zero, List.drop_succ_cons, List.drop_zero, leValue_eight]

theorem leValue_two (b0 b1 : Byte) : BitVec.ofNat 16 (leValue [b0, b1]) = b1 ++ b0 := by
  apply BitVec.eq_of_toNat_eq
  simp only [leValue, BitVec.toNat_ofNat, toNat_append_byte]
  have := b0.isLt
  have := b1.isLt
  omega

theorem append_eq_zero_iff (b0 b1 : Byte) : b1 ++ b0 = 0#16 ↔ b0 = 0#8 ∧ b1 = 0#8 := by
  rw [← BitVec.toNat_inj, ← BitVec.toNat_inj, ← BitVec.toNat_inj, toNat_append_byte]
  simp
  omega

/-- The values of the stream from a cursor on, and how the decode of them ends. -/
def State.upcoming (s : State) (c : Cursor) : List Word × ErrorCode :=
  nccValues (s.length - c.cnt) c.mode c.last (s.streamFrom c.p)

theorem nccValues_error {k : Nat} {mode : Mode} {last : Word} {bytes : List Byte} {e : ErrorCode}
    (h : nextValue last mode bytes = .error e) : nccValues (k + 1) mode last bytes = ([], e) := by
  rw [nccValues, h]

theorem nccValues_ok {k : Nat} {mode : Mode} {last v : Word} {bytes rest : List Byte}
    (h : nextValue last mode bytes = .ok (v, rest)) :
    nccValues (k + 1) mode last bytes =
      (v :: (nccValues k .delta v rest).1, (nccValues k .delta v rest).2) := by
  rw [nccValues, h]

theorem nextValue_short {mode : Mode} {last : Word} {bytes : List Byte} (h : bytes.length < mode.source.size) :
    nextValue last mode bytes = .error mode.shortRead := by
  cases mode with
  | anchor => exact anchorHead_short h
  | delta =>
    match bytes, h with
    | [], _ | [_], _ => rfl

/-- A delta position of two bytes at least, by the record that the decoder reads there. -/
theorem nextValue_delta {last : Word} {bytes : List Byte} (h : 2 ≤ bytes.length) :
    (Source.delta.instr (leValue (bytes.take 2)) = .nccSentinel ∧
      ∀ k, nccValues (k + 1) .delta last bytes = nccValues (k + 1) .anchor last (bytes.drop 2)) ∨
    (∃ d, Source.delta.instr (leValue (bytes.take 2)) = .nccDelta d ∧
      nextValue last .delta bytes = .ok (last + d.setWidth 64, bytes.drop 2)) := by
  match bytes, h with
  | b0 :: b1 :: rest, _ =>
    simp only [List.take_succ_cons, List.take_zero, List.drop_succ_cons, List.drop_zero]
    by_cases hz : b0 = 0#8 ∧ b1 = 0#8
    · refine .inl ⟨?_, fun k => ?_⟩
      · simp [Source.instr, decodeDelta, leValue_two, (append_eq_zero_iff b0 b1).2 hz]
      · simp only [nccValues, nextValue, hz, and_self, if_true]
    · refine .inr ⟨b1 ++ b0, ?_, ?_⟩
      · have : ¬ b1 ++ b0 = 0#16 := fun h => hz ((append_eq_zero_iff b0 b1).1 h)
        simp only [Source.instr, decodeDelta, leValue_two, this, if_false]
      · simp only [nextValue, hz, if_false]

@[simp] theorem completeDecode_work_none (e : ErrorCode) (n : Nat) (s : State) : (s.completeDecode e n).work = none := by
  unfold State.completeDecode
  split_ifs <;> rfl

theorem decodeLoop_idle (k : Nat) {s : State} (h : s.work = none) : decodeLoop k s = .next s := by
  cases k with
  | zero => rfl
  | succ k => rw [decodeLoop, h]

theorem streamFrom_add (s : State) (p k : Nat) : s.streamFrom (p + k) = (s.streamFrom p).drop k := by
  simp [State.streamFrom, List.drop_drop]

theorem streamFrom_length (s : State) (p : Nat) : (s.streamFrom p).length = s.stream.bytes.length - p := by
  simp [State.streamFrom]

theorem decodeLoop_succ {k : Nat} {s t : State} {c : Cursor} (hw : s.work = some (.cursor c))
    (ht : decodeTurn c s = .next t) : decodeLoop (k + 1) s = decodeLoop k t := by
  rw [decodeLoop, hw]
  simp only [ht]

/-- After a value `v` that the cursor emits, the loop's result is that of the cursor before it. -/
theorem loop_result_emit (s : State) (c : Cursor) (v : Word) (j : Nat) (r : List Word × ErrorCode) :
    ((s.emit c j v).seqWriteAll (s.destBase + (c.cnt + 1)) r.1).completeDecode r.2 (c.cnt + 1 + r.1.length) =
    (s.seqWriteAll (s.destBase + c.cnt) (v :: r.1)).completeDecode r.2 (c.cnt + (v :: r.1).length) := by
  rw [List.length_cons, show c.cnt + (r.1.length + 1) = c.cnt + 1 + r.1.length by omega]
  exact completeDecode_setWork _ _ (s.seqWriteAll (s.destBase + c.cnt) (v :: r.1)) _

theorem upcoming_ok {s : State} {c : Cursor} {v : Word} {rest : List Byte} (hlt : c.cnt < s.length)
    (h : nextValue c.last c.mode (s.streamFrom c.p) = .ok (v, rest)) :
    s.upcoming c = (v :: (nccValues (s.length - (c.cnt + 1)) .delta v rest).1,
      (nccValues (s.length - (c.cnt + 1)) .delta v rest).2) := by
  rw [State.upcoming, show s.length - c.cnt = s.length - (c.cnt + 1) + 1 by omega, nccValues_ok h]

theorem upcoming_emit (s : State) (c : Cursor) (j : Nat) (v : Word) :
    (s.emit c j v).upcoming { p := c.p + j, last := v, cnt := c.cnt + 1, mode := .delta } =
      nccValues (s.length - (c.cnt + 1)) .delta v ((s.streamFrom c.p).drop j) := by
  rw [← streamFrom_add]
  rfl

/-- The loop writes the upcoming values and completes with their error (R153, R164, R165). -/
theorem decodeLoop_eq {k : Nat} {s : State} {c : Cursor} (hw : s.work = some (.cursor c))
    (hr : s.destInRange = true) (hk : c.budget s.length < k) (hc : c.cnt ≤ s.length) :
    decodeLoop k s =
      .next ((s.seqWriteAll (s.destBase + c.cnt) (s.upcoming c).1).completeDecode
        (s.upcoming c).2 (c.cnt + (s.upcoming c).1.length)) := by
  induction k generalizing s c with
  | zero => omega
  | succ k ih =>
    -- a record that emits the value `v`, of `j` bytes
    have emitted : ∀ j v, decodeTurn c s = .next (s.emit c j v) → c.cnt < s.length →
        nextValue c.last c.mode (s.streamFrom c.p) = .ok (v, (s.streamFrom c.p).drop j) →
        decodeLoop (k + 1) s =
          .next ((s.seqWriteAll (s.destBase + c.cnt) (s.upcoming c).1).completeDecode
            (s.upcoming c).2 (c.cnt + (s.upcoming c).1.length)) := by
      intro j v hturn hlt hv
      rw [decodeLoop_succ hw hturn, ih (State.emit_work ..) (by simpa using hr) ?_ (by simpa using hlt),
        upcoming_emit, upcoming_ok hlt hv]
      · exact congrArg _ (loop_result_emit s c v j _)
      · simp only [Cursor.budget, State.emit_length] at hk ⊢
        cases hm : c.mode <;> simp only [hm] at hk <;> omega
    by_cases hlt : c.cnt < s.length
    · by_cases hp : c.p + c.mode.source.size ≤ s.stream.bytes.length
      · have hl : c.mode.source.size ≤ (s.streamFrom c.p).length := by rw [streamFrom_length]; omega
        have hturn := decodeTurn_record hlt hp
        cases hm : c.mode with
        | anchor =>
          have h : s.recordCursor .anchor = some c := recordCursor_eq_some.2 ⟨hw, hm, hlt, hr⟩
          rw [hm] at hl hturn
          simp only [Mode.source, instr_anchor, runRecord, execNccAnchor_next h, Source.size] at hl hturn
          exact emitted _ _ hturn hlt (by rw [hm]; exact anchorHead_eight hl)
        | delta =>
          have h : s.recordCursor .delta = some c := recordCursor_eq_some.2 ⟨hw, hm, hlt, hr⟩
          rw [hm] at hl hturn
          simp only [Mode.source, Source.size] at hl hturn
          rcases nextValue_delta (last := c.last) hl with ⟨hi, hv⟩ | ⟨d, hi, hv⟩
          · simp only [hi, runRecord, execNccSentinel_next h] at hturn
            have hup : s.upcoming c =
                (s.setWork (.cursor { c with p := c.p + 2, mode := .anchor })).upcoming
                  { c with p := c.p + 2, mode := .anchor } := by
              have h2 := hv (s.length - (c.cnt + 1))
              rw [← streamFrom_add, show s.length - (c.cnt + 1) + 1 = s.length - c.cnt by omega] at h2
              rw [State.upcoming, hm, h2]
              rfl
            rw [decodeLoop_succ hw hturn,
              ih (c := { c with p := c.p + 2, mode := .anchor }) (State.setWork_work ..) (by simpa using hr) ?_ hc, hup]
            · exact congrArg _ (completeDecode_setWork _ _ (s.seqWriteAll _ _) _)
            · simp only [Cursor.budget, hm] at hk ⊢
              show 2 * (s.length - c.cnt) - 1 < k
              omega
          · simp only [hi, runRecord, execNccDelta_next h] at hturn
            exact emitted _ _ hturn hlt (by rw [hm]; exact hv)
      · have hl : (s.streamFrom c.p).length < c.mode.source.size := by
          have : 0 < c.mode.source.size := by cases c.mode <;> decide
          rw [streamFrom_length]; omega
        have hup : s.upcoming c = ([], c.mode.shortRead) := by
          rw [State.upcoming, show s.length - c.cnt = s.length - (c.cnt + 1) + 1 by omega,
            nccValues_error (nextValue_short hl)]
        rw [decodeLoop_succ hw (decodeTurn_short hlt (by omega)), decodeLoop_idle k (by simp), hup]
        rfl
    · have hup : s.upcoming c = ([], .ok) := by
        rw [State.upcoming, show s.length - c.cnt = 0 by omega, nccValues]
      rw [decodeLoop_succ hw (decodeTurn_stop (by omega)), decodeLoop_idle k (by simp), hup]
      rfl

/-- What DECODE does after its checks (R166): the values of the stream from `START` on. -/
theorem execDecode_eq {s : State} (hr : s.destInRange = true) (hp : s.streamPresent = true) :
    execDecode s =
      .next ((s.seqWriteAll s.destBase
          (nccValues s.length .anchor 0#64 (s.streamFrom s.start)).1).completeDecode
        (nccValues s.length .anchor 0#64 (s.streamFrom s.start)).2
        (nccValues s.length .anchor 0#64 (s.streamFrom s.start)).1.length) := by
  rw [execDecode, hr, hp]
  simp only [Bool.not_true, Bool.false_eq_true, if_false]
  rw [decodeLoop_eq (c := Cursor.begin s.start) rfl (by simpa using hr) ?_ (Nat.zero_le _)]
  · have : s.openCursor.upcoming (Cursor.begin s.start) =
        nccValues s.length .anchor 0#64 (s.streamFrom s.start) := rfl
    rw [this, show (Cursor.begin s.start).cnt = 0 from rfl, Nat.zero_add]
    exact congrArg _ (completeDecode_setWork _ _ (s.seqWriteAll _ _) _)
  · show 2 * (s.length - 0) - 1 < 2 * s.length + 1
    omega

/-- An anchor record at the head of the bytes. -/
theorem anchorHead_wordBytes (a : Word) (rest : List Byte) : anchorHead (wordBytes a ++ rest) = .ok (a, rest) := by
  rw [anchorHead_eight (by simp)]
  rw [List.take_append_of_le_length (by simp), List.take_of_length_le (by simp), leValue_wordBytes]
  rw [BitVec.ofNat_toNat, BitVec.setWidth_eq]
  simp [wordBytes]

theorem deltaValues_length (last : Word) (ds) : (deltaValues last ds).length = ds.length := by
  induction ds generalizing last with
  | nil => rfl
  | cons d ds ih => simp [deltaValues, ih]

/-- A run of delta records gives their running values, and the decode goes on after it. -/
theorem nccValues_deltas (ds : List (BitVec 16)) (hd : ∀ d ∈ ds, d ≠ 0#16) (rest : List Byte) (last : Word)
    (k : Nat) :
  nccValues (ds.length + k) .delta last (ds.flatMap (fun d => encode (.nccDelta d)) ++ rest) =
   (deltaValues last ds ++ (nccValues k .delta ((deltaValues last ds).getLastD last) rest).1,
    (nccValues k .delta ((deltaValues last ds).getLastD last) rest).2) := by
  induction ds generalizing last with
  | nil => simp [deltaValues]
  | cons d ds ih =>
    have hv : nextValue last .delta ((d :: ds).flatMap (fun d => encode (.nccDelta d)) ++ rest) =
       .ok (last + d.setWidth 64, ds.flatMap (fun d => encode (.nccDelta d)) ++ rest) := by
      simp only [List.flatMap_cons, encode, List.cons_append, List.nil_append, nextValue]
      have e : d.extractLsb' 8 8 ++ d.extractLsb' 0 8 = d := by
        have hdl := d.isLt
        apply BitVec.eq_of_toNat_eq
        rw [toNat_append_byte]
        simp only [BitVec.extractLsb'_toNat, Nat.shiftRight_eq_div_pow]
        omega
      rw [if_neg, e]
      intro h
      rw [(append_eq_zero_iff _ _).2 h] at e
      exact hd d (by simp) e.symm
    rw [List.length_cons, show ds.length + 1 + k = (ds.length + k) + 1 by omega, nccValues_ok hv,
      ih (fun d h => hd d (by simp [h]))]
    simp only [deltaValues, List.cons_append]
    rw [show ∀ (l : List Word) (a b : Word), (a :: l).getLastD b = l.getLastD a from fun l a b => by cases l <;> rfl]

/-- A decode of fewer values is a prefix of one that succeeds. -/
theorem nccValues_prefix (k : Nat) : ∀ (n : Nat) (mode last bytes), k ≤ n →
    (nccValues n mode last bytes).1.length = n →
    nccValues k mode last bytes = ((nccValues n mode last bytes).1.take k, .ok) := by
  induction k with
  | zero => intros; simp [nccValues]
  | succ k ih =>
    intro n mode last bytes hk hl
    obtain ⟨n, rfl⟩ : ∃ m, n = m + 1 := ⟨n - 1, by omega⟩
    rw [nccValues] at hl ⊢
    rw [nccValues]
    cases hv : nextValue last mode bytes with
    | error e => rw [hv] at hl; simp at hl
    | ok p =>
      rw [hv] at hl
      simp only [List.length_cons, Nat.add_right_cancel_iff] at hl
      simp only [ih n .delta p.1 p.2 (by omega) hl, List.take_succ_cons]

end Sys2Proof.Machine
end

