-- ==== Sys2Proof/Laws/Isqrt.lean ====
section
/-! SUPPORT. The bisection: its invariant, its width, and what SqrtBound is (41_isqrt_bound.md R121 to R124). -/

namespace Sys2Proof.Machine

theorem isCeilSqrt_of_bounds {n lo hi : Nat} (h1 : lo * lo < n) (h2 : n ≤ hi * hi) (h : hi ≤ lo + 1) :
    IsCeilSqrt n hi := by
  refine ⟨h2, fun q hq => ?_⟩
  by_contra hlt
  have : q * q ≤ lo * lo := Nat.mul_self_le_mul_self (by omega)
  omega

theorem isCeilSqrt_of_square {c : Nat} : IsCeilSqrt (c * c) c :=
  ⟨le_rfl, fun _ hq => Nat.mul_self_le_mul_self_iff.1 hq⟩

theorem IsCeilSqrt.unique {n r q : Nat} (h : IsCeilSqrt n r) (h' : IsCeilSqrt n q) : r = q :=
  Nat.le_antisymm (h.2 _ h'.1) (h'.2 _ h.1)

theorem IsCeilSqrt.le_of_le {n r m : Nat} (h : IsCeilSqrt n r) (hm : n ≤ m * m) : r ≤ m := h.2 _ hm

theorem IsCeilSqrt.lt_of_lt {n r m : Nat} (h : IsCeilSqrt n r) (hm : m * m < n) : m < r := by
  by_contra hlt
  have : r * r ≤ m * m := Nat.mul_self_le_mul_self (by omega)
  have := h.1
  omega

theorem midpoint_bounds {lo hi : Nat} (h : lo + 1 < hi) : lo < midpoint lo hi ∧ midpoint lo hi < hi := by
  unfold midpoint; omega

/-- The loop's head: the bounds go on with their midpoint, or the upper one is the ceiling square root. -/
theorem bisectHead_cases {n lo hi : Nat} (h1 : lo * lo < n) (h2 : n ≤ hi * hi) (h3 : hi ≤ 2 ^ 32) :
    (bisectHead lo hi = .more { lo := lo, hi := hi, c := midpoint lo hi } ∧
      Bisect.Inv n { lo := lo, hi := hi, c := midpoint lo hi }) ∨
    (bisectHead lo hi = .done hi ∧ hi ≤ lo + 1 ∧ IsCeilSqrt n hi) := by
  unfold bisectHead
  split_ifs with h
  · exact .inl ⟨rfl, h1, h2, h3, by show lo + 1 < hi; omega, rfl⟩
  · exact .inr ⟨rfl, by omega, isCeilSqrt_of_bounds h1 h2 (by omega)⟩

/-- One iteration: it goes on in the invariant with at most half the width, or it has found the ceiling square root. -/
theorem bisectNext_cases {n : Nat} {v : Bisect} (h : v.Inv n) :
    (∃ v', bisectNext n v = .more v' ∧ v'.Inv n ∧ v'.hi - v'.lo ≤ (v.hi - v.lo + 1) / 2) ∨
    (∃ r, bisectNext n v = .done r ∧ IsCeilSqrt n r ∧ r ≤ 2 ^ 32) := by
  obtain ⟨hlo, hhi, h32, hw, hc⟩ := h
  obtain ⟨m1, m2⟩ := midpoint_bounds hw
  have hm : midpoint v.lo v.hi = v.lo + (v.hi - v.lo) / 2 := rfl
  unfold bisectNext
  split_ifs with ha hb
  · rcases bisectHead_cases ha hhi h32 with ⟨e, hi⟩ | ⟨e, -, hs⟩
    · exact .inl ⟨_, e, hi, by show v.hi - v.c ≤ _; omega⟩
    · exact .inr ⟨_, e, hs, h32⟩
  · rcases bisectHead_cases hlo hb.le (by omega : v.c ≤ 2 ^ 32) with ⟨e, hi⟩ | ⟨e, -, hs⟩
    · exact .inl ⟨_, e, hi, by show v.c - v.lo ≤ _; omega⟩
    · exact .inr ⟨_, e, hs, by omega⟩
  · have : n = v.c * v.c := by omega
    exact .inr ⟨_, rfl, this ▸ isCeilSqrt_of_square, by omega⟩

/-- `k` iterations are enough for a width of `2^k` (R124). -/
theorem bisectLoop_spec {n k : Nat} {v : Bisect} (h : v.Inv n) (hk : v.hi - v.lo ≤ 2 ^ k) :
    IsCeilSqrt n (bisectLoop k n v) ∧ bisectLoop k n v ≤ 2 ^ 32 := by
  induction k generalizing v with
  | zero =>
    have := h.2.2.2.1
    simp at hk
    omega
  | succ k ih =>
    rw [bisectLoop]
    rcases bisectNext_cases h with ⟨v', e, hv', hw⟩ | ⟨r, e, hr⟩
    · rw [e]
      exact ih hv' (by rw [pow_succ] at hk; omega)
    · rw [e]
      exact hr

theorem sqrtStart_of_le {n : Nat} (h : n ≤ 2) : sqrtStart n = .done n := by simp [sqrtStart, h]

/-- The bisection starts with a width of `2^32` (R120). -/
theorem sqrtStart_of_gt {n : Nat} (h : 2 < n) (h' : n < 2 ^ 64) :
    ∃ v, sqrtStart n = .more v ∧ v.Inv n ∧ v.hi - v.lo = 2 ^ 32 := by
  refine ⟨{ lo := 0, hi := 2 ^ 32, c := midpoint 0 (2 ^ 32) }, ?_, ⟨?_, ?_, ?_, ?_, rfl⟩, rfl⟩
  · simp [sqrtStart, bisectHead, Nat.not_le.2 h]
  all_goals simp; try omega

theorem isCeilSqrt_of_le_two {n : Nat} (h : n ≤ 2) : IsCeilSqrt n n := by
  refine ⟨by nlinarith [Nat.le_mul_self n], fun q hq => ?_⟩
  by_contra hlt
  have : q = 0 ∨ q = 1 := by omega
  rcases this with rfl | rfl <;> omega

/-- The ceiling square root of a 64-bit number is at most `2^32` (R122). -/
theorem IsCeilSqrt.le_two_pow_32 {n r : Nat} (h : IsCeilSqrt n r) (hn : n < 2 ^ 64) : r ≤ 2 ^ 32 :=
  h.2 _ (by norm_num; omega)

/-- SqrtBound is the ceiling square root, and at most `2^32` (R121, R122). -/
theorem sqrtBound_spec {n : Nat} (h : n < 2 ^ 64) : IsCeilSqrt n (sqrtBound n) ∧ sqrtBound n ≤ 2 ^ 32 := by
  by_cases h2 : n ≤ 2
  · rw [sqrtBound, sqrtStart_of_le h2]
    exact ⟨isCeilSqrt_of_le_two h2, by show n ≤ _; omega⟩
  · obtain ⟨v, e, hv, hw⟩ := sqrtStart_of_gt (Nat.not_le.1 h2) h
    rw [sqrtBound, e]
    exact bisectLoop_spec hv hw.le

theorem sqrtBound_eq {n b : Nat} (h : n < 2 ^ 64) (hb : IsCeilSqrt n b) : sqrtBound n = b :=
  (sqrtBound_spec h).1.unique hb

end Sys2Proof.Machine
end

