-- ==== Sys2Proof/Laws/TrialDivision.lean ====
section
/-! SUPPORT. The trial division and the list walk (42_trial_division.md). -/

namespace Sys2Proof.Machine

theorem fastPath_none_iff {n : Nat} : fastPath n = none ↔ Slow n := by
  unfold fastPath Slow
  split_ifs <;> simp <;> omega

/-- The fast path answers primality (R130). -/
theorem fastPath_prime {n : Nat} {r : Bool} (h : fastPath n = some r) : r = true ↔ n.Prime := by
  unfold fastPath at h
  split_ifs at h with h1 h2 h3
  · obtain rfl : false = r := by simpa using h
    have : ¬ n.Prime := fun hp => by have := hp.two_le; omega
    simp [this]
  · obtain rfl : true = r := by simpa using h
    rcases h2 with rfl | rfl
    · simp [Nat.prime_two]
    · simp [Nat.prime_three]
  · obtain rfl : false = r := by simpa using h
    have : ¬ n.Prime := fun hp => by
      rcases hp.eq_one_or_self_of_dvd 2 (Nat.dvd_of_mod_eq_zero h3) with h | h <;> omega
    simp [this]

theorem Slow.sqrtBound_ge {n : Nat} (h : Slow n) (h' : n < 2 ^ 64) : 3 ≤ sqrtBound n := by
  have := (sqrtBound_spec h').1.lt_of_lt (m := 2) (by have := h.1; omega)
  omega

/-- What the division loop answers: no second number from `d` up to `b` divides `n`. -/
theorem divideLoop_iff {k n b d : Nat} (h : b < d + 2 * k) :
    divideLoop k n { b := b, d := d } = true ↔ ∀ j, d + 2 * j ≤ b → ¬ d + 2 * j ∣ n := by
  induction k generalizing d with
  | zero => simp only [divideLoop, true_iff]; intro j hj; omega
  | succ k ih =>
    rw [divideLoop, divideNext]
    by_cases h1 : d ≤ b
    · by_cases h2 : n % d = 0
      · simp only [h1, h2, if_true, Bool.false_eq_true, false_iff]
        intro hall
        exact hall 0 (by simpa using h1) (by simpa using Nat.dvd_of_mod_eq_zero h2)
      · simp only [h1, h2, if_true, if_false]
        rw [ih (by omega)]
        constructor
        · intro hall j hj
          cases j with
          | zero => simpa using fun hd => h2 (Nat.mod_eq_zero_of_dvd hd)
          | succ j =>
            have := hall j (by omega)
            rwa [show d + 2 + 2 * j = d + 2 * (j + 1) by ring] at this
        · intro hall j hj
          have := hall (j + 1) (by omega)
          rwa [show d + 2 * (j + 1) = d + 2 + 2 * j by ring] at this
    · rw [if_neg h1]
      exact iff_of_true rfl (fun j hj => by omega)

/-- The same by odd divisors, from an odd `d` on (R130, R138). -/
theorem noDivisorFrom_iff {n b d : Nat} (hd : 3 ≤ d) (hodd : d % 2 = 1) :
    noDivisorFrom n b d = true ↔ ∀ q, q % 2 = 1 → d ≤ q → q ≤ b → ¬ q ∣ n := by
  rw [noDivisorFrom, divideLoop_iff (by omega)]
  constructor
  · intro h q hq h1 h2
    have := h ((q - d) / 2) (by omega)
    rwa [show d + 2 * ((q - d) / 2) = q by omega] at this
  · intro h j hj
    exact h _ (by omega) (by omega) hj

/-- A candidate left over by the fast path is prime when no odd number from 3 up to the bound divides it (R131). -/
theorem slow_prime_iff {n b : Nat} (h : Slow n) (hb : IsCeilSqrt n b) :
    (∀ q, q % 2 = 1 → 3 ≤ q → q ≤ b → ¬ q ∣ n) ↔ n.Prime := by
  obtain ⟨h5, hodd⟩ := h
  have hbn : b < n := by
    have : b ≤ n - 1 := hb.2 _ (by
      obtain ⟨m, rfl⟩ : ∃ m, n = m + 5 := ⟨n - 5, by omega⟩
      rw [show m + 5 - 1 = m + 4 by omega]
      nlinarith)
    omega
  constructor
  · intro hall
    by_contra hnp
    have hp := Nat.minFac_prime (show n ≠ 1 by omega)
    have hsq := Nat.minFac_sq_le_self (by omega : 0 < n) hnp
    have hdvd := Nat.minFac_dvd n
    have hodd' : n.minFac % 2 = 1 := by
      rcases hp.eq_two_or_odd with h2 | h2
      · rw [h2] at hdvd; omega
      · exact h2
    have hge : 3 ≤ n.minFac := by have := hp.two_le; omega
    refine hall _ hodd' hge ?_ hdvd
    have := hb.1
    by_contra hlt
    have h3 : b * b < n.minFac * n.minFac := Nat.mul_self_lt_mul_self (by omega)
    rw [sq] at hsq
    omega
  · intro hp q _ h3 hqb hd
    rcases (Nat.dvd_prime hp).1 hd with h | h <;> omega

/-- IsPrime computes primality (R131). -/
theorem isPrime_iff {n : Nat} (h : n < 2 ^ 64) : isPrime n = true ↔ n.Prime := by
  unfold isPrime
  cases hf : fastPath n with
  | some r => exact fastPath_prime hf
  | none =>
    have hs := fastPath_none_iff.1 hf
    rw [noDivisorFrom_iff le_rfl rfl]
    exact slow_prime_iff hs (sqrtBound_spec h).1

/-- The variables of the walk at entry `k` of a list passed so far. -/
def Walk.at (b : Nat) (L : Nat → Nat) (k : Nat) : Walk := { b := b, i := k, prev := previous L k }

theorem Walk.begin_eq (b : Nat) (L : Nat → Nat) : Walk.begin b = Walk.at b L 0 := rfl

theorem walkNext_passed {n count b k : Nat} {L : Nat → Nat} (hk : k < count) (h : Passed n b L k) :
    walkNext n count L (Walk.at b L k) = .more (Walk.at b L (k + 1)) := by
  unfold walkNext Walk.at
  rcases h with ⟨rfl, h2⟩ | ⟨h1, h2, h3⟩
  · simp [hk, h2, previous]
  · have h4 : ¬(k = 0 ∧ L k = 2) := by
      rintro ⟨rfl, h⟩; simp [previous] at h1; omega
    have h5 : ¬ n % L k = 0 := fun h => h3 (Nat.dvd_of_mod_eq_zero h)
    have h6 : ¬ L k ≤ previous L k := Nat.not_le.2 h1
    have h7 : previous L (k + 1) = L k := by simp [previous]
    simp only [hk, h4, h6, Nat.not_lt.2 h2, h5, h7, if_true, if_false]

theorem walkLoop_passed {n count b k m : Nat} {L : Nat → Nat} (hm : m ≤ count)
    (h : ∀ i < m, Passed n b L i) :
    walkLoop (k + m) n count L (Walk.begin b) = walkLoop k n count L (Walk.at b L m) := by
  induction m generalizing k with
  | zero => rfl
  | succ m ih =>
    rw [show k + (m + 1) = (k + 1) + m by ring, ih (by omega) (fun i hi => h i (by omega)), walkLoop,
      walkNext_passed (by omega) (h m (by omega))]

/-- The walk is ended by the first entry that is not passed (R136, R137, R139). -/
theorem walkLoop_ended {n count b m : Nat} {L : Nat → Nat} (hm : m < count) (h : ∀ i < m, Passed n b L i)
    {r : WalkEnd} (he : walkNext n count L (Walk.at b L m) = .done r) :
    walkLoop (count + 1) n count L (Walk.begin b) = r := by
  obtain ⟨k, rfl⟩ : ∃ k, count = k + m := ⟨count - m, by omega⟩
  rw [show k + m + 1 = (k + 1) + m by ring, walkLoop_passed (by omega) h, walkLoop, he]

/-- A list passed whole is exhausted (R138). -/
theorem walkLoop_exhausted {n count b : Nat} {L : Nat → Nat} (h : ∀ i < count, Passed n b L i) :
    walkLoop (count + 1) n count L (Walk.begin b) = .exhausted (previous L count) := by
  rw [show count + 1 = 1 + count by ring, walkLoop_passed le_rfl h, walkLoop, walkNext]
  simp [Walk.at]

/-- What an iteration of the division does with a divisor up to the bound (R130). -/
theorem divideNext_of_le {n : Nat} {v : Divide} (h : v.d ≤ v.b) :
    divideNext n v = if v.d ∣ n then .done false else .more { v with d := v.d + 2 } := by
  simp only [divideNext, h, if_true, Nat.dvd_iff_mod_eq_zero]

/-- What an iteration of the walk does with the next entry, for any previous candidate from 2 on (R135 to R137). -/
theorem walkNext_of_lt {n count : Nat} {entry : Nat → Nat} {v : Walk} (hi : v.i < count) (hp : 2 ≤ v.prev) :
    (v.i = 0 ∧ entry v.i = 2 → walkNext n count entry v = .more { v with i := v.i + 1 }) ∧
    (¬(v.i = 0 ∧ entry v.i = 2) → entry v.i ≤ v.prev → walkNext n count entry v = .done .invalid) ∧
    (v.prev < entry v.i → v.b < entry v.i → walkNext n count entry v = .done (.answer true)) ∧
    (v.prev < entry v.i → entry v.i ≤ v.b → walkNext n count entry v =
      if entry v.i ∣ n then .done (.answer false) else .more { v with i := v.i + 1, prev := entry v.i }) := by
  unfold walkNext
  rw [if_pos hi]
  have ns : v.prev < entry v.i → ¬(v.i = 0 ∧ entry v.i = 2) := by omega
  refine ⟨fun h => if_pos h, fun h h' => ?_, fun h h' => ?_, fun h h' => ?_⟩
  · simp only [h, h', if_true, if_false]
  · simp only [ns h, Nat.not_le.2 h, h', if_true, if_false]
  · simp only [ns h, Nat.not_le.2 h, Nat.not_lt.2 h', if_false, Nat.dvd_iff_mod_eq_zero]

theorem walkNext_invalid {n count b k : Nat} {L : Nat → Nat} (hk : k < count) (hs : ¬ Skipped L k)
    (h : L k ≤ previous L k) : walkNext n count L (Walk.at b L k) = .done .invalid := by
  have : ¬(k = 0 ∧ L k = 2) := fun ⟨h0, h2⟩ => hs ⟨h0, h0 ▸ h2⟩
  simp [walkNext, Walk.at, hk, this, h]

theorem walkNext_beyond {n count b k : Nat} {L : Nat → Nat} (hk : k < count) (h : previous L k < L k)
    (hb : b < L k) : walkNext n count L (Walk.at b L k) = .done (.answer true) := by
  have : ¬(k = 0 ∧ L k = 2) := by
    rintro ⟨rfl, h2⟩; simp [previous] at h; omega
  simp [walkNext, Walk.at, hk, this, Nat.not_le.2 h, hb]

theorem walkNext_divisor {n count b k : Nat} {L : Nat → Nat} (hk : k < count) (h : previous L k < L k)
    (hb : L k ≤ b) (hd : L k ∣ n) : walkNext n count L (Walk.at b L k) = .done (.answer false) := by
  have : ¬(k = 0 ∧ L k = 2) := by
    rintro ⟨rfl, h2⟩; simp [previous] at h; omega
  simp [walkNext, Walk.at, hk, this, Nat.not_le.2 h, Nat.not_lt.2 hb, Nat.mod_eq_zero_of_dvd hd]

theorem isPrimeList_slow {n count : Nat} {L : Nat → Nat} (h : Slow n) :
    isPrimeList n count L =
      match walkLoop (count + 1) n count L (Walk.begin (sqrtBound n)) with
      | .invalid => (.listInvalid, false)
      | .answer r => (.ok, r)
      | .exhausted prev => (.ok, noDivisorFrom n (sqrtBound n) (continuation prev)) := by
  unfold isPrimeList
  split
  · next hf => simp [fastPath_none_iff.2 h] at hf
  · rfl

theorem continuation_odd {prev : Nat} (h : 2 ≤ prev) :
    3 ≤ continuation prev ∧ continuation prev % 2 = 1 ∧ continuation prev ≤ prev + 2 ∧ prev < continuation prev := by
  unfold continuation; split_ifs <;> omega

/-- The previous candidate of a list passed so far: from 2 on, not above the bound. -/
theorem previous_bounds {n b k : Nat} {L : Nat → Nat} (hb : 2 ≤ b) (h : ∀ i < k, Passed n b L i) :
    2 ≤ previous L k ∧ previous L k ≤ b := by
  induction k with
  | zero => simp [previous, hb]
  | succ k ih =>
    have ih' := ih (fun i hi => h i (by omega))
    rcases h k (by omega) with ⟨rfl, h2⟩ | ⟨h1, h2, -⟩
    · simp [previous, h2, hb]
    · simp only [previous, Nat.add_one_ne_zero, if_false, Nat.add_sub_cancel]
      omega

theorem IsCeilSqrt.ge_three {n b} (h : Slow n) (hb : IsCeilSqrt n b) : 3 ≤ b := by
  have := hb.lt_of_lt (m := 2) (by have := h.1; omega)
  omega

theorem IsCeilSqrt.lt_slow {n b : Nat} (h : Slow n) (hb : IsCeilSqrt n b) : b < n := by
  obtain ⟨h5, hodd⟩ := h
  have : b ≤ n - 1 := hb.2 _ (by
      obtain ⟨m, rfl⟩ : ∃ m, n = m + 5 := ⟨n - 5, by omega⟩
      rw [show m + 5 - 1 = m + 4 by omega]
      nlinarith)
  omega

/-- The continuation after `prev` tries every odd number above it up to the bound (R138). -/
theorem noDivisorFrom_continuation {n b prev : Nat} (h2 : 2 ≤ prev) :
    noDivisorFrom n b (continuation prev) = true ↔ ¬ ∃ q, q % 2 = 1 ∧ prev < q ∧ q ≤ b ∧ q ∣ n := by
  obtain ⟨c1, c2, c3, c4⟩ := continuation_odd h2
  rw [noDivisorFrom_iff c1 c2]
  constructor
  · rintro h ⟨q, h1, h2, h3, h4⟩
    refine h q h1 ?_ h3 h4
    unfold continuation; split_ifs <;> omega
  · intro h q h1 h2 h3 h4
    exact h ⟨q, h1, by omega, h3, h4⟩

end Sys2Proof.Machine
end

