-- ==== Sys2Proof/Laws/Ops.lean ====
section
/-! SUPPORT. What each shared operation and each command can do, said once. -/

namespace Sys2Proof.Machine

theorem ErrorCode.code_lt (e : ErrorCode) : e.code.toNat < 8 := by cases e <;> decide

/-- A command issue: rejected while busy, accepted while idle (40_command_lifecycle.md R101). -/
theorem issue_cases (w : Word) (s : State) :
    (s.status.busy = true ∧ s.issue w = s.reject) ∨
    (s.status.busy = false ∧ s.issue w = s.accept (commandOpcode w)) := by
  cases h : s.status.busy <;> simp [State.issue, h]

/-- Everything a completion of a DECODE can do: `RESULT`, `STATUS`, `PEND` and the working variables are written, and,
when the stream moved, the destination range and the counter of free values. -/
theorem completeDecode_spec (e : ErrorCode) (n : Nat) (s : State) :
    ∃ m v c k, s.completeDecode e n =
        { s with seq := m, result := v, status := s.status.completed c, pend := none, work := none, tick := k } ∧
      (s.streamMoved = false → m = s.seq ∧ v = BitVec.ofNat 64 n ∧ c = e.code ∧ k = s.tick) ∧
      (s.streamMoved = true → v = Config.freeWord (s.tick + s.destEntries) ∧
        c = Config.freeCode (s.tick + s.destEntries) ∧
        ∀ j, j < s.destEntries → m.find (s.destBase + j) = some (Config.freeWord (s.tick + j))) ∧
      (∀ j, ¬(s.destBase ≤ j ∧ j < s.destBase + s.length) → m.find j = s.seq.find j) ∧
      (Memory.wf s.seq → Memory.wf m) ∧
      ((∀ x ∈ s.seq, x.1 < s.capacity) → ∀ x ∈ m, x.1 < s.capacity) := by
  cases hm : s.streamMoved with
  | false =>
    refine ⟨s.seq, BitVec.ofNat 64 n, e.code, s.tick, ?_, fun _ => ⟨rfl, rfl, rfl, rfl⟩, by simp, fun _ _ => rfl, id, id⟩
    rw [completeDecode_still hm, ← hm]
    rfl
  | true =>
    obtain ⟨m, h1, h2, h3, h4, h5⟩ := scramble_spec s.destEntries s.destBase s
    have hd : s.destEntries = min s.length (s.capacity - s.destBase) := rfl
    refine ⟨m, Config.freeWord (s.tick + s.destEntries), Config.freeCode (s.tick + s.destEntries),
      s.tick + s.destEntries + 1, ?_, by simp, fun _ => ⟨rfl, rfl, h3⟩, ?_, h4, ?_⟩
    · simp only [State.completeDecode, hm, if_true, h1]
      rw [← hm]
      rfl
    · intro j hj
      refine h2 j ?_
      omega
    · intro h
      by_cases hc : s.destBase ≤ s.capacity
      · exact h5 _ (by omega) h
      · have h0 : s.destEntries = 0 := by omega
        rw [h0] at h1
        have : m = s.seq := (congrArg State.seq h1).symm
        rw [this]
        exact h

theorem execSqrt_eq (s : State) :
    exec .sqrt s = .next (s.complete .ok (BitVec.ofNat 64 (sqrtBound s.arg0.toNat))) := rfl

theorem execIsPrime_eq (s : State) : exec .isPrime s = .next (s.complete .ok (boolWord (isPrime s.arg0.toNat))) := rfl

theorem execBadCommand_eq (w : Word) (s : State) : exec (.badCommand w) s = .next (s.complete .badCommand 0#64) := rfl

/-- The answers of the list test: an error comes with false (R133). -/
theorem isPrimeList_cases (n count : Nat) (L : Nat → Nat) :
    isPrimeList n count L = (.ok, true) ∨ isPrimeList n count L = (.ok, false) ∨
      isPrimeList n count L = (.listInvalid, false) := by
  rw [isPrimeList]
  cases fastPath n with
  | some r => cases r <;> simp
  | none =>
    simp only
    split <;> simp

theorem execIsPrimeList_inRange {s : State} (h : s.listInRange = true) :
    exec .isPrimeList s =
      .next (s.complete (isPrimeList s.candidate s.listCount s.listEntry).1
        (boolWord (isPrimeList s.candidate s.listCount s.listEntry).2)) := by
  simp [exec, execIsPrimeList, h]

theorem execIsPrimeList_outOfRange {s : State} (h : s.listInRange = false) :
    exec .isPrimeList s = .next (s.complete .listRange 0#64) := by
  simp [exec, execIsPrimeList, h, State.raise]

/-- Everything a DECODE can do. -/
theorem execDecode_spec (s : State) :
    ∃ m v c k, exec .decode s =
        .next { s with seq := m, result := v, status := s.status.completed c, pend := none, work := none, tick := k } ∧
      (s.streamMoved = false → k = s.tick ∧ c.toNat < 8 ∧
        ∀ j, ¬(s.destBase ≤ j ∧ j < s.destBase + v.toNat) → m.find j = s.seq.find j) ∧
      (∀ j, ¬(s.destBase ≤ j ∧ j < s.destBase + s.length) → m.find j = s.seq.find j) ∧
      (Memory.wf s.seq → Memory.wf m) ∧
      ((∀ x ∈ s.seq, x.1 < s.capacity) → ∀ x ∈ m, x.1 < s.capacity) := by
  have early : ∀ e, ∃ m v c k, s.completeDecode e 0 =
        { s with seq := m, result := v, status := s.status.completed c, pend := none, work := none, tick := k } ∧
      (s.streamMoved = false → k = s.tick ∧ c.toNat < 8 ∧
        ∀ j, ¬(s.destBase ≤ j ∧ j < s.destBase + v.toNat) → m.find j = s.seq.find j) ∧
      (∀ j, ¬(s.destBase ≤ j ∧ j < s.destBase + s.length) → m.find j = s.seq.find j) ∧
      (Memory.wf s.seq → Memory.wf m) ∧
      ((∀ x ∈ s.seq, x.1 < s.capacity) → ∀ x ∈ m, x.1 < s.capacity) := by
    intro e
    obtain ⟨m, v, c, k, h1, h2, -, h4, h5, h6⟩ := completeDecode_spec e 0 s
    refine ⟨m, v, c, k, h1, fun hm => ?_, h4, h5, h6⟩
    obtain ⟨rfl, -, rfl, rfl⟩ := h2 hm
    exact ⟨rfl, ErrorCode.code_lt e, fun _ _ => rfl⟩
  by_cases hr : s.destInRange = true
  · by_cases hp : s.streamPresent = true
    · have hlen : ∀ k mode last bytes, (nccValues k mode last bytes).1.length ≤ k := by
        intro k
        induction k with
        | zero => intros; simp [nccValues]
        | succ k ih =>
          intro mode last bytes
          rw [nccValues]
          split
          · simp
          · simpa using ih _ _ _
      obtain ⟨m, v, c, k, h1, h2, -, h4, h5, h6⟩ := completeDecode_spec
        (nccValues s.length .anchor 0#64 (s.streamFrom s.start)).2
        (nccValues s.length .anchor 0#64 (s.streamFrom s.start)).1.length
        (s.seqWriteAll s.destBase (nccValues s.length .anchor 0#64 (s.streamFrom s.start)).1)
      have hl := hlen s.length .anchor 0#64 (s.streamFrom s.start)
      have hin : s.destBase + s.length ≤ s.capacity := by simpa [State.destInRange] using hr
      have hout : ∀ n, (nccValues s.length .anchor 0#64 (s.streamFrom s.start)).1.length ≤ n →
          ∀ j, ¬(s.destBase ≤ j ∧ j < s.destBase + n) →
          (s.seqWriteAll s.destBase (nccValues s.length .anchor 0#64 (s.streamFrom s.start)).1).seq.find j =
            s.seq.find j := by
        intro n hn j hj
        by_cases h : j < s.destBase
        · exact Memory.find_writeAll_before _ _ h
        · exact Memory.find_writeAll_after _ _ (by omega)
      refine ⟨m, v, c, k, ?_, ?_, ?_, ?_, ?_⟩
      · show execDecode s = _
        rw [execDecode_eq hr hp, h1]
        rfl
      · intro hm
        obtain ⟨rfl, rfl, rfl, rfl⟩ := h2 hm
        refine ⟨rfl, ErrorCode.code_lt _, hout _ ?_⟩
        have hlt : s.length < 2 ^ 64 := s.arg2.isLt
        rw [BitVec.toNat_ofNat, Nat.mod_eq_of_lt (by omega)]
      · intro j hj
        rw [h4 j hj]
        exact hout _ hl j hj
      · exact fun h => h5 (Memory.wf_writeAll _ _ h)
      · intro h
        refine h6 ?_
        have : ∀ (vs : List Word) (i : Nat) (q : Memory), i + vs.length ≤ s.capacity →
            (∀ x ∈ q, x.1 < s.capacity) → ∀ x ∈ q.writeAll i vs, x.1 < s.capacity := by
          intro vs
          induction vs with
          | nil => intro i q _ hq; exact hq
          | cons y ys ih =>
            intro i q hi hq
            simp only [List.length_cons] at hi
            exact ih (i + 1) _ (by omega) (Memory.bound_write (by omega) hq)
        exact this _ _ _ (by omega) h
    · obtain ⟨m, v, c, k, h1, h⟩ := early .openFailure
      refine ⟨m, v, c, k, ?_, h⟩
      rw [← h1]
      simp [exec, execDecode, hr, hp]
  · obtain ⟨m, v, c, k, h1, h⟩ := early .bufferOverflow
    refine ⟨m, v, c, k, ?_, h⟩
    rw [← h1]
    simp [exec, execDecode, hr]

/-- Everything a command can do: it completes. Only a DECODE writes `SEQ` or draws free values (20_memory.md R64, R65,
40_command_lifecycle.md R105, R106). -/
theorem exec_command_spec (op : Opcode) (s : State) :
    ∃ m v c k, exec op.instr s =
        .next { s with seq := m, result := v, status := s.status.completed c, pend := none, work := none, tick := k } ∧
      (op ≠ .decode → m = s.seq ∧ k = s.tick ∧ c.toNat < 8) ∧
      (s.streamMoved = false → c.toNat < 8) ∧
      (∀ j, ¬(op = .decode ∧ s.destBase ≤ j ∧ j < s.destBase + s.length) → m.find j = s.seq.find j) ∧
      (Memory.wf s.seq → Memory.wf m) ∧
      ((∀ x ∈ s.seq, x.1 < s.capacity) → ∀ x ∈ m, x.1 < s.capacity) := by
  have still : ∀ (e : ErrorCode) (v : Word), exec op.instr s = .next (s.complete e v) → _ := fun e v h =>
    (⟨s.seq, v, e.code, s.tick, h, fun _ => ⟨rfl, rfl, ErrorCode.code_lt e⟩, fun _ => ErrorCode.code_lt e, fun _ _ => rfl,
      id, id⟩ : ∃ m v c k, exec op.instr s =
        .next { s with seq := m, result := v, status := s.status.completed c, pend := none, work := none, tick := k } ∧
      (op ≠ .decode → m = s.seq ∧ k = s.tick ∧ c.toNat < 8) ∧
      (s.streamMoved = false → c.toNat < 8) ∧
      (∀ j, ¬(op = .decode ∧ s.destBase ≤ j ∧ j < s.destBase + s.length) → m.find j = s.seq.find j) ∧
      (Memory.wf s.seq → Memory.wf m) ∧
      ((∀ x ∈ s.seq, x.1 < s.capacity) → ∀ x ∈ m, x.1 < s.capacity))
  cases op with
  | sqrt => exact still _ _ (execSqrt_eq s)
  | isPrime => exact still _ _ (execIsPrime_eq s)
  | isPrimeList =>
    cases h : s.listInRange with
    | true => exact still _ _ (execIsPrimeList_inRange h)
    | false => exact still _ _ (execIsPrimeList_outOfRange h)
  | decode =>
    obtain ⟨m, v, c, k, h1, h2, h3, h4, h5⟩ := execDecode_spec s
    exact ⟨m, v, c, k, h1, by simp, fun hm => (h2 hm).2.1, fun j hj => h3 j (fun h => hj ⟨rfl, h⟩), h4, h5⟩
  | badCommand => exact still _ _ (execBadCommand_eq _ s)

end Sys2Proof.Machine
end

