-- ==== Sys2Proof/Laws/Bus.lean ====
section
/-! SUPPORT. The host bus: the register map and what an access can do (20_memory.md R55). -/

namespace Sys2Proof.Machine

/-- When a read of entry `j` returns any value (20_memory.md R69). -/
theorem beingDecoded_iff {s : State} {j : Nat} :
    s.beingDecoded j = true ↔
      s.pend = some .decode ∧ s.arg1.toNat ≤ j ∧ j < s.arg1.toNat + s.arg2.toNat := by
  rw [State.beingDecoded, Bool.and_eq_true, decide_eq_true_iff, State.inDest, decide_eq_true_iff]
  rfl

theorem SeqCap_bound (s : State) : s.capacity ≤ 2 ^ 29 - 512 := s.cap.le_max

theorem windowAddr_toNat {cap i : Nat} (hc : cap ≤ 2 ^ 29 - 512) (hi : i < cap) :
    (BitVec.ofNat 32 (0x1000 + 8 * i)).toNat = 0x1000 + 8 * i := by
  rw [BitVec.toNat_ofNat, Nat.mod_eq_of_lt (by omega)]

/-- The window's offset of entry `i` (10_state.md R23). -/
theorem busTarget_window {cap i : Nat} (hc : cap ≤ 2 ^ 29 - 512) (hi : i < cap) :
    busTarget cap (BitVec.ofNat 32 (0x1000 + 8 * i)) = .seq i := by
  have h := windowAddr_toNat hc hi
  have hne : ∀ k : BitVec 32, k.toNat < 0x1000 → BitVec.ofNat 32 (0x1000 + 8 * i) ≠ k := by
    intro k hk e
    rw [e] at h
    omega
  rw [busTarget, if_neg (hne _ (by decide)), if_neg (hne _ (by decide)), if_neg (hne _ (by decide)),
    if_neg (hne _ (by decide)), if_neg (hne _ (by decide)), if_neg (hne _ (by decide)), if_neg (hne _ (by decide)), h,
    if_pos (by omega)]
  congr 1
  omega

/-- An entry is reached at its window offset only. -/
theorem busTarget_seq {cap j : Nat} {addr : BitVec 32} (ha : addr.toNat % 8 = 0)
    (h : busTarget cap addr = .seq j) : j < cap ∧ addr = BitVec.ofNat 32 (0x1000 + 8 * j) := by
  unfold busTarget at h
  split_ifs at h with h0 h1 h2 h3 h4 h5 h6 h7
  obtain rfl : (addr.toNat - 0x1000) / 8 = j := by simpa using h
  refine ⟨by omega, BitVec.eq_of_toNat_eq ?_⟩
  have := addr.isLt
  rw [BitVec.toNat_ofNat, Nat.mod_eq_of_lt (by omega)]
  omega

theorem busTarget_reserved {cap : Nat} {addr : BitVec 32} (ha : addr.toNat % 8 = 0)
    (h : (0x038 ≤ addr.toNat ∧ addr.toNat < 0x1000) ∨ 0x1000 + 8 * cap ≤ addr.toNat) :
    busTarget cap addr = .reserved := by
  unfold busTarget
  split_ifs with h0 h1 h2 h3 h4 h5 h6 h7
  all_goals first
    | rfl
    | (subst_vars; simp at h <;> omega)
    | (exfalso; omega)

theorem busTarget_cmd {cap : Nat} {addr : BitVec 32} (h : busTarget cap addr = .cmd) : addr = 0x000#32 := by
  unfold busTarget at h
  split_ifs at h with h0
  exact h0

theorem busTarget_arg0 {cap : Nat} {addr : BitVec 32} (h : busTarget cap addr = .arg0) : addr = 0x010#32 := by
  unfold busTarget at h
  split_ifs at h with h0 h1 h2
  exact h2

theorem busTarget_arg1 {cap : Nat} {addr : BitVec 32} (h : busTarget cap addr = .arg1) : addr = 0x018#32 := by
  unfold busTarget at h
  split_ifs at h with h0 h1 h2 h3
  exact h3

theorem busTarget_arg2 {cap : Nat} {addr : BitVec 32} (h : busTarget cap addr = .arg2) : addr = 0x020#32 := by
  unfold busTarget at h
  split_ifs at h with h0 h1 h2 h3 h4
  exact h4

/-- Everything a read can do: the host gets a value, and a free value may have been drawn (R57). -/
theorem memRead_spec (addr : BitVec 32) (s : State) :
    ∃ v k, memRead addr s = { s with reads := v :: s.reads, tick := k } := by
  unfold memRead
  split
  case h_8 j _ => split_ifs <;> exact ⟨_, _, rfl⟩
  all_goals exact ⟨_, _, rfl⟩

/-- Everything a write can do (R55). -/
theorem memWrite_cases {addr : BitVec 32} (ha : addr.toNat % 8 = 0) (v : Word) (s : State) :
    (addr = 0x000#32 ∧ s.status.busy = true ∧ memWrite addr v s = s.reject) ∨
    (addr = 0x000#32 ∧ s.status.busy = false ∧ memWrite addr v s = s.accept (commandOpcode v)) ∨
    memWrite addr v s = s ∨
    (s.status.busy = false ∧
      ((addr = 0x010#32 ∧ memWrite addr v s = { s with arg0 := v }) ∨
       (addr = 0x018#32 ∧ memWrite addr v s = { s with arg1 := v }) ∨
       (addr = 0x020#32 ∧ memWrite addr v s = { s with arg2 := v }) ∨
       (∃ j, j < s.capacity ∧ addr = BitVec.ofNat 32 (0x1000 + 8 * j) ∧ memWrite addr v s = s.seqWrite j v))) := by
  have e : memWrite addr v s = match busTarget s.capacity addr with
      | .cmd => s.issue v
      | .status => s
      | .arg0 => if s.status.busy then s else { s with arg0 := v }
      | .arg1 => if s.status.busy then s else { s with arg1 := v }
      | .arg2 => if s.status.busy then s else { s with arg2 := v }
      | .result => s
      | .capacity => s
      | .seq j => if s.status.busy then s else s.seqWrite j v
      | .reserved => s := rfl
  rw [e]
  cases ht : busTarget s.capacity addr with
  | cmd =>
    rcases issue_cases v s with ⟨h, h'⟩ | ⟨h, h'⟩
    · exact .inl ⟨busTarget_cmd ht, h, h'⟩
    · exact .inr (.inl ⟨busTarget_cmd ht, h, h'⟩)
  | status => exact .inr (.inr (.inl rfl))
  | result => exact .inr (.inr (.inl rfl))
  | capacity => exact .inr (.inr (.inl rfl))
  | reserved => exact .inr (.inr (.inl rfl))
  | arg0 =>
    cases h : s.status.busy with
    | true => exact .inr (.inr (.inl rfl))
    | false => exact .inr (.inr (.inr ⟨rfl, .inl ⟨busTarget_arg0 ht, rfl⟩⟩))
  | arg1 =>
    cases h : s.status.busy with
    | true => exact .inr (.inr (.inl rfl))
    | false => exact .inr (.inr (.inr ⟨rfl, .inr (.inl ⟨busTarget_arg1 ht, rfl⟩)⟩))
  | arg2 =>
    cases h : s.status.busy with
    | true => exact .inr (.inr (.inl rfl))
    | false => exact .inr (.inr (.inr ⟨rfl, .inr (.inr (.inl ⟨busTarget_arg2 ht, rfl⟩))⟩))
  | seq j =>
    cases h : s.status.busy with
    | true => exact .inr (.inr (.inl rfl))
    | false =>
      obtain ⟨h1, h2⟩ := busTarget_seq ha ht
      exact .inr (.inr (.inr ⟨rfl, .inr (.inr (.inr ⟨j, h1, h2, rfl⟩))⟩))

/-- Everything a host access can do. -/
theorem busAccess_cases {a : BusAccess} {s t : State} (h : busAccess a s = .next t) :
    (∃ addr v k, a = .read .eight addr ∧ t = { s with reads := v :: s.reads, tick := k }) ∨
    (∃ addr v, a = .write .eight addr v ∧ addr.toNat % 8 = 0 ∧
      ((s.rst = true ∧ t = s) ∨ (s.rst = false ∧ t = memWrite addr v s))) := by
  cases a with
  | read size addr =>
    simp only [busAccess] at h
    split_ifs at h with ha hr
    · obtain rfl : s.returnedAny = t := by simpa using h
      obtain ⟨rfl, -⟩ : size = .eight ∧ addr.toNat % 8 = 0 := by simpa [busAdmitted] using ha
      exact .inl ⟨addr, _, _, rfl, rfl⟩
    · obtain rfl : memRead addr s = t := by simpa using h
      obtain ⟨rfl, -⟩ : size = .eight ∧ addr.toNat % 8 = 0 := by simpa [busAdmitted] using ha
      obtain ⟨v, k, e⟩ := memRead_spec addr s
      exact .inl ⟨addr, v, k, rfl, e⟩
  | write size addr v =>
    simp only [busAccess] at h
    split_ifs at h with ha hr
    · obtain rfl : s = t := by simpa using h
      obtain ⟨rfl, h8⟩ : size = .eight ∧ addr.toNat % 8 = 0 := by simpa [busAdmitted] using ha
      exact .inr ⟨addr, v, rfl, h8, .inl ⟨hr, rfl⟩⟩
    · obtain rfl : memWrite addr v s = t := by simpa using h
      obtain ⟨rfl, h8⟩ : size = .eight ∧ addr.toNat % 8 = 0 := by simpa [busAdmitted] using ha
      exact .inr ⟨addr, v, rfl, h8, .inr ⟨by simpa using hr, rfl⟩⟩

end Sys2Proof.Machine
end

