-- ==== Sys2Proof/Laws/Engine.lean ====
section
/-! SUPPORT. Runs of engine turns: each loop of the pseudocode, turn by turn, ends where the whole evaluation ends
(40_command_lifecycle.md R105, R109). -/

namespace Sys2Proof.Machine

theorem engineRun_succ {s t : State} (k : Nat) (h : engineTurn s = .next t) : engineRun (k + 1) s = engineRun k t := by
  rw [engineRun, h]

theorem engineRun_one {s t : State} (h : engineTurn s = .next t) : engineRun 1 s = .next t := engineRun_succ 0 h

/-- Runs follow one another. -/
theorem engineRun_add {s t : State} {j : Nat} (k : Nat) (h : engineRun j s = .next t) :
    engineRun (j + k) s = engineRun k t := by
  induction j generalizing s with
  | zero =>
    obtain rfl : s = t := by simpa [engineRun] using h
    rw [Nat.zero_add]
  | succ j ih =>
    rw [engineRun] at h
    cases hu : engineTurn s with
    | next u =>
      rw [hu] at h
      rw [show j + 1 + k = (j + k) + 1 by omega, engineRun_succ _ hu]
      exact ih h
    | fault r => rw [hu] at h; simp at h
    | refused r => rw [hu] at h; simp at h

theorem engineTurn_start {s : State} {op : Opcode} (hr : s.rst = false) (hp : s.pend = some op) (hw : s.work = none) :
    engineTurn s = .next (engineStart op s) := by
  simp [engineTurn, hr, hp, hw]

theorem engineTurn_advance {s : State} {op : Opcode} {w : Work} (hr : s.rst = false) (hp : s.pend = some op)
    (hw : s.work = some w) : engineTurn s = engineAdvance w s := by
  simp [engineTurn, hr, hp, hw]

theorem engineTurn_setWork {s : State} {op : Opcode} (w : Work) (hr : s.rst = false) (hp : s.pend = some op) :
    engineTurn (s.setWork w) = engineAdvance w (s.setWork w) :=
  engineTurn_advance (by simpa using hr) (by simpa using hp) (State.setWork_work w s)

/-- The bisection inside a command: `mk` holds its variables, `turn` takes its iterations. -/
theorem bisect_run {s : State} {op : Opcode} {n k : Nat} {v : Bisect} (mk : Bisect → Work)
    (turn : LoopStep Bisect Nat → State → State) (hr : s.rst = false) (hp : s.pend = some op)
    (hmore : ∀ v t, turn (.more v) t = t.setWork (mk v))
    (hdone : ∀ r w, turn (.done r) (s.setWork w) = turn (.done r) s)
    (hadv : ∀ v, engineAdvance (mk v) (s.setWork (mk v)) = .next (turn (bisectNext n v) (s.setWork (mk v))))
    (hv : v.Inv n) (hk : v.hi - v.lo ≤ 2 ^ k) :
    ∃ j, j ≤ k ∧ engineRun j (s.setWork (mk v)) = .next (turn (.done (bisectLoop k n v)) s) := by
  induction k generalizing v with
  | zero =>
    have := hv.2.2.2.1
    simp at hk
    omega
  | succ k ih =>
    have hturn := (engineTurn_setWork (mk v) hr hp).trans (hadv v)
    rcases bisectNext_cases hv with ⟨v', e, hv', hw⟩ | ⟨r, e, -⟩
    · obtain ⟨j, hj, hrun⟩ := ih hv' (by rw [pow_succ] at hk; omega)
      refine ⟨j + 1, by omega, ?_⟩
      rw [e, hmore] at hturn
      rw [engineRun_succ j hturn, bisectLoop, e]
      exact hrun
    · refine ⟨1, by omega, ?_⟩
      rw [e, hdone] at hturn
      rw [engineRun_one hturn, bisectLoop, e]

theorem divide_run {s : State} {op : Opcode} {k b d : Nat} (hr : s.rst = false) (hp : s.pend = some op)
    (hk : b < d + 2 * k) :
    ∃ j, j ≤ k + 1 ∧ engineRun j (s.setWork (.divide { b := b, d := d })) =
      .next (s.finish (boolWord (divideLoop k s.candidate { b := b, d := d }))) := by
  induction k generalizing d with
  | zero =>
    refine ⟨1, by omega, engineRun_one ?_⟩
    rw [engineTurn_setWork _ hr hp]
    have : ¬ d ≤ b := by omega
    simp only [engineAdvance, divideNext, this, if_false]
    rfl
  | succ k ih =>
    have hturn := engineTurn_setWork (.divide { b := b, d := d }) hr hp
    simp only [engineAdvance, State.setWork_candidate] at hturn
    by_cases h1 : d ≤ b
    · by_cases h2 : s.candidate % d = 0
      · refine ⟨1, by omega, engineRun_one ?_⟩
        rw [hturn]
        simp only [divideLoop, divideNext, h1, h2, if_true]
        rfl
      · obtain ⟨j, hj, hrun⟩ := ih (d := d + 2) (by omega)
        refine ⟨j + 1, by omega, ?_⟩
        have h3 : divideNext s.candidate { b := b, d := d } = .more { b := b, d := d + 2 } := by
          simp [divideNext, h1, h2]
        rw [h3] at hturn
        rw [engineRun_succ j hturn, divideLoop, h3]
        exact hrun
    · refine ⟨1, by omega, engineRun_one ?_⟩
      rw [hturn]
      simp only [divideLoop, divideNext, h1, if_false]
      rfl

/-- The loop's answer does not depend on a limit that is large enough. -/
theorem divideLoop_limit {j k n b d : Nat} (hj : b < d + 2 * j) (hk : b < d + 2 * k) :
    divideLoop j n { b := b, d := d } = divideLoop k n { b := b, d := d } := by
  rw [Bool.eq_iff_iff, divideLoop_iff hj, divideLoop_iff hk]

/-- A trial division from an odd divisor takes at most `2^31` turns (R109). -/
theorem noDivisorFrom_run {s : State} {op : Opcode} {b d : Nat} (hr : s.rst = false) (hp : s.pend = some op)
    (hb : b ≤ 2 ^ 32) (hd : 3 ≤ d) :
    ∃ j, j ≤ 2 ^ 31 ∧ engineRun j (s.setWork (.divide { b := b, d := d })) =
      .next (s.finish (boolWord (noDivisorFrom s.candidate b d))) := by
  obtain ⟨j, hj, hrun⟩ := divide_run (k := 2 ^ 31 - 1) (b := b) (d := d) hr hp (by omega)
  refine ⟨j, by omega, ?_⟩
  rw [hrun, noDivisorFrom, divideLoop_limit (j := b) (k := 2 ^ 31 - 1) (by omega) (by omega)]

/-- An iteration that goes on has read an entry, and keeps the bound. -/
theorem walkNext_more {n count : Nat} {L : Nat → Nat} {v v' : Walk} (h : walkNext n count L v = .more v') :
    v'.b = v.b ∧ v'.i = v.i + 1 ∧ v.i < count := by
  unfold walkNext at h
  split_ifs at h with h0
  simp only at h
  split_ifs at h <;> (injection h with h; subst h; exact ⟨rfl, rfl, h0⟩)

/-- The walk takes a turn for each entry left and one more at most (R109). -/
theorem walk_run {s : State} {op : Opcode} {k : Nat} {v : Walk} (hr : s.rst = false) (hp : s.pend = some op)
    (hi : v.i ≤ s.listCount) (hk : s.listCount < v.i + k) :
    ∃ j, j ≤ k ∧ engineRun j (s.setWork (.walk v)) =
      .next (walkTurn v.b (.done (walkLoop k s.candidate s.listCount s.listEntry v)) s) := by
  induction k generalizing v with
  | zero => omega
  | succ k ih =>
    have hturn := engineTurn_setWork (.walk v) hr hp
    have hadv : engineAdvance (.walk v) (s.setWork (.walk v)) =
      .next (walkTurn v.b (walkNext s.candidate s.listCount s.listEntry v) (s.setWork (.walk v))) := rfl
    rw [hadv] at hturn
    cases hn : walkNext s.candidate s.listCount s.listEntry v with
    | more v' =>
      obtain ⟨hb, hi', hlt⟩ := walkNext_more hn
      obtain ⟨j, hj, hrun⟩ := ih (v := v') (by omega) (by omega)
      refine ⟨j + 1, by omega, ?_⟩
      rw [hn] at hturn
      rw [engineRun_succ j hturn, walkLoop, hn, ← hb]
      exact hrun
    | done r =>
      refine ⟨1, by omega, ?_⟩
      rw [hn] at hturn
      rw [engineRun_one hturn, walkLoop, hn]
      cases r <;> rfl

/-- A running DECODE, turn by turn, ends where its loop ends (R167). -/
theorem decode_run {s : State} {op : Opcode} {c : Cursor} (hr : s.rst = false) (hp : s.pend = some op)
    (hw : s.work = some (.cursor c)) (hd : s.destInRange = true) {k : Nat} (hk : c.budget s.length < k) :
    ∃ j, j ≤ k ∧ engineRun j s = decodeLoop k s := by
  induction k generalizing s c with
  | zero => omega
  | succ k ih =>
    have hturn := engineTurn_advance hr hp hw
    have hadv : engineAdvance (.cursor c) s = decodeTurn c s := rfl
    rw [hadv] at hturn
    rcases decodeTurn_cases hw hd with ⟨e, h⟩ | ⟨c', hb, -, h, -⟩
    · refine ⟨1, by omega, ?_⟩
      rw [engineRun_one (hturn.trans h), decodeLoop_succ hw h, decodeLoop_idle k (by simp)]
    · rcases h with ⟨h, -⟩ | ⟨⟨v, h⟩, -⟩
      · obtain ⟨j, hj, hrun⟩ := ih (s := s.setWork (.cursor c')) (c := c') hr hp rfl hd (by
          simp only [State.setWork_length]; omega)
        exact ⟨j + 1, by omega, by rw [engineRun_succ j (hturn.trans h), decodeLoop_succ hw h, hrun]⟩
      · obtain ⟨j, hj, hrun⟩ := ih (s := (s.seqWrite (s.destBase + c.cnt) v).setWork (.cursor c')) (c := c')
          hr hp rfl hd (by
          simp only [State.setWork_length, State.seqWrite_length]; omega)
        exact ⟨j + 1, by omega, by rw [engineRun_succ j (hturn.trans h), decodeLoop_succ hw h, hrun]⟩

end Sys2Proof.Machine
end

