-- ==== Sys2Proof/Laws/Step.lean ====
section
/-! SUPPORT. What a turn of the engine and a step of the machine can do, said once (10_state.md R20). -/

namespace Sys2Proof.Machine

/-- The five kinds of step, by the turn that is taken. -/
theorem step_cases {s t : State} (h : step s = .next t) :
  (∃ a ts, s.inbox = .host a :: ts ∧ busAccess a (s.withInbox ts) = .next t) ∨
  (∃ ts, s.inbox = .engine :: ts ∧ engineTurn (s.withInbox ts) = .next t) ∨
  (∃ ts, (s.inbox = .complete :: ts ∨ s.inbox = [] ∧ ts = []) ∧ completeTurn (s.withInbox ts) = .next t) ∨
  (∃ l ts, s.inbox = .reset l :: ts ∧ t = (s.withInbox ts).setRst l) ∨
  (∃ p b ts, s.inbox = .stream p b :: ts ∧ t = (s.withInbox ts).setStream p b) := by
  rw [step] at h
  cases hi : s.inbox with
  | nil =>
    rw [hi] at h
    refine .inr (.inr (.inl ⟨[], .inr ⟨rfl, rfl⟩, ?_⟩))
    rw [← h]
    simp only
    congr 1
    cases s; simp at hi; subst hi; rfl
  | cons a ts =>
    rw [hi] at h
    cases a with
    | host a => exact .inl ⟨a, ts, rfl, h⟩
    | engine => exact .inr (.inl ⟨ts, rfl, h⟩)
    | complete => exact .inr (.inr (.inl ⟨ts, .inl rfl, h⟩))
    | reset l =>
      have h' : Host.Outcome.next ((s.withInbox ts).setRst l) = .next t := h
      refine .inr (.inr (.inr (.inl ⟨l, ts, rfl, ?_⟩)))
      simpa using h'.symm
    | stream p b =>
      have h' : Host.Outcome.next ((s.withInbox ts).setStream p b) = .next t := h
      refine .inr (.inr (.inr (.inr ⟨p, b, ts, rfl, ?_⟩)))
      simpa using h'.symm

/-- A turn of the engine: nothing while it is idle or held in reset, else the first or a later step of the command. -/
theorem engineTurn_cases {s t : State} (h : engineTurn s = .next t) :
  (t = s ∧ (s.rst = true ∨ s.pend = none)) ∨
  (∃ op, s.rst = false ∧ s.pend = some op ∧ 
    ((s.work = none ∧ t = engineStart op s) ∨ ∃ w, s.work = some w ∧ engineAdvance w s = .next t)) := by
  unfold engineTurn at h
  split_ifs at h with hr
  · exact .inl ⟨by simpa using h.symm, .inl hr⟩
  · split at h
    · rename_i hp
      exact .inl ⟨by simpa using h.symm, .inr hp⟩
    · rename_i op hp hw
      exact .inr ⟨op, by simpa using hr, hp, .inl ⟨hw, by simpa using h.symm⟩⟩
    · rename_i op w hp hw
      exact .inr ⟨op, by simpa using hr, hp, .inr ⟨w, hw, h⟩⟩

/-- The first step of a command: working variables, or the completion (40_command_lifecycle.md R105). -/
theorem engineStart_cases (op : Opcode) (s : State) :
  (∃ w, engineStart op s = s.setWork w) ∨ (∃ e v, engineStart op s = s.complete e v ∧ op ≠ .decode) ∨
  (∃ e, op = .decode ∧ engineStart op s = s.completeDecode e 0) := by
  cases op with
  | sqrt =>
    simp only [engineStart]
    cases sqrtStart s.candidate with
    | more v => exact .inl ⟨_, rfl⟩
    | done r => exact .inr (.inl ⟨_, _, rfl, by simp⟩)
  | isPrime =>
    simp only [engineStart]
    cases fastPath s.candidate with
    | some r => exact .inr (.inl ⟨_, _, rfl, by simp⟩)
    | none =>
      cases sqrtStart s.candidate with
      | more v => exact .inl ⟨_, rfl⟩
      | done r => exact .inl ⟨_, rfl⟩
  | isPrimeList =>
    simp only [engineStart]
    split_ifs
    · cases fastPath s.candidate with
      | some r => exact .inr (.inl ⟨_, _, rfl, by simp⟩)
      | none =>
        cases sqrtStart s.candidate with
        | more v => exact .inl ⟨_, rfl⟩
        | done r => exact .inl ⟨_, rfl⟩
    · exact .inr (.inl ⟨_, _, rfl, by simp⟩)
  | decode =>
    simp only [engineStart]
    split_ifs
    · exact .inr (.inr ⟨.bufferOverflow, by simp, rfl⟩)
    · exact .inr (.inr ⟨.openFailure, by simp, rfl⟩)
    · exact .inl ⟨_, rfl⟩
  | badCommand => exact .inr (.inl ⟨_, _, rfl, by simp⟩)

/-- A later step of a command: other working variables, the completion, or a record that emits a value. -/
theorem engineAdvance_cases {s t : State} {w : Work} (h : engineAdvance w s = .next t) (hw : s.work = some w) :
  (∃ w', t = s.setWork w' ∧ ((∃ c, w' = .cursor c) → ∃ c, w = .cursor c)) ∨
  (∃ e v, t = s.complete e v ∧ ∀ c, w ≠ .cursor c) ∨
  (∃ c v w', w = .cursor c ∧ s.recordCursor c.mode = some c ∧
    t = (s.seqWrite (s.destBase + c.cnt) v).setWork w') ∨
  (∃ c e, w = .cursor c ∧ t = s.completeDecode e c.cnt) := by
  cases w with
  | sqrt v =>
    simp only [engineAdvance, Host.Outcome.next.injEq] at h
    subst h
    cases hb : bisectNext s.candidate v with
    | more v' => exact .inl ⟨_, rfl, by simp⟩
    | done r => exact .inr (.inl ⟨_, _, rfl, by simp⟩)
  | primeBound v =>
    simp only [engineAdvance, Host.Outcome.next.injEq] at h
    subst h
    cases hb : bisectNext s.candidate v with
    | more v' => exact .inl ⟨_, rfl, by simp⟩
    | done r => exact .inl ⟨_, rfl, by simp⟩
  | listBound v =>
    simp only [engineAdvance, Host.Outcome.next.injEq] at h
    subst h
    cases hb : bisectNext s.candidate v with
    | more v' => exact .inl ⟨_, rfl, by simp⟩
    | done r => exact .inl ⟨_, rfl, by simp⟩
  | divide v =>
    simp only [engineAdvance, Host.Outcome.next.injEq] at h
    subst h
    cases hb : divideNext s.candidate v with
    | more v' => exact .inl ⟨_, rfl, by simp⟩
    | done r => exact .inr (.inl ⟨_, _, rfl, by simp⟩)
  | walk v =>
    simp only [engineAdvance, Host.Outcome.next.injEq] at h
    subst h
    cases hb : walkNext s.candidate s.listCount s.listEntry v with
    | more v' => exact .inl ⟨_, rfl, by simp⟩
    | done r =>
      cases r with
      | invalid => exact .inr (.inl ⟨_, _, rfl, by simp⟩)
      | answer r => exact .inr (.inl ⟨_, _, rfl, by simp⟩)
      | exhausted p => exact .inl ⟨_, rfl, by simp⟩
  | cursor c =>
    change decodeTurn c s = .next t at h
    by_cases hc : c.cnt < s.length
    · by_cases hp : c.p + c.mode.source.size ≤ s.stream.bytes.length
      · rw [decodeTurn_record hc hp] at h
        cases hm : c.mode with
        | anchor =>
          rw [hm] at h
          simp only [Mode.source, instr_anchor, runRecord, execNccAnchor] at h
          cases hcur : s.recordCursor .anchor with
          | none => rw [hcur] at h; simp at h
          | some c' =>
            rw [hcur] at h
            obtain ⟨h1, -⟩ := recordCursor_eq_some.1 hcur
            rw [hw] at h1
            obtain rfl : c = c' := by simpa using h1
            simp only [Host.Outcome.next.injEq] at h
            exact .inr (.inr (.inl ⟨c, _, _, rfl, hm ▸ hcur, h.symm⟩))
        | delta =>
          rw [hm] at h
          rcases instr_delta (leValue ((s.streamFrom c.p).take Mode.delta.source.size)) with hi | ⟨d, -, hi⟩
          · simp only [Mode.source] at hi h
            simp only [hi, runRecord, execNccSentinel] at h
            cases hcur : s.recordCursor .delta with
            | none => rw [hcur] at h; simp at h
            | some c' =>
              rw [hcur] at h
              simp only [Host.Outcome.next.injEq] at h
              exact .inl ⟨_, h.symm, fun _ => ⟨c, rfl⟩⟩
          · simp only [Mode.source] at hi h
            simp only [hi, runRecord, execNccDelta] at h
            cases hcur : s.recordCursor .delta with
            | none => rw [hcur] at h; simp at h
            | some c' =>
              rw [hcur] at h
              obtain ⟨h1, -⟩ := recordCursor_eq_some.1 hcur
              rw [hw] at h1
              obtain rfl : c = c' := by simpa using h1
              simp only [Host.Outcome.next.injEq] at h
              exact .inr (.inr (.inl ⟨c, _, _, rfl, hm ▸ hcur, h.symm⟩))
      · rw [decodeTurn_short hc (by omega)] at h
        simp only [Host.Outcome.next.injEq] at h
        exact .inr (.inr (.inr ⟨c, _, rfl, h.symm⟩))
    · rw [decodeTurn_stop (by omega)] at h
      simp only [Host.Outcome.next.injEq] at h
      exact .inr (.inr (.inr ⟨c, _, rfl, h.symm⟩))

/-- All that a turn of the engine can change. -/
theorem engineTurn_effect {s t : State} (h : engineTurn s = .next t) :
  (t = s ∧ (s.rst = true ∨ s.pend = none)) ∨
  (s.pend ≠ none ∧ s.rst = false ∧ ((∃ w, t = s.setWork w) ∨ (∃ e v, t = s.complete e v) ∨
   (∃ e n, t = s.completeDecode e n ∧ (s.work = none → s.pend = some .decode) ∧
     (∀ w, s.work = some w → ∃ c, w = .cursor c)) ∨
   (∃ c v w, s.work = some (.cursor c) ∧ c.cnt < s.length ∧ s.destInRange = true ∧
     t = (s.seqWrite (s.destBase + c.cnt) v).setWork w))) := by
  rcases engineTurn_cases h with h | ⟨op, hr, hp, ⟨hw, rfl⟩ | ⟨w, hw, h⟩⟩
  · exact .inl h
  · refine .inr ⟨by simp [hp], hr, ?_⟩
    rcases engineStart_cases op s with ⟨w, e⟩ | ⟨e, v, h, -⟩ | ⟨e, rfl, h⟩
    · exact .inl ⟨_, e⟩
    · exact .inr (.inl ⟨_, _, h⟩)
    · exact .inr (.inr (.inl ⟨_, _, h, fun _ => hp, by simp [hw]⟩))
  · refine .inr ⟨by simp [hp], hr, ?_⟩
    rcases engineAdvance_cases h hw with
      ⟨w', h, -⟩ | ⟨e, v, h, -⟩ | ⟨c, v, w', rfl, hc, h⟩ | ⟨c, e, rfl, h'⟩
    · exact .inl ⟨_, h⟩
    · exact .inr (.inl ⟨_, _, h⟩)
    · obtain ⟨h1, h2, h3, h4⟩ := recordCursor_eq_some.1 hc
      exact .inr (.inr (.inr ⟨c, v, w', h1, h3, h4, h⟩))
    · refine .inr (.inr (.inl ⟨_, _, h', by simp [hw], by simp [hw]⟩))

/-- The engine evaluates the pending command, if there is one. -/
theorem completeTurn_cases {s t : State} (h : completeTurn s = .next t) :
  (t = s ∧ (s.rst = true ∨ s.pend = none)) ∨
  (∃ op, s.rst = false ∧ s.pend = some op ∧ exec op.instr s = .next t) := by
  unfold completeTurn at h
  split_ifs at h with hr
  · exact .inl ⟨by simpa using h.symm, .inl hr⟩
  · split at h
    · rename_i hp
      exact .inl ⟨by simpa using h.symm, .inr hp⟩
    · rename_i op hp
      exact .inr ⟨op, by simpa using hr, hp, h⟩

/-- All that the evaluation of the pending command can change. -/
theorem completeTurn_effect {s t : State} (h : completeTurn s = .next t) :
  (t = s ∧ (s.rst = true ∨ s.pend = none)) ∨
  (∃ op m v c k, s.rst = false ∧ s.pend = some op ∧
      t = { s with seq := m, result := v, status := s.status.completed c, pend := none, work := none, tick := k } ∧
      (op ≠ .decode → m = s.seq ∧ k = s.tick ∧ c.toNat < 8) ∧
      (s.streamMoved = false → c.toNat < 8) ∧
      (∀ j, ¬(op = .decode ∧ s.destBase ≤ j ∧ j < s.destBase + s.length) → m.find j = s.seq.find j) ∧
      (Memory.wf s.seq → Memory.wf m) ∧
      ((∀ x ∈ s.seq, x.1 < s.capacity) → ∀ x ∈ m, x.1 < s.capacity)) := by
  rcases completeTurn_cases h with h | ⟨op, hr, hp, h⟩
  · exact .inl h
  · obtain ⟨m, v, c, k, h', hh⟩ := exec_command_spec op s
    rw [h] at h'
    exact .inr ⟨op, m, v, c, k, hr, hp, by simpa using h', hh⟩

end Sys2Proof.Machine
end

