-- ==== Sys2Proof/Laws/Invariant.lean ====
section
/-! SUPPORT. What the shared operations do to the invariant of the block (Safety.lean). -/

namespace Sys2Proof.Machine

/-- Other working variables that fit keep it. -/
theorem setWork_inv {s : State} {w : Work} (h : s.Inv) (hw : w.Inv s) : (s.setWork w).Inv := by
  constructor
  · exact h.seq_wf
  · exact h.seq_bound
  · exact h.busy_iff_pend
  · exact h.not_busy_done
  · exact h.err_code
  · exact h.busy_err
  · exact h.fresh
  · intro w' e
    have : w = w' := by simpa using e
    subst this
    cases w <;> exact hw
  · exact h.moved
  · exact h.in_reset

/-- A completion keeps it. -/
theorem completed_inv {s : State} (hr : s.rst = false) {m v c k}
   (hm : Memory.wf m) (hb : ∀ x ∈ m, x.1 < s.capacity) (hc : s.streamMoved = false → c.toNat < 8) :
   ({ s with
      seq := m, result := v, status := s.status.completed c, pend := none, work := none, tick := k } : State).Inv := by
  constructor
  · exact hm
  · exact hb
  · rfl
  · rintro ⟨h, -⟩; simp [Status.completed] at h
  · exact hc
  · intro h; simp [Status.completed] at h
  · intro _ h; simp [Status.completed] at h
  · intro w h; simp at h
  · intro _; exact .inl rfl
  · intro h'; rw [show s.rst = true from h'] at hr; simp at hr

/-- So does one with a named code. -/
theorem complete_inv {s : State} (h : s.Inv) (hr : s.rst = false) (e v) : (s.complete e v).Inv :=
  completed_inv hr h.seq_wf h.seq_bound (fun _ => ErrorCode.code_lt e)

/-- So does that of a DECODE, whether the stream moved or not. -/
theorem completeDecode_inv {s : State} (h : s.Inv) (hr : s.rst = false) (e v) : (s.completeDecode e v).Inv := by
  obtain ⟨m, v, c, k, he, h1, h2, h3, h4, h5⟩ := completeDecode_spec e v s
  rw [he]
  refine completed_inv hr (h4 h.seq_wf) (h5 h.seq_bound) (fun hm => ?_)
  obtain ⟨-, -, rfl, -⟩ := h1 hm
  exact ErrorCode.code_lt e

/-- So does a write to an entry that `SEQ` has. -/
theorem seqWrite_inv {s : State} (h : s.Inv) {i v} (hi : i < s.capacity) : (s.seqWrite i v).Inv := by
  constructor
  · exact Memory.wf_write _ _ h.seq_wf
  · exact Memory.bound_write hi h.seq_bound
  · exact h.busy_iff_pend
  · exact h.not_busy_done
  · exact h.err_code
  · exact h.busy_err
  · exact h.fresh
  · intro w e
    have := h.work_inv w e
    cases w <;> exact this
  · exact h.moved
  · exact h.in_reset

/-- It does not read the turns still to come. -/
theorem withInbox_inv {s : State} (h : s.Inv) (ts) : (s.withInbox ts).Inv := by
  constructor
  · exact h.seq_wf
  · exact h.seq_bound
  · exact h.busy_iff_pend
  · exact h.not_busy_done
  · exact h.err_code
  · exact h.busy_err
  · exact h.fresh
  · intro w e
    have := h.work_inv w e
    cases w <;> exact this
  · exact h.moved
  · exact h.in_reset

/-- A reset establishes it (70_reset_and_hazards.md R210). -/
theorem setRst_inv {s : State} (l) : (s.setRst l).Inv := by
  constructor
  · exact List.Pairwise.nil
  · intro e he; simp [State.setRst, State.applyReset] at he
  · rfl
  · rintro ⟨h, -⟩; simp [State.setRst, State.applyReset, Status.cleared] at h
  · intro _; simp [State.setRst, State.applyReset, Status.cleared, ErrorCode.code]
  · intro h; simp [State.setRst, State.applyReset, Status.cleared] at h
  · intro _ _; exact ⟨rfl, rfl, rfl⟩
  · intro w e; simp [State.setRst, State.applyReset] at e
  · intro h; simp [State.setRst, State.applyReset] at h
  · intro _; exact ⟨rfl, rfl, rfl, rfl, rfl, rfl⟩

/-- A change of the stream keeps it (20_memory.md R66). -/
theorem setStream_inv {s : State} (h : s.Inv) (p b) : (s.setStream p b).Inv := by
  constructor
  · exact h.seq_wf
  · exact h.seq_bound
  · exact h.busy_iff_pend
  · exact h.not_busy_done
  · intro hm
    refine h.err_code ?_
    simp only [State.setStream, Bool.or_eq_false_iff] at hm
    exact hm.1
  · exact h.busy_err
  · exact h.fresh
  · intro w e
    have := h.work_inv w e
    cases w with
    | cursor c =>
      obtain ⟨a, b', d, e', f, g⟩ := this
      refine ⟨a, b', d, e', f, ?_⟩
      simp only [State.setStream, Bool.or_eq_true]
      by_cases hq : p = s.streamPresent
      · subst hq
        rcases g with g | g
        · exact .inl g
        · exact .inr (.inl g)
      · exact .inr (.inr (by simp [a, hq]))
    | _ => exact this
  · intro hm
    simp only [State.setStream, Bool.or_eq_true, Bool.and_eq_true] at hm
    rcases hm with hm | hm
    · exact h.moved hm
    · exact .inr (of_decide_eq_true hm.1)
  · exact h.in_reset

/-- An idle block has no working variables (10_state.md R37). -/
theorem work_none_of_idle {s : State} (h : s.Inv) (hp : s.pend = none) : s.work = none := by
  cases hw : s.work with
  | none => rfl
  | some w =>
    have := h.work_inv w hw
    cases w <;> simp [Work.Inv, hp] at this

/-- The engine's turn of a command that has started is the next iteration of the loop its working variables are in. -/
theorem step_engine_started {s : State} {ts : List Turn} {w : Work} (h : s.Inv) (hp : s.pend ≠ none)
    (hw : s.work = some w) : step (s.withInbox (.engine :: ts)) = engineAdvance w (s.withInbox ts) := by
  obtain ⟨op, hp'⟩ := Option.ne_none_iff_exists'.1 hp
  have hr : s.rst = false := by
    cases hr : s.rst with
    | false => rfl
    | true => exact absurd (h.in_reset hr).2.2.2.2.2 hp
  exact engineTurn_advance (s := s.withInbox ts) hr hp' hw

/-- The next iteration of the bisection keeps the loop invariant (41_isqrt_bound.md R121). -/
theorem bisectNext_more {n v v'} (h : Bisect.Inv n v) (e : bisectNext n v = .more v') : v'.Inv n := by
  rcases bisectNext_cases h with ⟨u, e', hu, -⟩ | ⟨r, e', -⟩ <;> rw [e'] at e
  · obtain rfl : u = v' := by simpa using e
    exact hu
  · simp at e

/-- The last one gives the ceiling square root. -/
theorem bisectNext_done {n v r} (h : Bisect.Inv n v) (e : bisectNext n v = .done r) : IsCeilSqrt n r := by
  rcases bisectNext_cases h with ⟨u, e', hu, -⟩ | ⟨r', e', hr, -⟩ <;> rw [e'] at e
  · simp at e
  · obtain rfl : r' = r := by simpa using e
    exact hr

end Sys2Proof.Machine
end

