-- ==== Sys2Proof/Laws/PerInstr.lean ====
section
/-! SUPPORT. Per instruction: decoding its encoding gives it back, whatever follows it. -/

namespace Sys2Proof.Laws.RoundTrip

/-- Decoding the encoding of a well-formed instruction gives the instruction and the bytes after it. -/
def Statement (i : Instr) : Prop :=
  i.wf = true → ∀ rest, decode i.source (encode i ++ rest) = .ok (i, rest)

theorem sqrt : Statement .sqrt := fun _ rest => decode_append .command _ rest rfl

theorem isPrime : Statement .isPrime := fun _ rest => decode_append .command _ rest rfl

theorem isPrimeList : Statement .isPrimeList := fun _ rest => decode_append .command _ rest rfl

theorem decode : Statement .decode := fun _ rest => decode_append .command _ rest rfl

theorem badCommand (w : Word) : Statement (.badCommand w) := by
  intro h rest
  have h' : w ≠ 1#64 ∧ w ≠ 2#64 ∧ w ≠ 3#64 ∧ w ≠ 4#64 := by simpa [Instr.wf] using h
  rw [Instr.source, encode, decode_append _ _ _ rfl, leValue_wordBytes]
  simp [Source.instr, decodeCmd_badCommand h']

theorem nccAnchor (a : Word) : Statement (.nccAnchor a) := by
  intro _ rest
  rw [Instr.source, encode, decode_append _ _ _ rfl, leValue_wordBytes]
  simp [Source.instr]

theorem nccSentinel : Statement .nccSentinel := fun _ rest => decode_append .delta _ rest rfl

theorem nccDelta (d : BitVec 16) : Statement (.nccDelta d) := by
  intro h rest
  have h' : d ≠ 0#16 := by simpa [Instr.wf] using h
  rw [Instr.source, encode, decode_append _ _ _ rfl, leValue_delta]
  simp [Source.instr, decodeDelta, h']

end Sys2Proof.Laws.RoundTrip
end

