-- ==== Sys2Proof/Tests/Slice0.lean ====
section
/-! SUPPORT. Tests of the model by values of the spec (30_encoding.md, 95_test_vectors.md), and for every statement with
hypotheses a state and operands that meet them together. -/

namespace Sys2Proof.Tests

open Sys2Proof Sys2Proof.Machine

/-! The checks of WellFormed refuse ill-formed terms (30_encoding.md R83, R89). -/

theorem test_wf_refuses_legal_word_as_badCommand :
    (Instr.badCommand 1#64).wf = false ∧ (Instr.badCommand 2#64).wf = false ∧
    (Instr.badCommand 3#64).wf = false ∧ (Instr.badCommand 4#64).wf = false := by decide

theorem test_wf_refuses_zero_delta : (Instr.nccDelta 0#16).wf = false := by decide

/-! Decoding, by words written out from the encodings of 30_encoding.md R81, R83, R87 to R89. -/

theorem test_decode_sqrt : decode .command [0x01#8, 0, 0, 0, 0, 0, 0, 0] = .ok (.sqrt, []) := by rfl

theorem test_decode_isPrime : decode .command [0x02#8, 0, 0, 0, 0, 0, 0, 0] = .ok (.isPrime, []) := by rfl

theorem test_decode_isPrimeList : decode .command [0x03#8, 0, 0, 0, 0, 0, 0, 0] = .ok (.isPrimeList, []) := by rfl

theorem test_decode_decode : decode .command [0x04#8, 0, 0, 0, 0, 0, 0, 0] = .ok (.decode, []) := by rfl

/-- Bit 4 is reserved: `0x11` is illegal (R82, R110). -/
theorem test_decode_badCommand : decode .command [0x11#8, 0, 0, 0, 0, 0, 0, 0] = .ok (.badCommand 0x11#64, []) := by rfl

/-- S2's second anchor, 100000 (95_test_vectors.md). -/
theorem test_decode_nccAnchor :
    decode .anchor [0xA0#8, 0x86#8, 0x01#8, 0, 0, 0, 0, 0, 0x03#8] = .ok (.nccAnchor 100000#64, [0x03#8]) := by rfl

theorem test_decode_nccSentinel : decode .delta [0#8, 0#8, 0xA0#8] = .ok (.nccSentinel, [0xA0#8]) := by rfl

/-- Byte `p` holds bits 7:0 and byte `p+1` bits 15:8 (R88). -/
theorem test_decode_nccDelta : decode .delta [0x02#8, 0x01#8] = .ok (.nccDelta 0x0102#16, []) := by rfl

theorem test_decode_too_short :
    decode .command [1#8] = .error .shortCommand ∧ decode .anchor [1#8, 0, 0, 0, 0, 0, 0] = .error .shortAnchor ∧
    decode .delta [1#8] = .error .shortDelta := ⟨rfl, rfl, rfl⟩

theorem test_decodeTableWord :
    decodeTableWord 64 1 = some .sqrt ∧ decodeTableWord 64 0 = some (.badCommand 0#64) ∧
    decodeTableWord 16 0 = some .nccSentinel ∧ decodeTableWord 16 0xFFFF = some (.nccDelta 0xFFFF#16) ∧
    decodeTableWord 16 0x10000 = none := by decide +kernel

/-! States for the tests. -/

/-- The streams of 95_test_vectors.md. -/
def streamS1 : Stream where
  bytes := [0x02#8, 0, 0, 0, 0, 0, 0, 0, 0x01#8, 0, 0x02#8, 0, 0x02#8, 0, 0x04#8, 0, 0x02#8, 0]
  length_lt := by decide

def streamS2 : Stream where
  bytes := [0x02#8, 0, 0, 0, 0, 0, 0, 0, 0x01#8, 0, 0, 0, 0xA0#8, 0x86#8, 0x01#8, 0, 0, 0, 0, 0, 0x03#8, 0]
  length_lt := by decide

def streamCut : Stream where
  bytes := [0x02#8, 0, 0, 0, 0, 0, 0, 0, 0x01#8]
  length_lt := by decide

/-- An idle block of 16 entries with the operands `a0 a1 a2`, and the values `vs` from `SEQ[0]` on. -/
def idle (a0 a1 a2 : Word) (vs : List Word) : State :=
  { State.reset with arg0 := a0, arg1 := a1, arg2 := a2, seq := Memory.writeAll [] 0 vs }

/-- The same with the stream `b`. -/
def idleWith (b : Stream) (a0 a1 a2 : Word) (vs : List Word) : State :=
  { idle a0 a1 a2 vs with streamPresent := true, stream := b }

/-- A DECODE of `len` values into `SEQ[0 ..]` reading `b` at the cursor `c`. -/
def decoding (b : Stream) (len : Word) (c : Cursor) : State :=
  ((idleWith b 0#64 0#64 len []).accept .decode).setWork (.cursor c)

/-- `STATUS` and `RESULT` where a step goes on. -/
def report (o : Host.Outcome State Fault Refusal) : Option (Word × Word) :=
  match o with
  | .next t => some (t.status.word, t.result)
  | .fault _ => none
  | .refused _ => none

/-- What is listed for entry `i` where a step goes on. -/
def entry (i : Nat) (o : Host.Outcome State Fault Refusal) : Option Word :=
  match o with
  | .next t => t.seq.find i
  | .fault _ => none
  | .refused _ => none

/-- The working variables where a step goes on. -/
def working (o : Host.Outcome State Fault Refusal) : Option Work :=
  match o with
  | .next t => t.work
  | .fault _ => none
  | .refused _ => none

/-! One step each, by the tables of 95_test_vectors.md. -/

theorem test_sqrt_ten : report (exec .sqrt (idle 10#64 0#64 0#64 [])) = some (0x02#64, 4#64) := by decide +kernel

/-- The largest input gives `2^32`. -/
theorem test_sqrt_largest :
    report (exec .sqrt (idle 0xFFFFFFFFFFFFFFFF#64 0#64 0#64 [])) = some (0x02#64, 0x100000000#64) := by decide +kernel

theorem test_isPrime_97 : report (exec .isPrime (idle 97#64 0#64 0#64 [])) = some (0x02#64, 1#64) := by decide +kernel

/-- The divisor equals the bound. -/
theorem test_isPrime_25 : report (exec .isPrime (idle 25#64 0#64 0#64 [])) = some (0x02#64, 0#64) := by decide +kernel

/-- Exhausted at 11, the continuation's 13 divides. -/
theorem test_isPrimeList_continuation :
    report (exec .isPrimeList (idle 169#64 0#64 5#64 [2#64, 3#64, 5#64, 7#64, 11#64])) = some (0x02#64, 0#64) := by
  decide +kernel

/-- A duplicate 2 at index 1 is LIST_INVALID; a wrapping range is LIST_RANGE even for an even candidate. -/
theorem test_isPrimeList_errors :
    report (exec .isPrimeList (idle 7#64 0#64 2#64 [2#64, 2#64])) = some (0x52#64, 0#64) ∧
    report (exec .isPrimeList (idle 4#64 0xFFFFFFFFFFFFFFFF#64 2#64 [])) = some (0x62#64, 0#64) := by decide +kernel

/-- A resynchronising decode (W6). -/
theorem test_decode_resynchronises :
    let o := exec .decode (idleWith streamS2 0#64 0#64 4#64 [])
    report o = some (0x02#64, 4#64) ∧ entry 0 o = some 2#64 ∧ entry 1 o = some 3#64 ∧ entry 2 o = some 100000#64 ∧
      entry 3 o = some 100003#64 := by decide +kernel

/-- A stream of 9 bytes (W9, P4): one value, and the entry after it is kept. -/
theorem test_decode_short_delta :
    let o := exec .decode (idleWith streamCut 0#64 0#64 6#64 [0#64, 0x55#64])
    report o = some (0x32#64, 1#64) ∧ entry 0 o = some 2#64 ∧ entry 1 o = some 0x55#64 := by decide +kernel

theorem test_badCommand : report (exec (.badCommand 5#64) (idle 10#64 0#64 0#64 [])) = some (0x72#64, 0#64) := by
  decide +kernel

theorem test_nccAnchor :
    let o := exec (.nccAnchor 100000#64) (decoding streamS2 4#64 { p := 12, last := 3#64, cnt := 2, mode := .anchor })
    entry 2 o = some 100000#64 ∧
      working o = some (.cursor { p := 20, last := 100000#64, cnt := 3, mode := .delta }) := by decide +kernel

theorem test_nccSentinel :
    working (exec .nccSentinel (decoding streamS2 4#64 { p := 10, last := 3#64, cnt := 2, mode := .delta })) =
      some (.cursor { p := 12, last := 3#64, cnt := 2, mode := .anchor }) := by decide +kernel

/-- `2^64 − 2` and the delta 5 wrap to 3 (R161). -/
theorem test_nccDelta_wraps :
    let o := exec (.nccDelta 5#16)
      (decoding streamS2 2#64 { p := 8, last := 0xFFFFFFFFFFFFFFFE#64, cnt := 1, mode := .delta })
    entry 1 o = some 3#64 ∧ working o = some (.cursor { p := 10, last := 3#64, cnt := 2, mode := .delta }) := by
  decide +kernel

/-- 95_test_vectors.md 2.5: `STATUS`, `CMD` and a reserved offset read 0 after reset, `CAPACITY` reads `SEQ_CAP`. -/
theorem test_reads_after_reset :
    let rd := fun (addr : BitVec 32) =>
      match step (State.reset.withInbox [.host (.read .eight addr)]) with
      | .next t => t.reads
      | .fault _ => []
      | .refused _ => []
    rd 0x008#32 = [0#64] ∧ rd 0x000#32 = [0#64] ∧ rd 0x038#32 = [0#64] ∧ rd 0x030#32 = [16#64] := by decide +kernel

/-- A table word is run by the very next step. -/
theorem test_withFetchWord_runs :
    report (step (State.reset.withFetchWord 64 5)) = some (0x72#64, 0#64) ∧
    report (step (State.reset.withFetchWord 64 1)) = some (0x02#64, 0#64) ∧
    entry 0 (step (State.reset.withFetchWord 16 5)) = some 5#64 ∧
    working (step (State.reset.withFetchWord 16 0)) =
      some (.cursor { p := 2, last := 0#64, cnt := 0, mode := .anchor }) := by decide +kernel

/-! Witnesses: for each statement with hypotheses, concrete values that meet them together; boundary values where a clause
has a range. -/

/-- A step goes on into a state with the property `p`. -/
def goesOn (o : Host.Outcome State Fault Refusal) (p : State → Bool) : Bool :=
  match o with
  | .next t => p t
  | .fault _ => false
  | .refused _ => false

theorem exists_of_goesOn {o : Host.Outcome State Fault Refusal} {p : State → Bool} (h : goesOn o p = true) :
    ∃ t, o = .next t ∧ p t = true := by
  cases o with
  | next t => exact ⟨t, rfl, h⟩
  | fault r => simp [goesOn] at h
  | refused r => simp [goesOn] at h

/-- The same block with a command pending. -/
def pending (op : Opcode) : State := (idle 10#64 5#64 3#64 []).accept op

theorem isCeilSqrt_25 : IsCeilSqrt 25 5 := isCeilSqrt_of_square (c := 5)

theorem slow_25 : Slow 25 := ⟨by decide, by decide⟩

theorem isCeilSqrt_10 : IsCeilSqrt 10 4 := isCeilSqrt_of_bounds (lo := 3) (by decide) (by decide) (by decide)

theorem isCeilSqrt_9 : IsCeilSqrt 9 3 := isCeilSqrt_of_square (c := 3)

theorem isCeilSqrt_7 : IsCeilSqrt 7 3 := isCeilSqrt_of_bounds (lo := 2) (by decide) (by decide) (by decide)

theorem isCeilSqrt_97 : IsCeilSqrt 97 10 := isCeilSqrt_of_bounds (lo := 9) (by decide) (by decide) (by decide)

theorem isCeilSqrt_169 : IsCeilSqrt 169 13 := isCeilSqrt_of_square (c := 13)

/-- The invariant of a state that is not in reset, with a command pending and working variables that fit. -/
theorem inv_of_pending {s : State} {w : Work} (hp : s.pend.isSome = true) (hs : s.status = Status.accepted)
    (hr : s.rst = false)
    (hq : Memory.wf s.seq ∧ ∀ e ∈ s.seq, e.1 < s.capacity) (hm : s.streamMoved = false) (hw : s.work = some w) (hi : w.Inv s) :
    s.Inv where
  seq_wf := hq.1
  seq_bound := hq.2
  busy_iff_pend := by rw [hs, hp]; rfl
  not_busy_done := by rw [hs]; decide
  err_code := fun _ => by rw [hs]; decide
  busy_err := fun _ => by rw [hs]; rfl
  fresh := by rw [hs]; intro h; simp [Status.accepted] at h
  work_inv := by
    intro w' h
    rw [hw] at h
    obtain rfl : w = w' := by simpa using h
    exact hi
  moved := by rw [hm]; intro h; simp at h
  in_reset := by rw [hr]; intro h; simp at h

/-- SQRT of 10 between its bounds 2 and 4. -/
def bisecting : State := (pending .sqrt).setWork (.sqrt { lo := 2, hi := 4, c := 3 })

theorem bisecting_inv : bisecting.Inv :=
  inv_of_pending rfl rfl rfl (by decide) rfl rfl ⟨rfl, by decide, by decide, by decide, by decide, by decide, rfl⟩

/-- ISPRIME of 25 with the divisor `d` to come. -/
def dividingBy (d : Nat) : State :=
  ((idle 25#64 0#64 0#64 []).accept .isPrime).setWork (.divide { b := 5, d := d })

theorem dividingBy_inv {d : Nat} (h : 3 ≤ d ∧ d % 2 = 1 ∧ d ≤ 5 + 2) : (dividingBy d).Inv :=
  inv_of_pending rfl rfl rfl ⟨List.Pairwise.nil, fun _ h => by cases h⟩ rfl rfl
    ⟨.inl rfl, slow_25, isCeilSqrt_25, h⟩

/-- ISPRIME of 25 about to try the divisor 5. -/
def dividing : State := dividingBy 5

theorem dividing_inv : dividing.Inv := dividingBy_inv (by decide)

/-- ISPRIME_LIST of 25 along the list `vs` of 4 entries, with entry `i` to come after the candidate `prev`. -/
def walkingAt (vs : List Word) (i prev : Nat) : State :=
  ((idle 25#64 0#64 4#64 vs).accept .isPrimeList).setWork (.walk { b := 5, i := i, prev := prev })

theorem walkingAt_inv {vs : List Word} {i prev : Nat}
    (hq : Memory.wf (Memory.writeAll [] 0 vs) ∧ ∀ e ∈ Memory.writeAll [] 0 vs, e.1 < 16)
    (h : i ≤ 4 ∧ 2 ≤ prev ∧ prev ≤ 5) : (walkingAt vs i prev).Inv :=
  inv_of_pending rfl rfl rfl hq rfl rfl ⟨rfl, rfl, slow_25, isCeilSqrt_25, h⟩

/-- ISPRIME_LIST of 25 after the entry 3. -/
def walking : State := walkingAt [] 2 3

theorem walking_inv : walking.Inv := walkingAt_inv (by decide) (by decide)

/-- A DECODE about to read the sentinel of S2. -/
def resynchronising : State := decoding streamS2 4#64 { p := 10, last := 3#64, cnt := 2, mode := .delta }

theorem resynchronising_inv : resynchronising.Inv :=
  inv_of_pending rfl rfl rfl (by decide) rfl rfl ⟨rfl, by decide, by decide, by decide, fun _ => by decide, .inl rfl⟩

theorem witness_LegalCommandWords :
    (0x5#64 : Word) ≠ 0x1#64 ∧ (0x0#64 : Word) ≠ 0x1#64 ∧ (0x11#64 : Word).extractLsb' 4 60 ≠ 0#60 ∧
    (0x8000000000000001#64 : Word).extractLsb' 4 60 ≠ 0#60 := by decide

theorem witness_IllegalCommandWord :
    ((0x0#64 : Word) ≠ 0x1#64 ∧ (0x0#64 : Word) ≠ 0x2#64 ∧ (0x0#64 : Word) ≠ 0x3#64 ∧ (0x0#64 : Word) ≠ 0x4#64) ∧
    (let s := (idle 1#64 2#64 3#64 []).withInbox [.host (.write .eight 0x000#32 0x0#64), .complete];
      s.rst = false ∧ s.status.busy = false ∧ s.inbox = .host (.write .eight 0x000#32 0x0#64) :: .complete :: []) ∧
    (let s := (pending .sqrt).withInbox [.host (.write .eight 0x000#32 0x0#64)];
      s.rst = false ∧ s.status.busy = true ∧ s.inbox = .host (.write .eight 0x000#32 0x0#64) :: []) := by decide

theorem witness_EncodedInstructionsDecode :
    Instr.decode.wf = true ∧ (Instr.badCommand 0#64).wf = true ∧ (Instr.badCommand 5#64).wf = true ∧
    (Instr.nccAnchor 0#64).wf = true ∧ Instr.nccSentinel.wf = true ∧ (Instr.nccDelta 1#16).wf = true ∧
    (Instr.nccDelta 0xFFFF#16).wf = true := by decide

theorem witness_DecodedBytesAreTheEncoding :
    decode .delta [0xFF#8, 0xFF#8, 0x01#8] = .ok (.nccDelta 0xFFFF#16, [0x01#8]) ∧
    decode .command [0x05#8, 0, 0, 0, 0, 0, 0, 0] = .ok (.badCommand 5#64, []) ∧
    decode .delta [0x01#8] = .error .shortDelta := ⟨rfl, rfl, rfl⟩

/-- The entries below, after and far from a running DECODE's destination range `[5, 8)`. -/
theorem witness_HostReads :
    (pending .decode).rst = false ∧
    ∀ i ∈ [0, 4, 8, 15], i < (pending .decode).cap.entries ∧
      ¬((pending .decode).pend = some .decode ∧ (pending .decode).arg1.toNat ≤ i ∧
        i < (pending .decode).arg1.toNat + (pending .decode).arg2.toNat) := by decide

theorem witness_CapacityIsConstant :
    State.reset.rst = false ∧ ∃ t, step (idle 10#64 0#64 0#64 []) = .next t := ⟨rfl, _, rfl⟩

theorem witness_IdleHostWrites :
    (idle 1#64 2#64 3#64 []).rst = false ∧ (idle 1#64 2#64 3#64 []).status.busy = false ∧
    0 < (idle 1#64 2#64 3#64 []).cap.entries ∧ 15 < (idle 1#64 2#64 3#64 []).cap.entries := by decide

theorem witness_BusyHostWritesIgnored :
    (∀ addr ∈ [0x010#32, 0x1000#32, 0x1078#32], addr.toNat % 8 = 0 ∧ addr ≠ 0x000#32 ∧
      (pending .sqrt).status.busy = true) ∧
    (∀ addr ∈ [0x008#32, 0x038#32, 0xFF8#32, 0x1080#32, 0xFFFFFFF8#32], addr.toNat % 8 = 0 ∧ addr ≠ 0x000#32 ∧
      addr ≠ 0x010#32 ∧ addr ≠ 0x018#32 ∧ addr ≠ 0x020#32 ∧
      ¬(0x1000 ≤ addr.toNat ∧ addr.toNat < 0x1000 + 8 * (idle 1#64 2#64 3#64 []).cap.entries)) := by
  refine ⟨?_, ?_⟩ <;> intro addr h <;> simp only [List.mem_cons, List.not_mem_nil, or_false] at h
  · rcases h with rfl | rfl | rfl <;> exact ⟨rfl, by simp, rfl⟩
  rcases h with rfl | rfl | rfl | rfl | rfl <;> simp [idle, State.reset]

theorem witness_UnmappedOffsets :
    State.reset.rst = false ∧
    (∀ addr ∈ [0x038#32, 0xFF8#32, 0x1080#32, 0xFFFFFFF8#32], addr.toNat % 8 = 0 ∧
      ((0x038 ≤ addr.toNat ∧ addr.toNat < 0x1000) ∨ 0x1000 + 8 * State.reset.cap.entries ≤ addr.toNat)) ∧
    (∀ addr ∈ [0x008#32, 0x028#32, 0x030#32], addr.toNat % 8 = 0 ∧
      (addr = 0x008#32 ∨ addr = 0x028#32 ∨ addr = 0x030#32)) := by
  refine ⟨rfl, ?_, ?_⟩ <;> intro addr h <;> simp only [List.mem_cons, List.not_mem_nil, or_false] at h
  · rcases h with rfl | rfl | rfl | rfl <;> simp [State.reset]
  rcases h with rfl | rfl | rfl <;> simp

theorem witness_ReadsHaveNoSideEffect : (0x1000#32).toNat % 8 = 0 ∧ (0xFFFFFFF8#32).toNat % 8 = 0 := by decide

theorem witness_InadmissibleAccessRefused :
    (AccessSize.four ≠ .eight ∨ (0x000#32).toNat % 8 ≠ 0) ∧
    (AccessSize.eight ≠ .eight ∨ (0x004#32).toNat % 8 ≠ 0) := by decide

theorem witness_SeqWindowReadsBack :
    let s := (idle 1#64 2#64 3#64 []).withInbox
      [.host (.write .eight (BitVec.ofNat 32 (0x1000 + 8 * 15)) 9#64),
        .host (.read .eight (BitVec.ofNat 32 (0x1000 + 8 * 15)))]
    s.rst = false ∧ s.status.busy = false ∧ s.pend = none ∧ 15 < s.cap.entries ∧
      s.inbox = .host (.write .eight (BitVec.ofNat 32 (0x1000 + 8 * 15)) 9#64) ::
        .host (.read .eight (BitVec.ofNat 32 (0x1000 + 8 * 15))) :: [] := by decide

/-- The first and last entry of the destination range `[5, 8)`, and their neighbours outside it. -/
theorem witness_ReadsDuringDecode :
    (pending .decode).rst = false ∧ (pending .decode).pend = some .decode ∧
    (∀ i ∈ [4, 5, 7, 8, 15], i < (pending .decode).cap.entries) ∧
    (∀ i ∈ [5, 7], (pending .decode).arg1.toNat ≤ i ∧
      i < (pending .decode).arg1.toNat + (pending .decode).arg2.toNat) := by decide

theorem witness_CommandAccepted :
    ((idle 1#64 2#64 3#64 []).rst = false ∧ (idle 1#64 2#64 3#64 []).status.busy = false ∧
      (decodeCmd 4#64).opcode? = some .decode ∧ (decodeCmd 5#64).opcode? = some .badCommand) ∧
    (let s := (pending .sqrt).withInbox [.host (.write .eight 0x010#32 7#64)];
      s.status.busy = true ∧ (∃ t, step s = .next t) ∧ ¬ ∃ level ts, s.inbox = .reset level :: ts) :=
  ⟨by decide, rfl, ⟨_, rfl⟩, by rintro ⟨_, _, h⟩; simp [State.withInbox] at h⟩

theorem witness_CommandRejected : (pending .decode).rst = false ∧ (pending .decode).status.busy = true := by decide

theorem witness_CompletionWrites :
    (∃ t, step (pending .badCommand) = .next t ∧ decide (t.pend = none) = true) ∧ (pending .badCommand).pend ≠ none ∧
    (¬ ∃ level ts, (pending .badCommand).inbox = .reset level :: ts) ∧ (pending .badCommand).streamMoved = false :=
  ⟨exists_of_goesOn (by decide +kernel), by decide, by rintro ⟨_, _, h⟩; simp [pending, idle, State.reset] at h, rfl⟩

theorem witness_BadCommandCompletes :
    ((0x0#64 : Word) ≠ 0x1#64 ∧ (0x0#64 : Word) ≠ 0x2#64 ∧ (0x0#64 : Word) ≠ 0x3#64 ∧ (0x0#64 : Word) ≠ 0x4#64) ∧
    (pending .badCommand).status.rej = false := by decide

/-- The bisection of 10 goes on from 0 and 4, and ends from 2 and 4; that of 9 hits 3. -/
theorem witness_SqrtBoundIsLeastRoot :
    10 < 2 ^ 64 ∧ (∃ v, sqrtStart 10 = .more v) ∧
    Bisect.Inv 10 { lo := 0, hi := 4, c := 2 } ∧
    bisectNext 10 { lo := 0, hi := 4, c := 2 } = .more { lo := 2, hi := 4, c := 3 } ∧
    Bisect.Inv 10 { lo := 2, hi := 4, c := 3 } ∧ bisectNext 10 { lo := 2, hi := 4, c := 3 } = .done 4 ∧
    Bisect.Inv 9 { lo := 2, hi := 4, c := 3 } ∧ bisectNext 9 { lo := 2, hi := 4, c := 3 } = .done 3 :=
  ⟨by decide, (sqrtStart_of_gt (by decide) (by decide)).imp fun _ h => h.1, ⟨by decide, by decide, by decide, by decide, rfl⟩, rfl,
    ⟨by decide, by decide, by decide, by decide, rfl⟩, rfl, ⟨by decide, by decide, by decide, by decide, rfl⟩, rfl⟩

theorem witness_SqrtBoundRange : 0xFFFFFFFE00000001 < 2 ^ 64 ∧ 2 ^ 64 - 1 < 2 ^ 64 := by decide

theorem witness_MidpointsDoNotOverflow :
    bisecting.Inv ∧ bisecting.work = some (.sqrt { lo := 2, hi := 4, c := 3 }) := ⟨bisecting_inv, rfl⟩

theorem witness_SqrtCornerCases : 3 ≤ 3 ∧ 3 < 2 ^ 64 ∧ 3 ≤ 2 ^ 64 - 1 ∧ 2 ^ 64 - 1 < 2 ^ 64 := by decide

theorem witness_IsPrimeDecidesPrimality :
    (idle 97#64 0#64 0#64 []).arg0.toNat.Prime ∧ (idle 2#64 0#64 0#64 []).arg0.toNat.Prime ∧
    ¬ (idle 25#64 0#64 0#64 []).arg0.toNat.Prime ∧ ¬ (idle 0#64 0#64 0#64 []).arg0.toNat.Prime := by
  refine ⟨?_, ?_, ?_, ?_⟩
  · show Nat.Prime 97
    norm_num
  · show Nat.Prime 2
    norm_num
  · show ¬ Nat.Prime 25
    norm_num
  · show ¬ Nat.Prime 0
    norm_num

/-- `base + count` at the capacity, one above it, and past `2^64`. -/
theorem witness_IsPrimeListCompletes :
    (idle 9#64 16#64 1#64 []).cap.entries < (16#64 : Word).toNat + (1#64 : Word).toNat ∧
    (idle 4#64 0xFFFFFFFFFFFFFFFF#64 2#64 []).cap.entries <
      (0xFFFFFFFFFFFFFFFF#64 : Word).toNat + (2#64 : Word).toNat ∧
    (16#64 : Word).toNat + (0#64 : Word).toNat ≤ (idle 9#64 16#64 0#64 []).cap.entries := by decide

theorem witness_ListFastPathReadsNoEntry :
    let q := fun n : Word => idle n 0#64 1#64 [0#64]
    (q 4#64).arg1.toNat + (q 4#64).arg2.toNat ≤ (q 4#64).cap.entries ∧ (q 1#64).arg0.toNat < 2 ∧
      (q 2#64).arg0.toNat = 2 ∧ (q 3#64).arg0.toNat = 3 ∧
      2 < (q 4#64).arg0.toNat ∧ (q 4#64).arg0.toNat % 2 = 0 ∧
      ¬(5 ≤ (q 4#64).arg0.toNat ∧ (q 4#64).arg0.toNat % 2 = 1) := by decide

/-- The list of a block with `vs` from `SEQ[0]` on. -/
def listOf (n : Word) (count : Word) (vs : List Word) (i : Nat) : Nat :=
  ((idle n 0#64 count vs).seqRead ((idle n 0#64 count vs).arg1.toNat + i)).toNat

/-- `[2,2]` for 7, `[2,3,7]` for 25 and `[3]` for 9: the three ways in which an entry ends the walk. -/
theorem witness_FirstEntryNotPassedEndsWalk :
    (IsCeilSqrt 7 3 ∧ 5 ≤ 7 ∧ 7 % 2 = 1 ∧ 1 < (2#64 : Word).toNat ∧
      (∀ i < 1, Passed 7 3 (listOf 7#64 2#64 [2#64, 2#64]) i) ∧ ¬ Skipped (listOf 7#64 2#64 [2#64, 2#64]) 1 ∧
      listOf 7#64 2#64 [2#64, 2#64] 1 ≤ previous (listOf 7#64 2#64 [2#64, 2#64]) 1) ∧
    (IsCeilSqrt 25 5 ∧ 2 < (3#64 : Word).toNat ∧
      (∀ i < 2, Passed 25 5 (listOf 25#64 3#64 [2#64, 3#64, 7#64]) i) ∧
      ¬ Skipped (listOf 25#64 3#64 [2#64, 3#64, 7#64]) 2 ∧
      previous (listOf 25#64 3#64 [2#64, 3#64, 7#64]) 2 < listOf 25#64 3#64 [2#64, 3#64, 7#64] 2 ∧
      5 < listOf 25#64 3#64 [2#64, 3#64, 7#64] 2) ∧
    (IsCeilSqrt 9 3 ∧ 0 < (1#64 : Word).toNat ∧ (∀ i < 0, Passed 9 3 (listOf 9#64 1#64 [3#64]) i) ∧
      ¬ Skipped (listOf 9#64 1#64 [3#64]) 0 ∧
      previous (listOf 9#64 1#64 [3#64]) 0 < listOf 9#64 1#64 [3#64] 0 ∧ listOf 9#64 1#64 [3#64] 0 ≤ 3 ∧
      listOf 9#64 1#64 [3#64] 0 ∣ 9) := by
  refine ⟨⟨isCeilSqrt_7, by decide, by decide, by decide, ?_, fun h => absurd h.1 (by decide), by decide +kernel⟩,
    ⟨isCeilSqrt_25, by decide, ?_, fun h => absurd h.1 (by decide), by decide +kernel, by decide +kernel⟩,
    ⟨isCeilSqrt_9, by decide, ?_, fun h => absurd h.2 (by decide +kernel), by decide +kernel, by decide +kernel, by decide +kernel⟩⟩
  · intro i hi
    obtain rfl : i = 0 := by omega
    exact .inl ⟨rfl, rfl⟩
  · intro i hi
    rcases (by omega : i = 0 ∨ i = 1) with rfl | rfl
    · exact .inl ⟨rfl, rfl⟩
    · exact .inr ⟨by decide +kernel, by decide +kernel, by decide +kernel⟩
  · intro i hi
    omega

/-- `[2,3,5,7,11]` for 169, whose continuation finds 13, and `[2,3]` for 97, whose continuation finds nothing. -/
theorem witness_ExhaustedListContinues :
    (IsCeilSqrt 169 13 ∧ (∀ i < 5, Passed 169 13 (listOf 169#64 5#64 [2#64, 3#64, 5#64, 7#64, 11#64]) i) ∧
      ∃ q, q % 2 = 1 ∧ previous (listOf 169#64 5#64 [2#64, 3#64, 5#64, 7#64, 11#64]) 5 < q ∧ q ≤ 13 ∧ q ∣ 169) ∧
    (IsCeilSqrt 97 10 ∧ (∀ i < 2, Passed 97 10 (listOf 97#64 2#64 [2#64, 3#64]) i) ∧
      ¬ ∃ q, q % 2 = 1 ∧ previous (listOf 97#64 2#64 [2#64, 3#64]) 2 < q ∧ q ≤ 10 ∧ q ∣ 97) := by
  refine ⟨⟨isCeilSqrt_169, ?_, 13, by decide, by decide +kernel, by decide, by decide⟩, isCeilSqrt_97, ?_, ?_⟩
  · intro i hi
    rcases (by omega : i = 0 ∨ i = 1 ∨ i = 2 ∨ i = 3 ∨ i = 4) with rfl | rfl | rfl | rfl | rfl
    · exact .inl ⟨rfl, rfl⟩
    all_goals exact .inr ⟨by decide +kernel, by decide +kernel, by decide +kernel⟩
  · intro i hi
    rcases (by omega : i = 0 ∨ i = 1) with rfl | rfl
    · exact .inl ⟨rfl, rfl⟩
    · exact .inr ⟨by decide +kernel, by decide +kernel, by decide +kernel⟩
  · rintro ⟨q, h1, h2, h3, h4⟩
    have h5 : 3 < q := h2
    rcases (by omega : q = 5 ∨ q = 7 ∨ q = 9) with rfl | rfl | rfl <;> omega

/-- The list `[2,3]`. -/
theorem witness_PrimePrefixListAgrees :
    (idle 25#64 0#64 2#64 [2#64, 3#64]).arg1.toNat + (2#64 : Word).toNat ≤
      (idle 25#64 0#64 2#64 [2#64, 3#64]).cap.entries ∧
    ∀ i < (2#64 : Word).toNat, listOf 25#64 2#64 [2#64, 3#64] i = Nat.nth Nat.Prime i := by
  refine ⟨by decide, ?_⟩
  intro i hi
  have h : i < 2 := hi
  rcases (by omega : i = 0 ∨ i = 1) with rfl | rfl
  · rw [Nat.nth_prime_zero_eq_two]; rfl
  · rw [Nat.nth_prime_one_eq_three]; rfl

theorem witness_ListNeverDeniesPrime : (idle 7#64 0#64 2#64 [2#64, 2#64]).arg0.toNat.Prime := by
  show Nat.Prime 7
  norm_num

/-- Divisors: 7 above the bound 5; 5, at the bound, divides; 3 does not. -/
theorem witness_DivisorsStayInRange :
    ((dividingBy 7).Inv ∧ (dividingBy 7).work = some (.divide { b := 5, d := 7 }) ∧ 5 < 7) ∧
    ((dividingBy 5).Inv ∧ (dividingBy 5).work = some (.divide { b := 5, d := 5 }) ∧ 5 ≤ 5 ∧
      5 ∣ (dividingBy 5).arg0.toNat) ∧
    ((dividingBy 3).Inv ∧ (dividingBy 3).work = some (.divide { b := 5, d := 3 }) ∧ 3 ≤ 5 ∧
      ¬ 3 ∣ (dividingBy 3).arg0.toNat) :=
  ⟨⟨dividingBy_inv (by decide), rfl, by decide⟩, ⟨dividingBy_inv (by decide), rfl, by decide, by decide⟩,
    ⟨dividingBy_inv (by decide), rfl, by decide, by decide⟩⟩

/-- The list entry that the walk of `s` comes to. -/
def nextEntry (s : State) (i : Nat) : Nat := (s.seqRead (s.arg1.toNat + i)).toNat

/-- Entries: the leading 2; a leading 1; a second 3; 6 above the bound 5; 5, at the bound, divides; 3 does not. -/
theorem witness_DivisorsStayInRange_walk :
    (∀ vs i prev, (walkingAt vs i prev).work = some (.walk { b := 5, i := i, prev := prev })) ∧
    ((walkingAt [2#64] 0 2).Inv ∧ 0 < (walkingAt [2#64] 0 2).arg2.toNat ∧ nextEntry (walkingAt [2#64] 0 2) 0 = 2) ∧
    ((walkingAt [1#64] 0 2).Inv ∧ nextEntry (walkingAt [1#64] 0 2) 0 < 3) ∧
    ((walkingAt [2#64, 3#64, 3#64] 2 3).Inv ∧ nextEntry (walkingAt [2#64, 3#64, 3#64] 2 3) 2 ≤ 3) ∧
    ((walkingAt [2#64, 3#64, 6#64] 2 3).Inv ∧ 3 < nextEntry (walkingAt [2#64, 3#64, 6#64] 2 3) 2 ∧
      5 < nextEntry (walkingAt [2#64, 3#64, 6#64] 2 3) 2) ∧
    ((walkingAt [2#64, 3#64, 5#64] 2 3).Inv ∧ 3 < nextEntry (walkingAt [2#64, 3#64, 5#64] 2 3) 2 ∧
      nextEntry (walkingAt [2#64, 3#64, 5#64] 2 3) 2 ≤ 5 ∧ nextEntry (walkingAt [2#64, 3#64, 5#64] 2 3) 2 ∣ 25) ∧
    ((walkingAt [3#64] 0 2).Inv ∧ 2 < nextEntry (walkingAt [3#64] 0 2) 0 ∧ nextEntry (walkingAt [3#64] 0 2) 0 ≤ 5 ∧
      ¬ nextEntry (walkingAt [3#64] 0 2) 0 ∣ 25) := by
  refine ⟨fun _ _ _ => rfl, ⟨walkingAt_inv ?_ ?_, ?_⟩, ⟨walkingAt_inv ?_ ?_, ?_⟩, ⟨walkingAt_inv ?_ ?_, ?_⟩,
    ⟨walkingAt_inv ?_ ?_, ?_⟩, ⟨walkingAt_inv ?_ ?_, ?_⟩, walkingAt_inv ?_ ?_, ?_⟩ <;> decide +kernel

/-- `DEST_BASE + LENGTH` one above the capacity. -/
theorem witness_DecodeBufferOverflow :
    (idleWith streamS1 0#64 11#64 6#64 []).streamMoved = false ∧
    (idleWith streamS1 0#64 11#64 6#64 []).cap.entries < (11#64 : Word).toNat + (6#64 : Word).toNat := by decide

/-- At the capacity, and with a length of 0. -/
theorem witness_DecodeOpenFailure :
    (idle 0#64 10#64 6#64 []).streamMoved = false ∧ (idle 0#64 10#64 6#64 []).streamPresent = false ∧
    (10#64 : Word).toNat + (6#64 : Word).toNat ≤ (idle 0#64 10#64 6#64 []).cap.entries ∧
    (0#64 : Word).toNat + (0#64 : Word).toNat ≤ (idle 0#64 0#64 0#64 []).cap.entries := by decide

/-- A DECODE before its first step; at the last value of a full range; and the anchor 100000 of S2. -/
theorem witness_AnchorRecordAppends :
    (let s := (idleWith streamS2 0#64 0#64 16#64 []).accept .decode;
      s.rst = false ∧ s.pend = some .decode ∧ s.work = none ∧ s.arg1.toNat + s.arg2.toNat ≤ s.cap.entries ∧
        s.streamPresent = true) ∧
    (let c : Cursor := { p := 12, last := 3#64, cnt := 15, mode := .anchor };
      let s := decoding streamS2 16#64 c;
      s.work = some (.cursor c) ∧ c.mode = .anchor ∧ c.cnt < s.arg2.toNat ∧
        s.arg1.toNat + s.arg2.toNat ≤ s.cap.entries ∧ s.rst = false ∧ s.pend = some .decode ∧
        s.stream.bytes.drop c.p = 0xA0#8 :: 0x86#8 :: 0x01#8 :: 0 :: 0 :: 0 :: 0 :: 0 :: [0x03#8, 0] ∧
        100000#64 = 0#8 ++ 0#8 ++ 0#8 ++ 0#8 ++ 0#8 ++ 0x01#8 ++ 0x86#8 ++ 0xA0#8) := by decide

/-- The delta 3 at the end of S2. -/
theorem witness_DeltaRecordAppends :
    let c : Cursor := { p := 20, last := 100000#64, cnt := 3, mode := .delta }
    let s := decoding streamS2 4#64 c
    s.work = some (.cursor c) ∧ c.mode = .delta ∧ c.cnt < s.arg2.toNat ∧
      s.arg1.toNat + s.arg2.toNat ≤ s.cap.entries ∧ s.rst = false ∧ s.pend = some .decode ∧
      s.stream.bytes.drop c.p = 0x03#8 :: 0x00#8 :: [] ∧ 3#16 = 0x00#8 ++ 0x03#8 ∧ 3#16 ≠ 0#16 := by decide

theorem witness_SentinelResynchronises :
    let c : Cursor := { p := 10, last := 3#64, cnt := 2, mode := .delta }
    resynchronising.work = some (.cursor c) ∧ c.mode = .delta ∧ c.cnt < resynchronising.arg2.toNat ∧
      resynchronising.arg1.toNat + resynchronising.arg2.toNat ≤ resynchronising.cap.entries ∧
      resynchronising.rst = false ∧ resynchronising.pend = some .decode ∧
      resynchronising.stream.bytes.drop c.p =
        0#8 :: 0#8 :: [0xA0#8, 0x86#8, 0x01#8, 0, 0, 0, 0, 0, 0x03#8, 0] := by decide

/-- No DECODE; a cursor of the other kind; a count at `LENGTH`, in both modes; a destination range one entry too long. -/
theorem witness_RecordOutsideDecodeRefused :
    (∀ c, (pending .sqrt).work ≠ some (.cursor c)) ∧
    (resynchronising.work = some (.cursor { p := 10, last := 3#64, cnt := 2, mode := .delta })) ∧
    (let c : Cursor := { p := 8, last := 2#64, cnt := 4, mode := .delta };
      (decoding streamS1 4#64 c).work = some (.cursor c) ∧ (decoding streamS1 4#64 c).arg2.toNat ≤ c.cnt) ∧
    (let c : Cursor := { p := 12, last := 3#64, cnt := 4, mode := .anchor };
      (decoding streamS2 4#64 c).work = some (.cursor c) ∧ (decoding streamS2 4#64 c).arg2.toNat ≤ c.cnt) ∧
    (let c : Cursor := { p := 0, last := 0#64, cnt := 0, mode := .anchor };
      let s := decoding streamS1 17#64 c;
      s.work = some (.cursor c) ∧ s.cap.entries < s.arg1.toNat + s.arg2.toNat) :=
  ⟨(fun c h => by cases h), rfl, by decide, by decide, by decide⟩

/-- S2 cut so that one byte of the second anchor is missing: `p + 8` is one above `STREAM_LEN`. -/
theorem witness_ShortAnchorRead :
    let c : Cursor := { p := 15, last := 3#64, cnt := 2, mode := .anchor }
    let s := (decoding streamS2 4#64 c).withInbox [.engine]
    s.rst = false ∧ s.pend = some .decode ∧ s.streamMoved = false ∧ s.inbox = .engine :: [] ∧
      s.work = some (.cursor c) ∧ c.mode = .anchor ∧ c.cnt < s.arg2.toNat ∧
      s.stream.bytes.length < c.p + 8 := by decide

/-- One byte of a delta is missing. -/
theorem witness_ShortDeltaRead :
    let c : Cursor := { p := 8, last := 2#64, cnt := 1, mode := .delta }
    let s := (decoding streamCut 6#64 c).withInbox [.engine]
    s.rst = false ∧ s.pend = some .decode ∧ s.streamMoved = false ∧ s.inbox = .engine :: [] ∧
      s.work = some (.cursor c) ∧ c.mode = .delta ∧ c.cnt < s.arg2.toNat ∧
      s.stream.bytes.length < c.p + 2 := by decide

/-- The count at `LENGTH` with bytes left, and a DECODE of length 0 at the end of `SEQ`. -/
theorem witness_DecodeStopsAtLength :
    (let c : Cursor := { p := 12, last := 5#64, cnt := 3, mode := .delta };
      let s := (decoding streamS1 3#64 c).withInbox [.engine];
      s.rst = false ∧ s.pend = some .decode ∧ s.streamMoved = false ∧ s.inbox = .engine :: [] ∧
        s.work = some (.cursor c) ∧ c.cnt = s.arg2.toNat) ∧
    (let s := idleWith streamS1 0#64 16#64 0#64 [];
      s.streamMoved = false ∧ s.arg2 = 0#64 ∧ s.arg1.toNat ≤ s.cap.entries ∧ s.streamPresent = true) ∧
    resynchronising.work = some (.cursor { p := 10, last := 3#64, cnt := 2, mode := .delta }) ∧
    (Instr.nccDelta 5#16).opcode? = none ∧ Instr.nccSentinel.opcode? = none ∧
    (∃ t, exec (.nccDelta 5#16) resynchronising = .next t) ∧ ∃ t, exec .nccSentinel resynchronising = .next t :=
  ⟨by decide, by decide, rfl, rfl, rfl, ⟨_, rfl⟩, ⟨_, rfl⟩⟩

theorem witness_DecodeMatchesValues :
    let s := idleWith streamS1 0#64 10#64 6#64 []
    s.streamMoved = false ∧ s.arg1.toNat + s.arg2.toNat ≤ s.cap.entries ∧ s.streamPresent = true := by decide

theorem witness_DecodeFrame :
    (idleWith streamS1 0#64 10#64 6#64 []).streamMoved = false ∧
    ¬((10#64 : Word).toNat ≤ 9 ∧ 9 < (10#64 : Word).toNat + (6#64 : Word).toNat) ∧
    ¬((10#64 : Word).toNat ≤ 16 ∧ 16 < (10#64 : Word).toNat + (6#64 : Word).toNat) := by decide

def segmentTwo : Segment := { anchor := 2#64, deltas := [1#16] }

def segmentFar : Segment := { anchor := 100000#64, deltas := [3#16] }

/-- S2 is the segment of 2 and the delta 1, then that of 100000 and the delta 3. -/
theorem streamS2_segments : streamS2.bytes = nccStream segmentTwo [segmentFar] := by
  simp [streamS2, nccStream, Segment.bytes, segmentTwo, segmentFar, encode, wordBytes, BitVec.extractLsb'_eq_extractLsb]

theorem witness_SegmentStreamDecodes :
    (idleWith streamS2 0#64 12#64 4#64 []).streamMoved = false ∧
    (idleWith streamS2 0#64 12#64 4#64 []).streamPresent = true ∧
    (12#64 : Word).toNat + (4#64 : Word).toNat ≤ (idleWith streamS2 0#64 12#64 4#64 []).cap.entries ∧
    (∀ k ∈ [segmentTwo, segmentFar], ∀ d ∈ k.deltas, d ≠ 0#16) ∧
    (idleWith streamS2 0#64 12#64 4#64 []).stream.bytes.drop (0#64 : Word).toNat =
      nccStream segmentTwo [segmentFar] ++ [] ∧
    (4#64 : Word).toNat ≤ ([segmentTwo, segmentFar].flatMap Segment.values).length := by
  refine ⟨rfl, rfl, by decide, by simp [segmentTwo, segmentFar], ?_, by decide⟩
  rw [List.append_nil]
  exact streamS2_segments

/-- A change of the stream while a DECODE is pending, and a DECODE whose stream moved, in range and out of it. -/
theorem witness_MovedStreamGivesAnyValue :
    ((pending .decode).withInbox [.stream true streamS1]).inbox = .stream true streamS1 :: [] ∧
    (resynchronising.setStream false streamS1).streamMoved = true ∧
    0 < min (resynchronising.setStream false streamS1).arg2.toNat
      ((resynchronising.setStream false streamS1).cap.entries -
        (resynchronising.setStream false streamS1).arg1.toNat) := by decide

theorem witness_StepRunsPendingCommand :
    (pending .isPrime).rst = false ∧ (pending .isPrime).pend = some .isPrime ∧
    (decodeCmd 2#64).opcode? = some .isPrime ∧ (pending .badCommand).pend = some .badCommand ∧
    (decodeCmd 0#64).opcode? = some .badCommand := by decide

theorem witness_StepRunsStreamRecord :
    let c : Cursor := { p := 10, last := 3#64, cnt := 2, mode := .delta }
    resynchronising.rst = false ∧ resynchronising.pend = some .decode ∧
      resynchronising.work = some (.cursor c) ∧ c.cnt < resynchronising.arg2.toNat ∧
      decode c.mode.source (resynchronising.stream.bytes.drop c.p) =
        .ok (.nccSentinel, [0xA0#8, 0x86#8, 0x01#8, 0, 0, 0, 0, 0, 0x03#8, 0]) :=
  ⟨rfl, rfl, rfl, by decide, rfl⟩

theorem witness_EngineStepsReachCompletion :
    ∀ op ∈ [Opcode.sqrt, .isPrime, .isPrimeList, .decode, .badCommand],
      (pending op).rst = false ∧ (pending op).pend = some op ∧ (pending op).work = none := by decide

theorem witness_PendingCommandCompletes :
    ∀ op ∈ [Opcode.sqrt, .isPrime, .isPrimeList, .decode, .badCommand],
      (pending op).rst = false ∧ (pending op).pend = some op ∧ (pending op).inbox = [] := by decide

theorem witness_ErrorsDoNotStopTheBlock :
    ((pending .badCommand).rst = false ∧ ∃ t, exec Opcode.badCommand.instr (pending .badCommand) = .next t) ∧
    (let s := ((idle 1#64 2#64 3#64 []).complete .badCommand 0#64).withInbox
        [.host (.write .eight 0x000#32 1#64)];
      s.status.busy = false ∧ (∃ t, step s = .next t ∧ decide (t.status.err ≠ s.status.err) = true) ∧
        ¬ ∃ level ts, s.inbox = .reset level :: ts) :=
  ⟨⟨rfl, _, rfl⟩, rfl, exists_of_goesOn (by decide +kernel), by rintro ⟨_, _, h⟩; simp [State.withInbox] at h⟩

/-- The block that has completed an illegal command meets the invariant, and its next step accepts a command. -/
theorem witness_ErrorsDoNotStopTheBlock_inv :
    (((idle 1#64 2#64 3#64 []).complete .badCommand 0#64).withInbox [.host (.write .eight 0x000#32 1#64)]).Inv where
  seq_wf := List.Pairwise.nil
  seq_bound := by intro e he; cases he
  busy_iff_pend := rfl
  not_busy_done := by decide
  err_code := by decide
  busy_err := by decide
  fresh := by decide
  work_inv := by intro w h; cases h
  moved := by decide
  in_reset := by decide

theorem witness_IdleBlockDoesNothing : (idle 1#64 2#64 3#64 []).pend = none := rfl

theorem witness_StepKeepsInvariant :
    bisecting.Inv ∧ (∃ t, step bisecting = .next t ∧ (!t.status.busy) = true) ∧
    dividing.Inv ∧ ∃ t, step dividing = .next t ∧ (!t.status.busy) = true :=
  ⟨bisecting_inv, exists_of_goesOn (by decide +kernel), dividing_inv, exists_of_goesOn (by decide +kernel)⟩

theorem witness_OnlyBadAccessStops : dividing.Inv ∧ walking.Inv := ⟨dividing_inv, walking_inv⟩

theorem witness_ResultChangesOnlyAtCompletion :
    ∃ t, step (pending .sqrt) = .next t ∧ decide (t.result ≠ (pending .sqrt).result) = true :=
  exists_of_goesOn (by decide +kernel)

/-- An idle block whose host writes `ARG1`. -/
theorem witness_ArgumentsChangeOnlyByHost :
    let s := (idle 1#64 2#64 3#64 []).withInbox [.host (.write .eight 0x018#32 9#64)]
    (∃ t, step s = .next t ∧ decide (t.arg1 ≠ s.arg1) = true) ∧ ¬ ∃ level ts, s.inbox = .reset level :: ts :=
  ⟨exists_of_goesOn (by decide +kernel), by rintro ⟨_, _, h⟩; simp [State.withInbox] at h⟩

theorem noReset_host (a : BusAccess) (ts : List Turn) (s : State) :
    ¬ ∃ level ts', (s.withInbox (.host a :: ts)).inbox = .reset level :: ts' := by
  rintro ⟨_, _, h⟩; simp at h

/-- A completion; a rejection; and an acceptance after the completion, which clears the flag of a rejection. -/
theorem witness_StatusChangesOnlyByLifecycle :
    (bisecting.Inv ∧ (∃ t, step bisecting = .next t ∧ (!t.status.busy) = true) ∧ bisecting.status.busy = true ∧
      ¬ ∃ level ts, bisecting.inbox = .reset level :: ts) ∧
    (let s := bisecting.withInbox [.host (.write .eight 0x000#32 1#64)];
      s.Inv ∧ s.status.rej = false ∧ (∃ t, step s = .next t ∧ t.status.rej = true) ∧
        ¬ ∃ level ts, s.inbox = .reset level :: ts) ∧
    (let s := (bisecting.reject.complete .ok 4#64).withInbox [.host (.write .eight 0x000#32 1#64)];
      s.Inv ∧ s.status.busy = false ∧ s.status.rej = true ∧
        (∃ t, step s = .next t ∧ (t.status.busy && !t.status.rej) = true) ∧
        ¬ ∃ level ts, s.inbox = .reset level :: ts) :=
  ⟨⟨bisecting_inv, exists_of_goesOn (by decide +kernel), rfl, by
      rintro ⟨_, _, h⟩; simp [bisecting, pending, idle, State.reset] at h⟩,
    ⟨withInbox_inv bisecting_inv _, rfl, exists_of_goesOn (by decide +kernel), noReset_host _ _ _⟩,
    ⟨withInbox_inv (completed_inv rfl List.Pairwise.nil (fun _ h => by cases h) (fun _ => by decide)) _, rfl, rfl,
      exists_of_goesOn (by decide +kernel), noReset_host _ _ _⟩⟩

/-- A running DECODE emits `SEQ[1]`, over an entry that a host wrote. -/
theorem witness_SeqChangesOnlyByItsWriters :
    ∃ s : State, s.Inv ∧ ∃ t, step s = .next t ∧ decide (t.seqRead 1 ≠ s.seqRead 1) = true := by
  refine ⟨{ decoding streamS1 6#64 { p := 8, last := 2#64, cnt := 1, mode := .delta } with
      inbox := [.engine], seq := [(1, 0x55#64)] }, ?_, exists_of_goesOn (by decide +kernel)⟩
  exact {
    seq_wf := by simp [Memory.wf]
    seq_bound := by decide
    busy_iff_pend := rfl
    not_busy_done := by decide
    err_code := by decide
    busy_err := by decide
    fresh := by decide
    work_inv := by
      intro w h
      cases h
      exact ⟨rfl, by decide, by decide, by decide, fun _ => by decide, .inl rfl⟩
    moved := by decide
    in_reset := by decide }

theorem witness_ResetValues :
    ((pending .decode).withInbox [.reset true]).inbox = .reset true :: [] ∧
    ((pending .decode).withInbox [.reset false]).inbox = .reset false :: [] := ⟨rfl, rfl⟩

theorem witness_HeldInReset :
    ((pending .decode).setRst true).rst = true ∧ (0x000#32).toNat % 8 = 0 ∧ (0x1000#32).toNat % 8 = 0 := by decide

end Sys2Proof.Tests
end

section
/-! The state (10_state.md): everything a step can do to the block, said once, and what therefore stays as it is. -/

namespace Sys2Proof.Machine

/-- A DECODE is pending, or its cursor is there; under the invariant these are one (`State.RunsDecode.pend_eq`). -/
def State.RunsDecode (s : State) : Prop := s.pend = some .decode ∨ ∃ c, s.work = some (.cursor c)

/-- A state that one step can lead to from `s`, by what the step does to the block (10_state.md R20). -/
inductive StepEffect (s : State) : State → Prop
  | waits (ts : List Turn) : StepEffect s (s.withInbox ts)
  | hostReads (ts : List Turn) (v : Word) (k : Nat) :
      StepEffect s { s with inbox := ts, reads := v :: s.reads, tick := k }
  | hostRejected {ts : List Turn} {w : Word} (hi : s.inbox = .host (.write .eight 0x000#32 w) :: ts)
      (hb : s.status.busy = true) : StepEffect s (s.withInbox ts).reject
  | hostAccepted {ts : List Turn} {w : Word} (hi : s.inbox = .host (.write .eight 0x000#32 w) :: ts)
      (hb : s.status.busy = false) : StepEffect s ((s.withInbox ts).accept (commandOpcode w))
  | hostSetsArg0 {ts : List Turn} {v : Word} (hi : s.inbox = .host (.write .eight 0x010#32 v) :: ts)
      (hb : s.status.busy = false) : StepEffect s { s.withInbox ts with arg0 := v }
  | hostSetsArg1 {ts : List Turn} {v : Word} (hi : s.inbox = .host (.write .eight 0x018#32 v) :: ts)
      (hb : s.status.busy = false) : StepEffect s { s.withInbox ts with arg1 := v }
  | hostSetsArg2 {ts : List Turn} {v : Word} (hi : s.inbox = .host (.write .eight 0x020#32 v) :: ts)
      (hb : s.status.busy = false) : StepEffect s { s.withInbox ts with arg2 := v }
  | hostWritesSeq {ts : List Turn} {i : Nat} {v : Word}
      (hi : s.inbox = .host (.write .eight (BitVec.ofNat 32 (0x1000 + 8 * i)) v) :: ts)
      (hb : s.status.busy = false) : StepEffect s ((s.withInbox ts).seqWrite i v)
  | works (ts : List Turn) (w : Work) : StepEffect s ((s.withInbox ts).setWork w)
  | emits (ts : List Turn) {i : Nat} (v : Word) (w : Work) (hd : s.RunsDecode)
      (hi : s.destBase ≤ i ∧ i < s.destBase + s.length) :
      StepEffect s (((s.withInbox ts).seqWrite i v).setWork w)
  | completes (ts : List Turn) {m : Memory} (v : Word) (e : BitVec 4) (k : Nat) (hp : s.pend ≠ none)
      (hm : ∀ j, m.find j ≠ s.seq.find j → s.RunsDecode ∧ s.destBase ≤ j ∧ j < s.destBase + s.length) :
      StepEffect s
        { s with
          inbox := ts, seq := m, result := v, status := s.status.completed e, pend := none, work := none, tick := k }
  | resets {level : Bool} {ts : List Turn} (hi : s.inbox = .reset level :: ts) :
      StepEffect s ((s.withInbox ts).setRst level)
  | streams (ts : List Turn) (present : Bool) (b : Stream) : StepEffect s ((s.withInbox ts).setStream present b)

theorem busAccess_effect {s t : State} {a : BusAccess} {ts : List Turn} (hi : s.inbox = .host a :: ts)
    (h : busAccess a (s.withInbox ts) = .next t) : StepEffect s t := by
  rcases busAccess_cases h with ⟨addr, v, k, rfl, rfl⟩ | ⟨addr, v, rfl, ha, ⟨-, rfl⟩ | ⟨-, rfl⟩⟩
  · exact .hostReads ts v k
  · exact .waits ts
  · rcases memWrite_cases ha v (s.withInbox ts) with ⟨rfl, hb, e⟩ | ⟨rfl, hb, e⟩ | e |
      ⟨hb, ⟨rfl, e⟩ | ⟨rfl, e⟩ | ⟨rfl, e⟩ | ⟨j, -, rfl, e⟩⟩ <;> rw [e]
    · exact .hostRejected hi hb
    · exact .hostAccepted hi hb
    · exact .waits ts
    · exact .hostSetsArg0 hi hb
    · exact .hostSetsArg1 hi hb
    · exact .hostSetsArg2 hi hb
    · exact .hostWritesSeq hi hb

/-- A completion of a DECODE, whether the stream moved or not (20_memory.md R66). -/
theorem completeDecode_effect {s : State} (ts : List Turn) (e : ErrorCode) (n : Nat) (hp : s.pend ≠ none)
    (hd : s.RunsDecode) : StepEffect s ((s.withInbox ts).completeDecode e n) := by
  obtain ⟨m, v, c, k, he, -, -, hm, -⟩ := completeDecode_spec e n (s.withInbox ts)
  rw [he]
  exact .completes ts v c k hp fun j hj => ⟨hd, not_not.1 fun hout => hj (hm j hout)⟩

theorem engineTurn_stepEffect {s t : State} {ts : List Turn} (h : engineTurn (s.withInbox ts) = .next t) :
    StepEffect s t := by
  rcases engineTurn_effect h with ⟨rfl, -⟩ | ⟨hp, -, ⟨w, rfl⟩ | ⟨e, v, rfl⟩ | ⟨e, n, rfl, hnone, hsome⟩ |
    ⟨c, v, w, hw, hc, -, rfl⟩⟩
  · exact .waits ts
  · exact .works ts w
  · exact .completes ts v e.code s.tick hp fun j hj => absurd rfl hj
  · refine completeDecode_effect ts e n hp ?_
    cases hw : s.work with
    | none => exact .inl (hnone hw)
    | some w =>
      obtain ⟨c, rfl⟩ := hsome w hw
      exact .inr ⟨c, hw⟩
  · exact .emits ts v w (.inr ⟨c, hw⟩) ⟨Nat.le_add_right _ _, Nat.add_lt_add_left hc _⟩

theorem completeTurn_stepEffect {s t : State} {ts : List Turn} (h : completeTurn (s.withInbox ts) = .next t) :
    StepEffect s t := by
  rcases completeTurn_effect h with ⟨rfl, -⟩ | ⟨op, m, v, c, k, -, hp, rfl, -, -, hm, -⟩
  · exact .waits ts
  · refine .completes ts v c k (by rw [show s.pend = some op from hp]; simp) fun j hj => ?_
    obtain ⟨rfl, hin⟩ := not_not.1 fun hout => hj (hm j hout)
    exact ⟨.inl hp, hin⟩

/-- Everything a step can do to the block. -/
theorem step_effect {s t : State} (h : step s = .next t) : StepEffect s t := by
  rcases step_cases h with ⟨a, ts, hi, h⟩ | ⟨ts, -, h⟩ | ⟨ts, -, h⟩ | ⟨l, ts, hi, rfl⟩ | ⟨p, b, ts, -, rfl⟩
  · exact busAccess_effect hi h
  · exact engineTurn_stepEffect h
  · exact completeTurn_stepEffect h
  · exact .resets hi
  · exact .streams ts p b

/-- A cursor exists only while a DECODE is pending (10_state.md R38). -/
theorem State.RunsDecode.pend_eq {s : State} (h : s.Inv) (hd : s.RunsDecode) : s.pend = some .decode := by
  rcases hd with hp | ⟨c, hw⟩
  · exact hp
  · obtain ⟨hp, -⟩ := h.work_inv _ hw
    exact hp

theorem StepEffect.cap_eq {s t : State} (h : StepEffect s t) : t.cap = s.cap := by
  cases h <;> rfl

/-- Settles O55: only a completion and a reset write `RESULT`. -/
theorem resultChangesOnlyAtCompletion : Obligations.ResultChangesOnlyAtCompletion := by
  intro s t h hne
  cases step_effect h with
  | completes ts v e k hp hm => exact .inl ⟨hp, rfl, rfl, rfl⟩
  | resets hi => exact .inr ⟨_, _, hi⟩
  | _ => exact absurd rfl hne

/-- Settles O56: only the idle host's write and a reset write an argument register. -/
theorem argumentsChangeOnlyByHost : Obligations.ArgumentsChangeOnlyByHost := by
  intro s t h hnr
  cases step_effect h with
  | hostSetsArg0 hi hb => exact ⟨fun _ => ⟨hb, _, hi⟩, absurd rfl, absurd rfl⟩
  | hostSetsArg1 hi hb => exact ⟨absurd rfl, fun _ => ⟨hb, _, hi⟩, absurd rfl⟩
  | hostSetsArg2 hi hb => exact ⟨absurd rfl, absurd rfl, fun _ => ⟨hb, _, hi⟩⟩
  | resets hi => exact absurd ⟨_, _, hi⟩ hnr
  | _ => exact ⟨absurd rfl, absurd rfl, absurd rfl⟩

/-- Settles O57: only acceptance, rejection, completion and reset write `STATUS`. -/
theorem statusChangesOnlyByLifecycle : Obligations.StatusChangesOnlyByLifecycle := by
  intro s t hinv h hnr
  have hbp := hinv.busy_iff_pend
  cases step_effect h with
  | hostRejected hi hb => simp [hb, hi]
  | hostAccepted hi hb =>
    have hp : s.pend = none := by simpa [hb] using hbp
    simp [hb, hi, hp]
  | completes ts v e k hp hm =>
    have hb : s.status.busy = true := by rwa [hbp, Option.isSome_iff_ne_none]
    simp +contextual [hb, hp]
  | resets hi => exact absurd ⟨_, _, hi⟩ hnr
  | _ => simp +contextual

/-- Settles O58: only the idle host, a DECODE in its destination range and a reset write `SEQ`. -/
theorem seqChangesOnlyByItsWriters : Obligations.SeqChangesOnlyByItsWriters := by
  intro s t j hinv h hne
  cases step_effect h with
  | @hostWritesSeq ts i v hi hb =>
    obtain rfl : j = i := by_contra fun hj => hne (State.seqRead_seqWrite_other _ v hj)
    exact .inl ⟨hb, ts, by rw [State.seqRead_seqWrite_same]; exact hi⟩
  | @emits ts i v w hd hi =>
    obtain rfl : j = i := by_contra fun hj => hne (State.seqRead_seqWrite_other (s.withInbox ts) v hj)
    exact .inr (.inl ⟨hd.pend_eq hinv, hi⟩)
  | completes ts v e k hp hm =>
    obtain ⟨hd, hin⟩ := hm j fun hf => hne (by simp [State.seqRead, hf])
    exact .inr (.inl ⟨hd.pend_eq hinv, hin⟩)
  | resets hi => exact .inr (.inr ⟨_, _, hi⟩)
  | _ => exact absurd rfl hne

end Sys2Proof.Machine
end

section
/-! The invariant of the block: it holds after reset, and every kind of turn keeps it. -/

namespace Sys2Proof.Machine

/-! The host's turns. -/

/-- What a read leaves behind, the data and the counter of free values, is no part of the invariant. -/
theorem read_inv {s : State} (h : s.Inv) (rs : List Word) (k : Nat) : ({ s with reads := rs, tick := k } : State).Inv where
  seq_wf := h.seq_wf
  seq_bound := h.seq_bound
  busy_iff_pend := h.busy_iff_pend
  not_busy_done := h.not_busy_done
  err_code := h.err_code
  busy_err := h.busy_err
  fresh := h.fresh
  work_inv w hw := by cases w <;> exact h.work_inv _ hw
  moved := h.moved
  in_reset := h.in_reset

theorem reject_inv {s : State} (h : s.Inv) (hr : s.rst = false) (hb : s.status.busy = true) : s.reject.Inv where
  seq_wf := h.seq_wf
  seq_bound := h.seq_bound
  busy_iff_pend := h.busy_iff_pend
  not_busy_done := h.not_busy_done
  err_code := h.err_code
  busy_err := h.busy_err
  fresh hi := by simp [hb] at hi
  work_inv w hw := by cases w <;> exact h.work_inv _ hw
  moved := h.moved
  in_reset hr' := by simp [hr] at hr'

theorem accept_inv {s : State} (h : s.Inv) (hr : s.rst = false) (op : Opcode) : (s.accept op).Inv where
  seq_wf := h.seq_wf
  seq_bound := h.seq_bound
  busy_iff_pend := rfl
  not_busy_done := by simp
  err_code _ := ErrorCode.code_lt .ok
  busy_err _ := rfl
  fresh hi := by simp at hi
  work_inv w hw := by simp at hw
  moved hm := by simp at hm
  in_reset hr' := by simp [hr] at hr'

/-- An idle block has no working variables that an argument could fit or not. -/
theorem setArgs_inv {s : State} (h : s.Inv) (hr : s.rst = false) (hb : s.status.busy = false) (a0 a1 a2 : Word) :
    ({ s with arg0 := a0, arg1 := a1, arg2 := a2 } : State).Inv where
  seq_wf := h.seq_wf
  seq_bound := h.seq_bound
  busy_iff_pend := h.busy_iff_pend
  not_busy_done := h.not_busy_done
  err_code := h.err_code
  busy_err := h.busy_err
  fresh := h.fresh
  work_inv w hw := by
    have hp : s.pend = none := by simpa [hb] using h.busy_iff_pend
    simp [work_none_of_idle h hp] at hw
  moved := h.moved
  in_reset hr' := by simp [hr] at hr'

theorem memWrite_inv {s : State} (h : s.Inv) (hr : s.rst = false) {addr : BitVec 32} (ha : addr.toNat % 8 = 0)
    (v : Word) : (memWrite addr v s).Inv := by
  rcases memWrite_cases ha v s with ⟨-, hb, e⟩ | ⟨-, -, e⟩ | e | ⟨hb, ⟨-, e⟩ | ⟨-, e⟩ | ⟨-, e⟩ | ⟨j, hj, -, e⟩⟩ <;>
    rw [e]
  · exact reject_inv h hr hb
  · exact accept_inv h hr _
  · exact h
  · exact setArgs_inv h hr hb v s.arg1 s.arg2
  · exact setArgs_inv h hr hb s.arg0 v s.arg2
  · exact setArgs_inv h hr hb s.arg0 s.arg1 v
  · exact seqWrite_inv h hj

theorem busAccess_inv {s t : State} {a : BusAccess} (h : s.Inv) (hs : busAccess a s = .next t) : t.Inv := by
  rcases busAccess_cases hs with ⟨-, v, k, -, rfl⟩ | ⟨addr, v, -, ha, ⟨-, rfl⟩ | ⟨hr, rfl⟩⟩
  · exact read_inv h _ k
  · exact h
  · exact memWrite_inv h hr ha v

/-! The engine's turns: what a loop of the pseudocode goes on with fits the pending command again. -/

theorem sqrtTurn_inv {s : State} {l : LoopStep Bisect Nat} (h : s.Inv) (hr : s.rst = false)
    (hl : ∀ v, l = .more v → (Work.sqrt v).Inv s) : (sqrtTurn l s).Inv := by
  cases l with
  | more v => exact setWork_inv h (hl v rfl)
  | done r => exact complete_inv h hr _ _

/-- The division after the bisection starts with 3, which is not above the bound (42_trial_division.md R130). -/
theorem primeBoundTurn_inv {s : State} {l : LoopStep Bisect Nat} (h : s.Inv) (hp : s.pend = some .isPrime)
    (hn : Slow s.candidate) (hmore : ∀ v, l = .more v → v.Inv s.candidate)
    (hdone : ∀ b, l = .done b → IsCeilSqrt s.candidate b) : (primeBoundTurn l s).Inv := by
  cases l with
  | more v => exact setWork_inv h ⟨hp, hn, hmore v rfl⟩
  | done b =>
    have hb := hdone b rfl
    exact setWork_inv h ⟨.inl hp, hn, hb, le_rfl, (by decide : 3 % 2 = 1), (hb.ge_three hn).trans (Nat.le_add_right b 2)⟩

/-- The walk after the bisection starts with the previous candidate 2 (42_trial_division.md R133). -/
theorem listBoundTurn_inv {s : State} {l : LoopStep Bisect Nat} (h : s.Inv) (hp : s.pend = some .isPrimeList)
    (hin : s.listInRange = true) (hn : Slow s.candidate) (hmore : ∀ v, l = .more v → v.Inv s.candidate)
    (hdone : ∀ b, l = .done b → IsCeilSqrt s.candidate b) : (listBoundTurn l s).Inv := by
  cases l with
  | more v => exact setWork_inv h ⟨hp, hin, hn, hmore v rfl⟩
  | done b =>
    have hb := hdone b rfl
    exact setWork_inv h ⟨hp, hin, hn, hb, Nat.zero_le _, le_rfl, (Nat.le_succ 2).trans (hb.ge_three hn)⟩

/-- The next divisor is at most two above the bound (42_trial_division.md R143). -/
theorem divideTurn_inv {s : State} {v : Divide} (h : s.Inv) (hr : s.rst = false) (hv : (Work.divide v).Inv s) :
    (divideTurn (divideNext s.candidate v) s).Inv := by
  obtain ⟨hp, hn, hb, h3, hodd, -⟩ := hv
  unfold divideNext
  split_ifs with hle hdvd
  · exact complete_inv h hr _ _
  · exact setWork_inv h ⟨hp, hn, hb, by show 3 ≤ v.d + 2; omega, by show (v.d + 2) % 2 = 1; omega,
      Nat.add_le_add_right hle 2⟩
  · exact complete_inv h hr _ _

/-- The next previous candidate is an entry between the last one and the bound (42_trial_division.md R135 to R137). -/
theorem walkTurn_inv {s : State} {v : Walk} (h : s.Inv) (hr : s.rst = false) (hv : (Work.walk v).Inv s) :
    (walkTurn v.b (walkNext s.candidate s.listCount s.listEntry v) s).Inv := by
  obtain ⟨hp, hin, hn, hb, hi, h2, hpb⟩ := hv
  by_cases hlt : v.i < s.listCount
  · obtain ⟨hskip, hinvalid, hbeyond, hentry⟩ := walkNext_of_lt (n := s.candidate) (entry := s.listEntry) hlt h2
    by_cases hs : v.i = 0 ∧ s.listEntry v.i = 2
    · rw [hskip hs]
      exact setWork_inv h ⟨hp, hin, hn, hb, hlt, h2, hpb⟩
    rcases Nat.lt_or_ge v.prev (s.listEntry v.i) with hgt | hle
    · rcases Nat.lt_or_ge v.b (s.listEntry v.i) with hbgt | hble
      · rw [hbeyond hgt hbgt]
        exact complete_inv h hr _ _
      · rw [hentry hgt hble]
        split_ifs
        · exact complete_inv h hr _ _
        · exact setWork_inv h ⟨hp, hin, hn, hb, hlt, h2.trans hgt.le, hble⟩
    · rw [hinvalid hs hle]
      exact complete_inv h hr _ _
  · obtain ⟨hc3, hcodd, hcle, -⟩ := continuation_odd h2
    rw [walkNext, if_neg hlt]
    exact setWork_inv h ⟨.inr ⟨hp, hin⟩, hn, hb, hc3, hcodd, hcle.trans (Nat.add_le_add_right hpb 2)⟩

/-- A record moves the cursor within the stream, and its value goes to an entry of `SEQ` (43_gap_decoder.md R153). -/
theorem decodeTurn_inv {s t : State} {c : Cursor} (h : s.Inv) (hr : s.rst = false) (hw : s.work = some (.cursor c))
    (ht : decodeTurn c s = .next t) : t.Inv := by
  obtain ⟨hp, hin, hle, -, hdelta, hstream⟩ := h.work_inv _ hw
  rcases decodeTurn_cases hw hin with ⟨e, e'⟩ | ⟨c', -, hlt, ⟨e', hcnt, hmode⟩ | ⟨⟨v, e'⟩, hcnt, hmode⟩, hpos⟩ <;>
    obtain rfl := Host.Outcome.next.inj (ht.symm.trans e')
  · exact completeDecode_inv h hr e _
  · exact setWork_inv h ⟨hp, hin, hcnt ▸ hle, hpos.trans_lt s.stream.length_lt, by simp [hmode], hstream⟩
  · have hroom : s.destBase + s.length ≤ s.capacity := of_decide_eq_true hin
    exact setWork_inv (seqWrite_inv h (by omega)) ⟨hp, hin, by rw [hcnt]; exact hlt,
      hpos.trans_lt s.stream.length_lt, fun _ => by omega, hstream⟩

/-- The bisection starts in its invariant (41_isqrt_bound.md R121). -/
theorem sqrtStart_more {n : Nat} {v : Bisect} (hn : n < 2 ^ 64) (e : sqrtStart n = .more v) :
    2 < n ∧ v.Inv n := by
  by_cases h2 : n ≤ 2
  · simp [sqrtStart_of_le h2] at e
  · obtain ⟨v', e', hv', -⟩ := sqrtStart_of_gt (Nat.not_le.1 h2) hn
    obtain rfl : v' = v := by simpa [e'] using e
    exact ⟨Nat.not_le.1 h2, hv'⟩

theorem sqrtStart_done {n b : Nat} (hn : n < 2 ^ 64) (e : sqrtStart n = .done b) : IsCeilSqrt n b := by
  by_cases h2 : n ≤ 2
  · obtain rfl : n = b := by simpa [sqrtStart_of_le h2] using e
    exact isCeilSqrt_of_le_two h2
  · obtain ⟨v, e', -⟩ := sqrtStart_of_gt (Nat.not_le.1 h2) hn
    simp [e'] at e

theorem engineStart_inv {s : State} {op : Opcode} (h : s.Inv) (hr : s.rst = false) (hp : s.pend = some op) :
    (engineStart op s).Inv := by
  have hn : s.candidate < 2 ^ 64 := s.arg0.isLt
  cases op with
  | sqrt => exact sqrtTurn_inv h hr fun v e => ⟨hp, sqrtStart_more hn e⟩
  | isPrime =>
    rw [engineStart]
    split
    · exact complete_inv h hr _ _
    · next hf =>
      exact primeBoundTurn_inv h hp (fastPath_none_iff.1 hf) (fun v e => (sqrtStart_more hn e).2)
        (fun b => sqrtStart_done hn)
  | isPrimeList =>
    rw [engineStart]
    split_ifs with hin
    · split
      · exact complete_inv h hr _ _
      · next hf =>
        exact listBoundTurn_inv h hp hin (fastPath_none_iff.1 hf) (fun v e => (sqrtStart_more hn e).2)
          (fun b => sqrtStart_done hn)
    · exact complete_inv h hr _ _
  | decode =>
    rw [engineStart]
    split_ifs with hin hpres
    · exact completeDecode_inv h hr _ _
    · exact completeDecode_inv h hr _ _
    · exact setWork_inv h ⟨hp, by simpa using hin, Nat.zero_le _, s.arg0.isLt, by simp [Cursor.begin],
        .inl (by simpa using hpres)⟩
  | badCommand => exact complete_inv h hr _ _

theorem engineAdvance_inv {s t : State} {w : Work} (h : s.Inv) (hr : s.rst = false) (hw : s.work = some w)
    (ht : engineAdvance w s = .next t) : t.Inv := by
  have hwi := h.work_inv w hw
  cases w with
  | cursor c => exact decodeTurn_inv h hr hw ht
  | sqrt v =>
    obtain rfl := Host.Outcome.next.inj ht
    obtain ⟨hp, h2, hv⟩ := hwi
    exact sqrtTurn_inv h hr fun v' e => ⟨hp, h2, bisectNext_more hv e⟩
  | primeBound v =>
    obtain rfl := Host.Outcome.next.inj ht
    obtain ⟨hp, hn, hv⟩ := hwi
    exact primeBoundTurn_inv h hp hn (fun v' => bisectNext_more hv) (fun b => bisectNext_done hv)
  | listBound v =>
    obtain rfl := Host.Outcome.next.inj ht
    obtain ⟨hp, hin, hn, hv⟩ := hwi
    exact listBoundTurn_inv h hp hin hn (fun v' => bisectNext_more hv) (fun b => bisectNext_done hv)
  | divide v =>
    obtain rfl := Host.Outcome.next.inj ht
    exact divideTurn_inv h hr hwi
  | walk v =>
    obtain rfl := Host.Outcome.next.inj ht
    exact walkTurn_inv h hr hwi

theorem engineTurn_inv {s t : State} (h : s.Inv) (ht : engineTurn s = .next t) : t.Inv := by
  rcases engineTurn_cases ht with ⟨rfl, -⟩ | ⟨op, hr, hp, ⟨-, rfl⟩ | ⟨w, hw, ht⟩⟩
  · exact h
  · exact engineStart_inv h hr hp
  · exact engineAdvance_inv h hr hw ht

theorem completeTurn_inv {s t : State} (h : s.Inv) (ht : completeTurn s = .next t) : t.Inv := by
  rcases completeTurn_effect ht with ⟨rfl, -⟩ | ⟨op, m, v, c, k, hr, -, rfl, -, hc, -, hwf, hbound⟩
  · exact h
  · exact completed_inv hr (hwf h.seq_wf) (hbound h.seq_bound) hc

/-- Settles O53, by the five kinds of turn. -/
theorem stepKeepsInvariant : Obligations.StepKeepsInvariant := by
  intro s t h hs
  rcases step_cases hs with ⟨a, ts, -, hs⟩ | ⟨ts, -, hs⟩ | ⟨ts, -, hs⟩ | ⟨l, ts, -, rfl⟩ | ⟨p, b, ts, -, rfl⟩
  · exact busAccess_inv (withInbox_inv h ts) hs
  · exact engineTurn_inv (withInbox_inv h ts) hs
  · exact completeTurn_inv (withInbox_inv h ts) hs
  · exact setRst_inv l
  · exact setStream_inv (withInbox_inv h ts) p b

/-- Settles O52: after reset nothing is listed, pending or at work. -/
theorem invariantAtReset : Obligations.InvariantAtReset where
  seq_wf := List.Pairwise.nil
  seq_bound _ he := absurd he List.not_mem_nil
  busy_iff_pend := rfl
  not_busy_done := by decide
  err_code := by decide
  busy_err := by decide
  fresh _ _ := ⟨rfl, rfl, rfl⟩
  work_inv _ hw := by cases hw
  moved := by decide
  in_reset := by decide

end Sys2Proof.Machine
end

section
/-! Registers by their values: `CAPACITY`, the layout of `STATUS`, the values after reset. -/

namespace Sys2Proof.Machine

theorem busTarget_capacity (cap : Nat) : busTarget cap 0x030#32 = .capacity := rfl

/-- Settles O7: no effect of a step is on `CAPACITY`. -/
theorem capacityIsConstant : Obligations.CapacityIsConstant := by
  refine ⟨fun s ts hr => ?_, fun s ts v => ?_, fun s t h => (step_effect h).cap_eq⟩
  · have hread : step (s.withInbox (.host (.read .eight 0x030#32) :: ts)) =
        .next (if s.rst then (s.withInbox ts).returnedAny else memRead 0x030#32 (s.withInbox ts)) := rfl
    rw [hread, if_neg (by simp [hr]), memRead, busTarget_capacity]
    rfl
  · have hwrite : step (s.withInbox (.host (.write .eight 0x030#32 v) :: ts)) =
        .next (if s.rst then s.withInbox ts else memWrite 0x030#32 v (s.withInbox ts)) := rfl
    rw [hwrite, memWrite, busTarget_capacity]
    exact congrArg _ (ite_self _)

/-- Every bit of `STATUS` (10_state.md R27, R34). -/
theorem Status.getLsbD_word (st : Status) (i : Nat) :
    st.word.getLsbD i =
      if i = 0 then st.busy else if i = 1 then st.done else if i = 2 then st.rej
      else if i = 3 then false else st.err.getLsbD (i - 4) := by
  have hword : st.word.getLsbD i =
      (0#56 ++ st.err ++ 0#1 ++ BitVec.ofBool st.rej ++ BitVec.ofBool st.done ++ BitVec.ofBool st.busy).getLsbD i := rfl
  simp only [hword, BitVec.getLsbD_append]
  match i with
  | 0 | 1 | 2 | 3 => simp
  | i + 4 => simpa using BitVec.lt_of_getLsbD

/-- Settles O8: the fields are read off bit by bit. -/
theorem statusLayout : Obligations.StatusLayout := by
  intro st
  refine ⟨st.getLsbD_word 0, st.getLsbD_word 1, st.getLsbD_word 2, st.getLsbD_word 3, ?_, ?_⟩ <;>
    refine BitVec.eq_of_getLsbD_eq fun i hi => ?_ <;>
    rw [BitVec.getLsbD_extractLsb', Nat.add_comm, Status.getLsbD_word]
  · simp [hi]
  · simp

/-- A reset leaves no entry of `SEQ` listed (70_reset_and_hazards.md R211). -/
theorem setRst_seqRead (l : Bool) (s : State) (j : Nat) :
    (s.setRst l).seqRead j = Config.unwrittenSeq (s.epoch + 1) j := rfl

theorem cleared_word : Status.cleared.word = 0#64 := by decide

/-- Settles O59. -/
theorem resetValues : Obligations.ResetValues := by
  refine ⟨fun s level ts hi => ⟨(s.withInbox ts).setRst level, ?_, rfl, rfl, rfl, cleared_word, rfl, rfl, rfl, rfl, rfl,
    rfl, rfl, rfl, setRst_seqRead level (s.withInbox ts)⟩, rfl, rfl, rfl, cleared_word, rfl, rfl, rfl, fun _ => rfl⟩
  rw [step, hi]
  rfl

end Sys2Proof.Machine
end

section
/-! The host bus (20_memory.md): what each access does, first as rules about a step with that access, then the
obligations read off them. -/

namespace Sys2Proof.Machine

/-! Rules: a step that takes the host's access. -/

theorem step_of_inbox {s : State} {a : Turn} {ts : List Turn} (hi : s.inbox = a :: ts) :
    step s = takeTurn a (s.withInbox ts) := by
  rw [step, hi]

theorem step_withInbox (a : Turn) (ts : List Turn) (s : State) :
    step (s.withInbox (a :: ts)) = takeTurn a (s.withInbox ts) := rfl

theorem withInbox_of_inbox {s : State} {ts : List Turn} (hi : s.inbox = ts) : s.withInbox ts = s := by
  rw [← hi]
  rfl

theorem busAdmitted_eq_false_iff {size : AccessSize} {addr : BitVec 32} :
    busAdmitted size addr = false ↔ size ≠ .eight ∨ addr.toNat % 8 ≠ 0 := by
  rw [busAdmitted, decide_eq_false_iff_not, not_and_or]

theorem busAdmitted_eight {addr : BitVec 32} (ha : addr.toNat % 8 = 0) : busAdmitted .eight addr = true :=
  decide_eq_true ⟨rfl, ha⟩

/-- Not admitted, whatever the level of `rst` (20_memory.md R53). -/
theorem busAccess_read_refused {s : State} {size : AccessSize} {addr : BitVec 32} (ha : busAdmitted size addr = false) :
    busAccess (.read size addr) s = .refused .hostAccess := by
  simp [busAccess, ha]

theorem busAccess_write_refused {s : State} {size : AccessSize} {addr : BitVec 32} {v : Word}
    (ha : busAdmitted size addr = false) : busAccess (.write size addr v) s = .refused .hostAccess := by
  simp [busAccess, ha]

theorem step_read {s : State} {ts : List Turn} {addr : BitVec 32} (hr : s.rst = false) (ha : addr.toNat % 8 = 0) :
    step (s.withInbox (.host (.read .eight addr) :: ts)) = .next (memRead addr (s.withInbox ts)) := by
  simp [step_withInbox, takeTurn, busAccess, busAdmitted_eight ha, hr]

/-- While `rst` is asserted a read draws a free value (70_reset_and_hazards.md R210). -/
theorem step_read_inReset {s : State} {ts : List Turn} {addr : BitVec 32} (hr : s.rst = true)
    (ha : addr.toNat % 8 = 0) :
    step (s.withInbox (.host (.read .eight addr) :: ts)) = .next (s.withInbox ts).returnedAny := by
  simp [step_withInbox, takeTurn, busAccess, busAdmitted_eight ha, hr]

theorem step_write {s : State} {ts : List Turn} {addr : BitVec 32} {v : Word} (hr : s.rst = false)
    (ha : addr.toNat % 8 = 0) :
    step (s.withInbox (.host (.write .eight addr v) :: ts)) = .next (memWrite addr v (s.withInbox ts)) := by
  simp [step_withInbox, takeTurn, busAccess, busAdmitted_eight ha, hr]

/-! Rules: the argument registers, the window of `SEQ` and the reserved offsets. -/

theorem memRead_seq {s : State} {addr : BitVec 32} {j : Nat} (h : busTarget s.capacity addr = .seq j) :
    memRead addr s = if s.beingDecoded j then s.returnedAny else s.returned (s.seqRead j) := by
  rw [memRead, h]

theorem memRead_reserved {s : State} {addr : BitVec 32} (h : busTarget s.capacity addr = .reserved) :
    memRead addr s = s.returned 0#64 := by
  rw [memRead, h]

theorem memWrite_seq {s : State} {addr : BitVec 32} {j : Nat} {v : Word} (h : busTarget s.capacity addr = .seq j)
    (hb : s.status.busy = false) : memWrite addr v s = s.seqWrite j v := by
  simp [memWrite, h, hb]

theorem memWrite_arg0 {s : State} (v : Word) (hb : s.status.busy = false) :
    memWrite 0x010#32 v s = { s with arg0 := v } := if_neg (by simp [hb])

theorem memWrite_arg1 {s : State} (v : Word) (hb : s.status.busy = false) :
    memWrite 0x018#32 v s = { s with arg1 := v } := if_neg (by simp [hb])

theorem memWrite_arg2 {s : State} (v : Word) (hb : s.status.busy = false) :
    memWrite 0x020#32 v s = { s with arg2 := v } := if_neg (by simp [hb])

theorem memWrite_reserved {s : State} {addr : BitVec 32} {v : Word} (h : busTarget s.capacity addr = .reserved) :
    memWrite addr v s = s := by
  rw [memWrite, h]

theorem windowAddr_aligned {s : State} {i : Nat} (hi : i < s.capacity) :
    (BitVec.ofNat 32 (0x1000 + 8 * i)).toNat % 8 = 0 := by
  rw [windowAddr_toNat (SeqCap_bound s) hi]
  omega

/-- A read of an entry through the window (20_memory.md R63, R69). -/
theorem step_readSeq {s : State} {ts : List Turn} {i : Nat} (hr : s.rst = false) (hi : i < s.capacity) :
    step (s.withInbox (.host (.read .eight (BitVec.ofNat 32 (0x1000 + 8 * i))) :: ts)) =
      .next (if s.beingDecoded i then (s.withInbox ts).returnedAny else (s.withInbox ts).returned (s.seqRead i)) :=
  (step_read hr (windowAddr_aligned hi)).trans (congrArg _ (memRead_seq (busTarget_window (SeqCap_bound s) hi)))

/-- A write of an entry through the window (20_memory.md R63). -/
theorem step_writeSeq {s : State} {ts : List Turn} {i : Nat} {v : Word} (hr : s.rst = false)
    (hb : s.status.busy = false) (hi : i < s.capacity) :
    step (s.withInbox (.host (.write .eight (BitVec.ofNat 32 (0x1000 + 8 * i)) v) :: ts)) =
      .next ((s.withInbox ts).seqWrite i v) :=
  (step_write hr (windowAddr_aligned hi)).trans (congrArg _ (memWrite_seq (busTarget_window (SeqCap_bound s) hi) hb))

/-! The obligations on accesses. -/

/-- Settles O13. -/
theorem inadmissibleAccessRefused : Obligations.InadmissibleAccessRefused := by
  intro s ts size addr v h
  have ha := busAdmitted_eq_false_iff.2 h
  exact ⟨busAccess_read_refused ha, busAccess_write_refused ha⟩

/-- Settles O6: the registers by their offsets, the entries by `step_readSeq`. -/
theorem hostReads : Obligations.HostReads := by
  intro s ts hr
  refine ⟨step_read hr rfl, step_read hr rfl, step_read hr rfl, step_read hr rfl, step_read hr rfl, step_read hr rfl,
    step_read hr rfl, fun i hi hnot => ?_⟩
  have hstill : ¬ s.beingDecoded i = true := fun h => hnot (beingDecoded_iff.1 h)
  exact (step_readSeq hr hi).trans (congrArg _ (if_neg hstill))

/-- Settles O15: `beingDecoded_iff` says which entries the DECODE may be writing. -/
theorem readsDuringDecode : Obligations.ReadsDuringDecode := by
  intro s ts i hr hp hi
  have hread := step_readSeq (ts := ts) hr hi
  split_ifs with hin
  · exact hread.trans (congrArg _ (if_pos (beingDecoded_iff.2 ⟨hp, hin⟩)))
  · exact hread.trans (congrArg _ (if_neg fun h => hin (beingDecoded_iff.1 h).2))

/-- Settles O9: the registers by their offsets, the entries by `step_writeSeq`. -/
theorem idleHostWrites : Obligations.IdleHostWrites := by
  intro s ts v hr hb
  have hb' : (s.withInbox ts).status.busy = false := hb
  exact ⟨(step_write hr rfl).trans (congrArg _ (memWrite_arg0 v hb')),
    (step_write hr rfl).trans (congrArg _ (memWrite_arg1 v hb')),
    (step_write hr rfl).trans (congrArg _ (memWrite_arg2 v hb')), step_write hr rfl, step_write hr rfl, fun i hi =>
    ⟨s.seq.write i v, step_writeSeq hr hb hi, Memory.find_write_same _ _ _, fun j hj => Memory.find_write_other _ _ hj⟩⟩

/-- Settles O11: the reserved ranges, then the three read-only registers. -/
theorem unmappedOffsets : Obligations.UnmappedOffsets := by
  intro s ts addr v hr ha
  refine ⟨fun hrange => ?_, ?_⟩
  · have htarget : busTarget (s.withInbox ts).capacity addr = .reserved := busTarget_reserved ha hrange
    exact ⟨(step_read hr ha).trans (congrArg _ (memRead_reserved htarget)),
      (step_write hr ha).trans (congrArg _ (memWrite_reserved htarget))⟩
  · rintro (rfl | rfl | rfl)
    · exact step_write hr ha
    · exact step_write hr ha
    · exact step_write hr ha

/-- Settles O12: in reset a read draws a free value, else `memRead_spec` says what it can do. -/
theorem readsHaveNoSideEffect : Obligations.ReadsHaveNoSideEffect := by
  intro s ts addr ha
  by_cases hr : s.rst = true
  · exact ⟨s.freshWord, s.tick + 1, step_read_inReset hr ha⟩
  · obtain ⟨v, k, e⟩ := memRead_spec addr (s.withInbox ts)
    exact ⟨v, k, (step_read (by simpa using hr) ha).trans (congrArg _ e)⟩

/-- Settles O14: the write, then the read of the entry it left, which no DECODE is writing. -/
theorem seqWindowReadsBack : Obligations.SeqWindowReadsBack := by
  intro s ts i v hr hb hp hi hin
  have hentry : (s.seqWrite i v).seqRead i = v := State.seqRead_seqWrite_same s i v
  have hstill : ¬ (s.seqWrite i v).beingDecoded i = true := fun h => by
    obtain ⟨hdecode, -⟩ := beingDecoded_iff.1 h
    simp [hp] at hdecode
  have hwrite := (congrArg step (withInbox_of_inbox hin)).symm.trans (step_writeSeq hr hb hi)
  have hread := (step_readSeq (s := s.seqWrite i v) (ts := ts) hr hi).trans (congrArg _ (if_neg hstill))
  exact ⟨_, _, hwrite, hread, congrArg (· :: s.reads) hentry, rfl, hentry,
    fun j hj => State.seqRead_seqWrite_other s v hj⟩

end Sys2Proof.Machine
end

section
/-! What stops the machine: the engine's turns always answer in a state that meets the invariant, so only a host access
that is not admitted is refused. -/

namespace Sys2Proof.Machine

/-- A record is read by a running DECODE that has passed its buffer check, so it has its meaning. -/
theorem engineAdvance_next {s : State} {w : Work} (h : s.Inv) (hw : s.work = some w) :
    ∃ t, engineAdvance w s = .next t := by
  cases w with
  | cursor c =>
    obtain ⟨-, hin, -⟩ := h.work_inv _ hw
    rcases decodeTurn_cases hw hin with ⟨e, he⟩ | ⟨c', -, -, ⟨he, -⟩ | ⟨⟨v, he⟩, -⟩, -⟩
    · exact ⟨_, he⟩
    · exact ⟨_, he⟩
    · exact ⟨_, he⟩
  | _ => exact ⟨_, rfl⟩

theorem engineTurn_next {s : State} (h : s.Inv) : ∃ t, engineTurn s = .next t := by
  unfold engineTurn
  split_ifs
  · exact ⟨s, rfl⟩
  · split
    · exact ⟨s, rfl⟩
    · exact ⟨_, rfl⟩
    · next hw => exact engineAdvance_next h hw

theorem completeTurn_next (s : State) : ∃ t, completeTurn s = .next t := by
  unfold completeTurn
  split_ifs
  · exact ⟨s, rfl⟩
  · split
    · exact ⟨s, rfl⟩
    · next op _ =>
      obtain ⟨m, v, c, k, he, -⟩ := exec_command_spec op s
      exact ⟨_, he⟩

theorem busAccess_next_or_refused (a : BusAccess) (s : State) :
    (∃ t, busAccess a s = .next t) ∨
      busAccess a s = .refused .hostAccess ∧
        ((∃ size addr, a = .read size addr ∧ busAdmitted size addr = false) ∨
          ∃ size addr v, a = .write size addr v ∧ busAdmitted size addr = false) := by
  cases a with
  | read size addr =>
    cases ha : busAdmitted size addr with
    | true => exact .inl ⟨_, if_pos ha⟩
    | false => exact .inr ⟨busAccess_read_refused ha, .inl ⟨size, addr, rfl, ha⟩⟩
  | write size addr v =>
    cases ha : busAdmitted size addr with
    | true => exact .inl ⟨_, if_pos ha⟩
    | false => exact .inr ⟨busAccess_write_refused ha, .inr ⟨size, addr, v, rfl, ha⟩⟩

/-- Settles O54, by the turn that is taken. -/
theorem onlyBadAccessStops : Obligations.OnlyBadAccessStops := by
  intro s h
  cases hi : s.inbox with
  | nil =>
    refine .inl ?_
    rw [State.StepsSafely, step, hi]
    exact completeTurn_next s
  | cons a ts =>
    rw [State.StepsSafely, step_of_inbox hi]
    cases a with
    | host a =>
      rcases busAccess_next_or_refused a (s.withInbox ts) with hnext | ⟨hrefused, hbad⟩
      · exact .inl hnext
      · refine .inr ⟨⟨ts, ?_⟩, hrefused⟩
        rcases hbad with ⟨size, addr, rfl, ha⟩ | ⟨size, addr, v, rfl, ha⟩
        · exact .inl ⟨size, addr, hi, ha⟩
        · exact .inr ⟨size, addr, v, hi, ha⟩
    | engine => exact .inl (engineTurn_next (withInbox_inv h ts))
    | complete => exact .inl (completeTurn_next _)
    | reset level => exact .inl ⟨_, rfl⟩
    | stream present b => exact .inl ⟨_, rfl⟩

end Sys2Proof.Machine
end

section
/-! A DECODE whose stream changed (20_memory.md R66): the values it decoded lie in its destination range, and the
completion puts free values over them. -/

namespace Sys2Proof.Machine

theorem nccValues_length_le (k : Nat) (mode : Mode) (last : Word) (bytes : List Byte) :
    (nccValues k mode last bytes).1.length ≤ k := by
  induction k generalizing mode last bytes with
  | zero => exact le_rfl
  | succ k ih =>
    cases hv : nextValue last mode bytes with
    | error e => simp [nccValues_error hv]
    | ok p => simpa [nccValues_ok hv] using ih .delta p.1 p.2

theorem execDecode_bufferOverflow {s : State} (hin : s.destInRange = false) :
    exec .decode s = .next (s.completeDecode .bufferOverflow 0) := by
  simp [exec, execDecode, hin]

theorem execDecode_openFailure {s : State} (hin : s.destInRange = true) (hp : s.streamPresent = false) :
    exec .decode s = .next (s.completeDecode .openFailure 0) := by
  simp [exec, execDecode, hin, hp]

/-- Every DECODE completes, after it has written some values at the start of its destination range: none where a check
fails (43_gap_decoder.md R151 to R153). -/
theorem execDecode_completes (s : State) :
    ∃ (vs : List Word) (e : ErrorCode) (n : Nat), vs.length ≤ s.length ∧
      exec .decode s = .next ((s.seqWriteAll s.destBase vs).completeDecode e n) := by
  cases hin : s.destInRange with
  | false => exact ⟨[], .bufferOverflow, 0, Nat.zero_le _, execDecode_bufferOverflow hin⟩
  | true =>
    cases hp : s.streamPresent with
    | false => exact ⟨[], .openFailure, 0, Nat.zero_le _, execDecode_openFailure hin hp⟩
    | true => exact ⟨_, _, _, nccValues_length_le .., execDecode_eq hin hp⟩

/-- Values that fit the destination range change no other entry. -/
theorem seqWriteAll_find_outside {s : State} {vs : List Word} (hvs : vs.length ≤ s.length) {j : Nat}
    (hj : ¬(s.destBase ≤ j ∧ j < s.destBase + s.length)) :
    (s.seqWriteAll s.destBase vs).seq.find j = s.seq.find j := by
  rcases Nat.lt_or_ge j s.destBase with hlt | hge
  · exact Memory.find_writeAll_before _ _ hlt
  · exact Memory.find_writeAll_after _ _ (by omega)

/-- The stream's turn notes another stream exactly while a DECODE is pending. -/
theorem setStream_streamMoved_iff (present : Bool) (b : Stream) (s : State) :
    (s.setStream present b).streamMoved = true ↔
      s.streamMoved = true ∨ s.pend = some .decode ∧ (present ≠ s.streamPresent ∨ b ≠ s.stream) := by
  simp [State.setStream]

/-- Settles O45: the environment's turn by `setStream_streamMoved_iff`, the completion by `completeDecode_spec`. -/
theorem movedStreamGivesAnyValue : Obligations.MovedStreamGivesAnyValue := by
  refine ⟨fun s ts present b hi => ?_, fun s hmoved => ?_⟩
  · exact ⟨((s.withInbox ts).setStream present b).streamMoved, step_of_inbox hi,
      setStream_streamMoved_iff present b (s.withInbox ts)⟩
  · obtain ⟨vs, e, k, hvs, hexec⟩ := execDecode_completes s
    obtain ⟨m, v, c, tick, he, -, hfree, hout, -⟩ := completeDecode_spec e k (s.seqWriteAll s.destBase vs)
    obtain ⟨rfl, rfl, hin⟩ := hfree hmoved
    rw [he] at hexec
    refine ⟨_, hexec, rfl, rfl, fun j hj => ?_, fun j hj => ?_⟩
    · exact congrArg (Option.getD · _) (hin j hj)
    · exact congrArg (Option.getD · _) ((hout j hj).trans (seqWriteAll_find_outside hvs hj))

end Sys2Proof.Machine
end

section
/-! Encodings (30_encoding.md): decoding after encoding, from the laws per instruction, and encoding after decoding, from
what each source reads. -/

namespace Sys2Proof

/-- Settles O4, by the rows of the opcode table. -/
theorem encodedInstructionsDecode : Obligations.EncodedInstructionsDecode := by
  intro i rest hwf
  have hround : Laws.RoundTrip.Statement i := by
    cases i with
    | sqrt => exact Laws.RoundTrip.sqrt
    | isPrime => exact Laws.RoundTrip.isPrime
    | isPrimeList => exact Laws.RoundTrip.isPrimeList
    | decode => exact Laws.RoundTrip.decode
    | badCommand w => exact Laws.RoundTrip.badCommand w
    | nccAnchor a => exact Laws.RoundTrip.nccAnchor a
    | nccSentinel => exact Laws.RoundTrip.nccSentinel
    | nccDelta d => exact Laws.RoundTrip.nccDelta d
  exact hround hwf rest

theorem decodeCmd_source (w : Word) : (decodeCmd w).source = .command := by
  unfold decodeCmd
  split_ifs <;> rfl

/-- What a source gives is an instruction of that source. -/
theorem instr_source (src : Source) (v : Nat) : (src.instr v).source = src := by
  cases src with
  | command => exact decodeCmd_source _
  | anchor => rfl
  | delta =>
    rcases instr_delta v with h | ⟨d, -, h⟩
    · rw [h]; rfl
    · rw [h]; rfl

theorem instr_wf (src : Source) (v : Nat) : (src.instr v).wf = true := by
  cases src with
  | command => exact decodeCmd_wf _
  | anchor => rfl
  | delta =>
    rcases instr_delta v with h | ⟨d, hd, h⟩
    · rw [h]; rfl
    · rw [h]; exact decide_eq_true hd

/-- `wordBytes_ofLe` for a list of eight bytes. -/
theorem wordBytes_leValue {bytes : List Byte} (h : bytes.length = 8) :
    wordBytes (BitVec.ofNat 64 (leValue bytes)) = bytes := by
  match bytes, h with
  | [b0, b1, b2, b3, b4, b5, b6, b7], _ => exact wordBytes_ofLe b0 b1 b2 b3 b4 b5 b6 b7

/-- A record of DELTA mode is encoded by its own two bytes, the sentinel's among them. -/
theorem encode_decodeDelta (d : BitVec 16) : encode (decodeDelta d) = [d.extractLsb' 0 8, d.extractLsb' 8 8] := by
  unfold decodeDelta
  split_ifs with h
  · subst h; rfl
  · rfl

/-- Two bytes are the bytes of the value they stand for. -/
theorem extractLsb'_leValue {bytes : List Byte} (h : bytes.length = 2) :
    [(BitVec.ofNat 16 (leValue bytes)).extractLsb' 0 8, (BitVec.ofNat 16 (leValue bytes)).extractLsb' 8 8] = bytes := by
  match bytes, h with
  | [b0, b1], _ =>
    rw [Machine.leValue_two]
    congr 2
    · exact BitVec.extractLsb'_append_eq_right
    · exact BitVec.extractLsb'_append_eq_left

/-- Encoding what a source reads gives the bytes back. -/
theorem encode_instr {src : Source} {bytes : List Byte} (h : bytes.length = src.size) :
    encode (src.instr (leValue bytes)) = bytes := by
  cases src with
  | command => exact (encode_decodeCmd _).trans (wordBytes_leValue h)
  | anchor => exact wordBytes_leValue h
  | delta => exact (encode_decodeDelta _).trans (extractLsb'_leValue h)

/-- Settles O5: the bytes split into those of the instruction and the rest. -/
theorem decodedBytesAreTheEncoding : Obligations.DecodedBytesAreTheEncoding := by
  refine ⟨fun src bytes rest i hok => ?_, decode_error_iff⟩
  obtain ⟨hlen, rfl, rfl⟩ := (decode_ok_iff src bytes rest i).1 hok
  refine ⟨instr_wf src _, instr_source src _, ?_⟩
  rw [encode_instr (List.length_take_of_le hlen), List.take_append_drop]

/-- Settles O1. -/
theorem sampleWordsDecode : Obligations.SampleWordsDecode :=
  ⟨rfl, rfl, rfl, rfl, rfl, rfl, rfl, rfl⟩

theorem decodeCmd_eq_badCommand_iff (w : Word) :
    decodeCmd w = .badCommand w ↔ w ≠ 0x1#64 ∧ w ≠ 0x2#64 ∧ w ≠ 0x3#64 ∧ w ≠ 0x4#64 := by
  refine ⟨fun h => ?_, decodeCmd_badCommand⟩
  have hwf := decodeCmd_wf w
  rw [h] at hwf
  exact of_decide_eq_true hwf

/-- Settles O2: the four legal words have no reserved bit. -/
theorem legalCommandWords : Obligations.LegalCommandWords := by
  refine ⟨rfl, rfl, rfl, rfl, decodeCmd_eq_badCommand_iff, fun w hreserved => decodeCmd_badCommand ⟨?_, ?_, ?_, ?_⟩⟩ <;>
    rintro rfl <;> exact hreserved rfl

end Sys2Proof
end

section
/-! An illegal command word (30_encoding.md R83): the rules of a `CMD` write and of the engine's completing turn, and the
two after each other. -/

namespace Sys2Proof.Machine

/-- A `CMD` write issues its word (20_memory.md R55). -/
theorem step_writeCmd {s : State} {ts : List Turn} {w : Word} (hr : s.rst = false)
    (hi : s.inbox = .host (.write .eight 0x000#32 w) :: ts) : step s = .next ((s.withInbox ts).issue w) :=
  (congrArg step (withInbox_of_inbox hi)).symm.trans (step_write hr rfl)

theorem step_writeCmd_idle {s : State} {ts : List Turn} {w : Word} (hr : s.rst = false) (hb : s.status.busy = false)
    (hi : s.inbox = .host (.write .eight 0x000#32 w) :: ts) :
    step s = .next ((s.withInbox ts).accept (commandOpcode w)) :=
  (step_writeCmd hr hi).trans (congrArg _ (if_neg (by simp [hb])))

theorem step_writeCmd_busy {s : State} {ts : List Turn} {w : Word} (hr : s.rst = false) (hb : s.status.busy = true)
    (hi : s.inbox = .host (.write .eight 0x000#32 w) :: ts) : step s = .next (s.withInbox ts).reject :=
  (step_writeCmd hr hi).trans (congrArg _ (if_pos hb))

/-- The engine's turn that evaluates the pending command whole (40_command_lifecycle.md R105). -/
theorem step_complete {s : State} {ts : List Turn} {op : Opcode} (hr : s.rst = false) (hp : s.pend = some op)
    (hi : s.inbox = .complete :: ts) : step s = exec op.instr (s.withInbox ts) := by
  simp [step_of_inbox hi, takeTurn, completeTurn, hr, hp]

theorem commandOpcode_badCommand {w : Word} (h : w ≠ 1#64 ∧ w ≠ 2#64 ∧ w ≠ 3#64 ∧ w ≠ 4#64) :
    commandOpcode w = .badCommand := by
  rw [commandOpcode, decodeCmd_badCommand h]
  rfl

/-- Settles O3: the acceptance and the completion after it, or the rejection. -/
theorem illegalCommandWord : Obligations.IllegalCommandWord := by
  refine ⟨⟨rfl, rfl, rfl, rfl⟩, fun w s ts h1 h2 h3 h4 hr => ?_⟩
  have hw : w ≠ 1#64 ∧ w ≠ 2#64 ∧ w ≠ 3#64 ∧ w ≠ 4#64 := ⟨h1, h2, h3, h4⟩
  refine ⟨decodeCmd_badCommand hw, fun hb hi => ?_, fun hb hi => ?_⟩
  · have haccepted : step s = .next ((s.withInbox (.complete :: ts)).accept .badCommand) := by
      rw [step_writeCmd_idle hr hb hi, commandOpcode_badCommand hw]
    have hcompleted : step ((s.withInbox (.complete :: ts)).accept .badCommand) =
        exec (.badCommand 0#64) ((s.withInbox ts).accept .badCommand) :=
      step_complete (s := (s.withInbox (.complete :: ts)).accept .badCommand) (op := .badCommand) hr rfl rfl
    exact ⟨_, _, haccepted, rfl, rfl, hcompleted.trans (execBadCommand_eq _ _), rfl, rfl, rfl, rfl, rfl, rfl, rfl, rfl⟩
  · exact step_writeCmd_busy hr hb hi

end Sys2Proof.Machine
end

section
/-! Records and the streams made of them (30_encoding.md R86 to R90): where a record is refused, and what a stream of
segments decodes to. -/

namespace Sys2Proof.Machine

/-- No cursor reads a record of the mode `m`. -/
theorem recordCursor_eq_none {m : Mode} {s : State}
    (h : ∀ c, s.work = some (.cursor c) →
      c.mode ≠ m ∨ s.arg2.toNat ≤ c.cnt ∨ s.cap.entries < s.arg1.toNat + s.arg2.toNat) :
    s.recordCursor m = none := by
  refine Option.eq_none_iff_forall_ne_some.2 fun c hc => ?_
  obtain ⟨hw, hmode, hcnt, hin⟩ := recordCursor_eq_some.1 hc
  rcases h c hw with hne | hle | hlt
  · exact hne hmode
  · exact absurd hcnt (Nat.not_lt.2 hle)
  · exact absurd (destInRange_iff.1 hin) (Nat.not_le.2 hlt)

/-- Settles O38. -/
theorem recordOutsideDecodeRefused : Obligations.RecordOutsideDecodeRefused := by
  refine fun s => ⟨fun hidle a => ?_, fun hidle => ⟨?_, fun d => ?_⟩⟩
  · simp [exec, execNccAnchor, recordCursor_eq_none hidle]
  · simp [exec, execNccSentinel, recordCursor_eq_none hidle]
  · simp [exec, execNccDelta, recordCursor_eq_none hidle]

/-- A sentinel is passed over: the values after it are those of an anchor position (43_gap_decoder.md R156). -/
theorem nccValues_sentinel (k : Nat) (last : Word) (bytes : List Byte) :
    nccValues k .delta last (encode .nccSentinel ++ bytes) = nccValues k .anchor last bytes := by
  cases k with
  | zero => rfl
  | succ k =>
    have hnext : nextValue last .delta (encode .nccSentinel ++ bytes) = nextValue last .anchor bytes := rfl
    rw [nccValues, nccValues, hnext]

/-- A segment gives its values, and the decode goes on after it (43_gap_decoder.md R154, R155). -/
theorem nccValues_segment (g : Segment) (hd : ∀ d ∈ g.deltas, d ≠ 0#16) (rest : List Byte) (last : Word) (k : Nat) :
    ∃ last', nccValues (g.values.length + k) .anchor last (g.bytes ++ rest) =
      (g.values ++ (nccValues k .delta last' rest).1, (nccValues k .delta last' rest).2) := by
  have hanchor : nextValue last .anchor (g.bytes ++ rest) =
      .ok (g.anchor, g.deltas.flatMap (fun d => encode (.nccDelta d)) ++ rest) := by
    rw [Segment.bytes, List.append_assoc]
    exact anchorHead_wordBytes _ _
  have hlen : g.values.length + k = g.deltas.length + k + 1 := by
    rw [Segment.values, List.length_cons, deltaValues_length]
    omega
  refine ⟨(deltaValues g.anchor g.deltas).getLastD g.anchor, ?_⟩
  rw [hlen, nccValues_ok hanchor, nccValues_deltas g.deltas hd]
  rfl

/-- A stream of segments gives the values of the segments, one segment after the other. -/
theorem nccValues_stream (g : Segment) (gs : List Segment) (hd : ∀ h ∈ g :: gs, ∀ d ∈ h.deltas, d ≠ 0#16)
    (rest : List Byte) (last : Word) :
    nccValues ((g :: gs).flatMap Segment.values).length .anchor last (nccStream g gs ++ rest) =
      ((g :: gs).flatMap Segment.values, .ok) := by
  induction gs generalizing g last with
  | nil =>
    obtain ⟨last', hg⟩ := nccValues_segment g (hd g List.mem_cons_self) rest last 0
    simpa [nccStream, nccValues] using hg
  | cons h gs ih =>
    obtain ⟨last', hg⟩ := nccValues_segment g (hd g List.mem_cons_self) (encode .nccSentinel ++ (nccStream h gs ++ rest))
      last ((h :: gs).flatMap Segment.values).length
    have hrest := ih h (fun k hk => hd k (List.mem_cons_of_mem g hk)) last'
    rw [nccValues_sentinel, hrest] at hg
    rw [List.flatMap_cons, List.length_append, nccStream, List.append_assoc, List.append_assoc]
    exact hg

/-- A DECODE whose stream did not move and whose first `LENGTH` values are `vs` writes them and completes with `OK`. -/
theorem execDecode_ok {s : State} {vs : List Word} (hstill : s.streamMoved = false) (hp : s.streamPresent = true)
    (hin : s.destInRange = true) (hvs : nccValues s.length .anchor 0#64 (s.streamFrom s.start) = (vs, .ok))
    (hlen : vs.length = s.length) :
    exec .decode s = .next ((s.seqWriteAll s.destBase vs).complete .ok s.arg2) := by
  have harg2 : BitVec.ofNat 64 s.length = s.arg2 := by simp [State.length]
  have hexec : exec .decode s = execDecode s := rfl
  rw [hexec, execDecode_eq hin hp, hvs, completeDecode_still (by simpa using hstill), hlen, harg2]

/-- Settles O44: the first `LENGTH` values are the start of those of all segments. -/
theorem segmentStreamDecodes : Obligations.SegmentStreamDecodes := by
  intro s g gs rest hstill hp hin hd hbytes hle
  have hall := nccValues_stream g gs hd rest 0#64
  have hfirst : nccValues s.length .anchor 0#64 (s.streamFrom s.start) =
      (((g :: gs).flatMap Segment.values).take s.length, .ok) := by
    have hstart := nccValues_prefix s.length _ .anchor 0#64 (nccStream g gs ++ rest) hle (by rw [hall])
    rw [hall] at hstart
    exact (congrArg _ hbytes).trans hstart
  have hlen := List.length_take_of_le hle
  refine ⟨_, execDecode_ok hstill hp (destInRange_iff.2 hin) hfirst hlen, rfl, rfl, fun j hj hjlen => ?_⟩
  have hwritten := Memory.find_writeAll_at s.seq s.destBase j (((g :: gs).flatMap Segment.values).take s.length)
    (hjlen.trans_eq hlen.symm)
  rw [List.getElem_take] at hwritten
  exact congrArg (Option.getD · _) hwritten

end Sys2Proof.Machine
end

section
/-! The lifecycle of a command (40_command_lifecycle.md): its acceptance or rejection, the writes that are ignored while
it is pending, the turn that runs it, and its completion. -/

namespace Sys2Proof.Machine

/-! The host's writes. -/

/-- A write that the registers ignore has no effect at any level of `rst` (70_reset_and_hazards.md R210). -/
theorem step_write_ignored {s : State} {ts : List Turn} {addr : BitVec 32} {v : Word} (ha : addr.toNat % 8 = 0)
    (h : memWrite addr v (s.withInbox ts) = s.withInbox ts) :
    step (s.withInbox (.host (.write .eight addr v) :: ts)) = .next (s.withInbox ts) := by
  cases hr : s.rst with
  | false => exact (step_write hr ha).trans (congrArg _ h)
  | true => simp [step_withInbox, takeTurn, busAccess, busAdmitted_eight ha, hr]

theorem memWrite_busy {s : State} {addr : BitVec 32} (ha : addr.toNat % 8 = 0) (hcmd : addr ≠ 0x000#32) (v : Word)
    (hb : s.status.busy = true) : memWrite addr v s = s := by
  rcases memWrite_cases ha v s with ⟨h, -⟩ | ⟨h, -⟩ | h | ⟨hidle, -⟩
  · exact absurd h hcmd
  · exact absurd h hcmd
  · exact h
  · simp [hb] at hidle

/-- Only `CMD`, the arguments and the window of `SEQ` can be written (20_memory.md R55). -/
theorem memWrite_readOnly {s : State} {addr : BitVec 32} (ha : addr.toNat % 8 = 0) (hcmd : addr ≠ 0x000#32)
    (h0 : addr ≠ 0x010#32) (h1 : addr ≠ 0x018#32) (h2 : addr ≠ 0x020#32)
    (hseq : ¬(0x1000 ≤ addr.toNat ∧ addr.toNat < 0x1000 + 8 * s.capacity)) (v : Word) : memWrite addr v s = s := by
  rcases memWrite_cases ha v s with ⟨h, -⟩ | ⟨h, -⟩ | h | ⟨-, ⟨h, -⟩ | ⟨h, -⟩ | ⟨h, -⟩ | ⟨j, hj, h, -⟩⟩
  · exact absurd h hcmd
  · exact absurd h hcmd
  · exact h
  · exact absurd h h0
  · exact absurd h h1
  · exact absurd h h2
  · rw [h, windowAddr_toNat (SeqCap_bound s) hj] at hseq
    omega

/-- Settles O10. -/
theorem busyHostWritesIgnored : Obligations.BusyHostWritesIgnored := by
  intro s ts addr v ha hcmd
  exact ⟨fun hb => step_write_ignored ha (memWrite_busy ha hcmd v hb),
    fun h0 h1 h2 hseq => step_write_ignored ha (memWrite_readOnly (s := s.withInbox ts) ha hcmd h0 h1 h2 hseq v)⟩

/-- Settles O17. -/
theorem commandRejected : Obligations.CommandRejected := by
  intro s ts w hr hb
  exact step_writeCmd_busy (s := s.withInbox (.host (.write .eight 0x000#32 w) :: ts)) hr hb rfl

theorem commandOpcode_of_opcode? {w : Word} {op : Opcode} (h : (decodeCmd w).opcode? = some op) :
    commandOpcode w = op := by
  simp [commandOpcode, h]

/-- Settles O16: the acceptance, then the operands by O56. -/
theorem commandAccepted : Obligations.CommandAccepted := by
  refine ⟨fun s ts w op hr hb hop => ?_, fun s t hb h hnr => ?_⟩
  · have haccepted := step_writeCmd_idle (s := s.withInbox (.host (.write .eight 0x000#32 w) :: ts)) hr hb rfl
    rw [commandOpcode_of_opcode? hop] at haccepted
    exact haccepted
  · have hbusy : ¬ s.status.busy = false := by simp [hb]
    obtain ⟨h0, h1, h2⟩ := argumentsChangeOnlyByHost s t h hnr
    exact ⟨not_not.1 fun hne => hbusy (h0 hne).1, not_not.1 fun hne => hbusy (h1 hne).1,
      not_not.1 fun hne => hbusy (h2 hne).1⟩

/-! The turn that runs the pending command whole. -/

theorem completeTurn_of_pend {s : State} {op : Opcode} (hr : s.rst = false) (hp : s.pend = some op) :
    completeTurn s = exec op.instr s := by
  simp [completeTurn, hr, hp]

/-- The command that runs for a pending opcode means what the accepted word means (40_command_lifecycle.md R103, R110).
-/
theorem exec_instr_of_opcode? {w : Word} {op : Opcode} (h : (decodeCmd w).opcode? = some op) (s : State) :
    exec op.instr s = exec (decodeCmd w) s := by
  rw [← commandOpcode_of_opcode? h]
  rcases commandOpcode_instr w with hinstr | ⟨hop, hbad⟩
  · rw [hinstr]
  · rw [hop, hbad]
    exact (execBadCommand_eq _ s).trans (execBadCommand_eq w s).symm

/-- Settles O46. -/
theorem stepRunsPendingCommand : Obligations.StepRunsPendingCommand := by
  intro s ts op w hr hp hop
  have hrun : ∀ us, completeTurn (s.withInbox us) = exec (decodeCmd w) (s.withInbox us) := fun us =>
    (completeTurn_of_pend (s := s.withInbox us) hr hp).trans (exec_instr_of_opcode? hop _)
  exact ⟨hrun ts, hrun []⟩

/-- Settles O49: every command completes. -/
theorem pendingCommandCompletes : Obligations.PendingCommandCompletes := by
  intro s op hr hp hi
  have hstep : step s = exec op.instr s := by
    rw [step, hi]
    exact completeTurn_of_pend hr hp
  obtain ⟨m, v, c, k, hexec, hframe, -⟩ := exec_command_spec op s
  refine ⟨_, hstep.trans hexec, rfl, rfl, rfl, rfl, rfl, rfl, rfl, rfl, rfl, fun hop => ?_⟩
  obtain ⟨hseq, htick, -⟩ := hframe hop
  exact ⟨hseq, htick⟩

theorem badCommand_status_word {st : Status} (h : st.rej = false) :
    (st.completed ErrorCode.badCommand.code).word = 0x72#64 := by
  rw [Status.completed, h]
  rfl

/-- Settles O19. -/
theorem badCommandCompletes : Obligations.BadCommandCompletes :=
  ⟨fun _ h1 h2 h3 h4 => decodeCmd_badCommand ⟨h1, h2, h3, h4⟩,
    fun w s => ⟨execBadCommand_eq w s, badCommand_status_word⟩⟩

/-! Completions. -/

/-- `t` is `s` after a completion (40_command_lifecycle.md R106), with one of the error codes unless the stream moved
(10_state.md R31, 20_memory.md R66). -/
def State.CompletesTo (s t : State) : Prop :=
  ∃ (c : BitVec 4) (k : Nat),
    t = { s with
      inbox := t.inbox
      seq := t.seq
      result := t.result
      status := { busy := false, done := true, rej := s.status.rej, err := c }
      pend := none
      work := none
      tick := k } ∧
    (s.streamMoved = false → k = s.tick ∧ ∃ e : ErrorCode, c = e.code)

theorem complete_completesTo (s : State) (ts : List Turn) (e : ErrorCode) (v : Word) :
    s.CompletesTo ((s.withInbox ts).complete e v) :=
  ⟨e.code, s.tick, rfl, fun _ => ⟨rfl, e, rfl⟩⟩

/-- A DECODE completes like that after any writes to `SEQ`. -/
theorem completeDecode_completesTo (s : State) (ts : List Turn) (i : Nat) (vs : List Word) (e : ErrorCode) (n : Nat) :
    s.CompletesTo (((s.withInbox ts).seqWriteAll i vs).completeDecode e n) := by
  obtain ⟨m, v, c, k, he, hstill, -⟩ := completeDecode_spec e n ((s.withInbox ts).seqWriteAll i vs)
  rw [he]
  refine ⟨c, k, rfl, fun hm => ?_⟩
  obtain ⟨-, -, hc, hk⟩ := hstill hm
  exact ⟨hk, e, hc⟩

/-- Every command completes like that, whichever it is. -/
theorem exec_completesTo (op : Opcode) (s : State) (ts : List Turn) :
    ∃ t, exec op.instr (s.withInbox ts) = .next t ∧ s.CompletesTo t := by
  cases op with
  | sqrt => exact ⟨_, execSqrt_eq _, complete_completesTo ..⟩
  | isPrime => exact ⟨_, execIsPrime_eq _, complete_completesTo ..⟩
  | isPrimeList =>
    cases hin : (s.withInbox ts).listInRange with
    | true => exact ⟨_, execIsPrimeList_inRange hin, complete_completesTo ..⟩
    | false => exact ⟨_, execIsPrimeList_outOfRange hin, complete_completesTo ..⟩
  | decode =>
    obtain ⟨vs, e, n, -, hexec⟩ := execDecode_completes (s.withInbox ts)
    exact ⟨_, hexec, completeDecode_completesTo ..⟩
  | badCommand => exact ⟨_, execBadCommand_eq _ _, complete_completesTo ..⟩

theorem engineTurn_completesTo {s t : State} {ts : List Turn} (h : engineTurn (s.withInbox ts) = .next t)
    (hp : s.pend ≠ none) (ht : t.pend = none) : s.CompletesTo t := by
  rcases engineTurn_effect h with ⟨rfl, -⟩ | ⟨-, -, ⟨w, rfl⟩ | ⟨e, v, rfl⟩ | ⟨e, n, rfl, -⟩ | ⟨c, v, w, -, -, -, rfl⟩⟩
  · exact absurd ht hp
  · exact absurd ht hp
  · exact complete_completesTo s ts e v
  · exact completeDecode_completesTo s ts 0 [] e n
  · exact absurd ht hp

theorem completeTurn_completesTo {s t : State} {ts : List Turn} (h : completeTurn (s.withInbox ts) = .next t)
    (hp : s.pend ≠ none) (ht : t.pend = none) : s.CompletesTo t := by
  rcases completeTurn_cases h with ⟨rfl, -⟩ | ⟨op, -, -, hexec⟩
  · exact absurd ht hp
  · obtain ⟨u, hu, hcompletes⟩ := exec_completesTo op s ts
    obtain rfl := Host.Outcome.next.inj (hexec.symm.trans hu)
    exact hcompletes

/-- The one write that reaches `PEND` puts an opcode there. -/
theorem memWrite_pend {s : State} {addr : BitVec 32} (ha : addr.toNat % 8 = 0) (v : Word) (hp : s.pend ≠ none) :
    (memWrite addr v s).pend ≠ none := by
  rcases memWrite_cases ha v s with ⟨-, -, e⟩ | ⟨-, -, e⟩ | e | ⟨-, ⟨-, e⟩ | ⟨-, e⟩ | ⟨-, e⟩ | ⟨j, -, -, e⟩⟩ <;>
    rw [e]
  pick_goal 2
  · exact Option.some_ne_none _
  all_goals exact hp

/-- The host cannot end a command. -/
theorem busAccess_pend {s t : State} {a : BusAccess} (h : busAccess a s = .next t) (hp : s.pend ≠ none) :
    t.pend ≠ none := by
  rcases busAccess_cases h with ⟨addr, v, k, -, rfl⟩ | ⟨addr, v, -, ha, ⟨-, rfl⟩ | ⟨-, rfl⟩⟩
  · exact hp
  · exact hp
  · exact memWrite_pend ha v hp

/-- Settles O18: only the engine ends a command. -/
theorem completionWrites : Obligations.CompletionWrites := by
  refine ⟨fun s t h hp ht hnr => ?_, fun _ _ _ => rfl, rfl, rfl, rfl, rfl, rfl, rfl, rfl, rfl⟩
  rcases step_cases h with ⟨a, ts, -, h⟩ | ⟨ts, -, h⟩ | ⟨ts, -, h⟩ | ⟨level, ts, hi, -⟩ | ⟨p, b, ts, -, rfl⟩
  · exact absurd ht (busAccess_pend h hp)
  · exact engineTurn_completesTo h hp ht
  · exact completeTurn_completesTo h hp ht
  · exact absurd ⟨level, ts, hi⟩ hnr
  · exact absurd ht hp

end Sys2Proof.Machine
end

section
/-! The engine's single steps (40_command_lifecycle.md R105, R109): from the first step of a command on they reach the
state of the whole evaluation, stage by stage of its pseudocode. -/

namespace Sys2Proof.Machine

theorem engineRun_start {s : State} {op : Opcode} (hr : s.rst = false) (hp : s.pend = some op) (hw : s.work = none)
    (k : Nat) : engineRun (k + 1) s = engineRun k (engineStart op s) :=
  engineRun_succ k (engineTurn_start hr hp hw)

/-- SqrtBound inside a command, from its fixed points or initial bounds to its result, takes at most 32 turns: `mk`
holds the variables of its loop, `turn` takes its iterations (41_isqrt_bound.md R124). -/
theorem sqrtBound_run {s : State} {op : Opcode} (mk : Bisect → Work) (turn : LoopStep Bisect Nat → State → State)
    (hr : s.rst = false) (hp : s.pend = some op)
    (hmore : ∀ v t, turn (.more v) t = t.setWork (mk v))
    (hdone : ∀ r w, turn (.done r) (s.setWork w) = turn (.done r) s)
    (hadv : ∀ v, engineAdvance (mk v) (s.setWork (mk v)) =
      .next (turn (bisectNext s.candidate v) (s.setWork (mk v)))) :
    ∃ j, j ≤ 32 ∧ engineRun j (turn (sqrtStart s.candidate) s) =
      .next (turn (.done (sqrtBound s.candidate)) s) := by
  rcases Nat.lt_or_ge 2 s.candidate with h2 | h2
  · obtain ⟨v, hstart, hv, hwidth⟩ := sqrtStart_of_gt h2 s.arg0.isLt
    have hbound : sqrtBound s.candidate = bisectLoop 32 s.candidate v := by rw [sqrtBound, hstart]
    rw [hstart, hmore, hbound]
    exact bisect_run mk turn hr hp hmore hdone hadv hv hwidth.le
  · have hbound : sqrtBound s.candidate = s.candidate := by rw [sqrtBound, sqrtStart_of_le h2]
    rw [sqrtStart_of_le h2, hbound]
    exact ⟨0, Nat.zero_le _, rfl⟩

/-- One iteration leaves the previous candidate at 2 or more: it goes on with it or with a greater entry
(42_trial_division.md R135). -/
theorem walkNext_prev {n count : Nat} {L : Nat → Nat} {v : Walk} (hv : 2 ≤ v.prev) :
    (∀ v', walkNext n count L v = .more v' → 2 ≤ v'.prev) ∧
      ∀ p, walkNext n count L v = .done (.exhausted p) → 2 ≤ p := by
  dsimp only [walkNext]
  split_ifs with hi hskip hle hbeyond hdvd
  · simpa using hv
  · simp
  · simp
  · simp
  · simp only [LoopStep.more.injEq, forall_eq']
    exact ⟨hv.trans (Nat.not_le.1 hle).le, by simp⟩
  · simpa using hv

/-- The candidate that the continuation starts after is at least 2 (42_trial_division.md R138). -/
theorem walkLoop_exhausted_prev {k n count p : Nat} {L : Nat → Nat} {v : Walk} (hv : 2 ≤ v.prev)
    (h : walkLoop k n count L v = .exhausted p) : 2 ≤ p := by
  induction k generalizing v with
  | zero =>
    obtain rfl : v.prev = p := by simpa [walkLoop] using h
    exact hv
  | succ k ih =>
    obtain ⟨hmore, hdone⟩ := walkNext_prev (n := n) (count := count) (L := L) hv
    rw [walkLoop] at h
    cases hn : walkNext n count L v with
    | more v' => exact ih (hmore v' hn) (by rwa [hn] at h)
    | done r =>
      obtain rfl : r = .exhausted p := by rwa [hn] at h
      exact hdone p hn

theorem sqrt_run {s : State} (hr : s.rst = false) (hp : s.pend = some .sqrt) :
    ∃ j, j ≤ 32 ∧ engineRun j (engineStart .sqrt s) = exec .sqrt s :=
  sqrtBound_run .sqrt sqrtTurn hr hp (fun _ _ => rfl) (fun _ _ => rfl) (fun _ => rfl)

/-- The division from 3 on follows the bisection (42_trial_division.md R130). -/
theorem isPrime_run {s : State} (hr : s.rst = false) (hp : s.pend = some .isPrime) :
    ∃ j, j ≤ 32 + 2 ^ 31 ∧ engineRun j (engineStart .isPrime s) = exec .isPrime s := by
  have hexec : exec .isPrime s = .next (s.finish (boolWord (isPrime s.candidate))) := rfl
  rw [hexec, isPrime, engineStart]
  cases hf : fastPath s.candidate with
  | some r => exact ⟨0, Nat.zero_le _, rfl⟩
  | none =>
    obtain ⟨i, hi, hbound⟩ :=
      sqrtBound_run .primeBound primeBoundTurn hr hp (fun _ _ => rfl) (fun _ _ => rfl) (fun _ => rfl)
    obtain ⟨j, hj, hdivide⟩ := noDivisorFrom_run hr hp (sqrtBound_spec s.arg0.isLt).2 le_rfl
    exact ⟨i + j, Nat.add_le_add hi hj, (engineRun_add j hbound).trans hdivide⟩

/-- The end of the walk answers, or the division after the last candidate does (42_trial_division.md R136 to R139). -/
theorem walkEnd_run {s : State} (hr : s.rst = false) (hp : s.pend = some .isPrimeList) (hn : Slow s.candidate)
    (hin : s.listInRange = true) :
    ∃ j, j ≤ 2 ^ 31 ∧
      engineRun j (walkTurn (sqrtBound s.candidate) (.done (walkLoop (s.listCount + 1) s.candidate s.listCount
        s.listEntry (Walk.begin (sqrtBound s.candidate)))) s) = exec .isPrimeList s := by
  rw [execIsPrimeList_inRange hin, isPrimeList_slow hn]
  cases hend : walkLoop (s.listCount + 1) s.candidate s.listCount s.listEntry (Walk.begin (sqrtBound s.candidate)) with
  | invalid => exact ⟨0, Nat.zero_le _, rfl⟩
  | answer r => exact ⟨0, Nat.zero_le _, rfl⟩
  | exhausted p =>
    obtain ⟨h3, -⟩ := continuation_odd (walkLoop_exhausted_prev le_rfl hend)
    exact noDivisorFrom_run hr hp (sqrtBound_spec s.arg0.isLt).2 h3

/-- The walk follows the bisection (42_trial_division.md R133). -/
theorem isPrimeList_run {s : State} (hr : s.rst = false) (hp : s.pend = some .isPrimeList) :
    ∃ j, j ≤ 32 + (s.listCount + 1) + 2 ^ 31 ∧ engineRun j (engineStart .isPrimeList s) = exec .isPrimeList s := by
  cases hin : s.listInRange with
  | false =>
    rw [execIsPrimeList_outOfRange hin, engineStart, if_neg (by simp [hin])]
    exact ⟨0, Nat.zero_le _, rfl⟩
  | true =>
    rw [engineStart, if_pos hin]
    cases hf : fastPath s.candidate with
    | some r =>
      rw [execIsPrimeList_inRange hin, isPrimeList, hf]
      exact ⟨0, Nat.zero_le _, rfl⟩
    | none =>
      obtain ⟨i, hi, hbound⟩ :=
        sqrtBound_run .listBound listBoundTurn hr hp (fun _ _ => rfl) (fun _ _ => rfl) (fun _ => rfl)
      obtain ⟨j, hj, hwalk⟩ := walk_run (v := Walk.begin (sqrtBound s.candidate)) hr hp (Nat.zero_le _)
        (show s.listCount < 0 + (s.listCount + 1) by omega)
      obtain ⟨k, hk, hanswer⟩ := walkEnd_run hr hp (fastPath_none_iff.1 hf) hin
      refine ⟨i + (j + k), by omega, ?_⟩
      exact (engineRun_add _ hbound).trans ((engineRun_add k hwalk).trans hanswer)

/-- The loop of DECODE takes one turn for each record and one for the test that ends it (43_gap_decoder.md R167). -/
theorem execDecode_run {s : State} (hr : s.rst = false) (hp : s.pend = some .decode) :
    ∃ j, j ≤ 2 * s.length + 1 ∧ engineRun j (engineStart .decode s) = exec .decode s := by
  have hexec : exec .decode s = execDecode s := rfl
  rw [hexec, engineStart, execDecode]
  split_ifs with hout hclosed
  · exact ⟨0, Nat.zero_le _, rfl⟩
  · exact ⟨0, Nat.zero_le _, rfl⟩
  · have hbudget : (Cursor.begin s.start).budget s.openCursor.length < 2 * s.length + 1 :=
      Nat.lt_succ_of_le (Nat.sub_le _ _)
    exact decode_run (s := s.openCursor) hr hp rfl (by simpa using hout) hbudget

/-- Settles O48: the first step, then the loops of the command that is pending. -/
theorem engineStepsReachCompletion : Obligations.EngineStepsReachCompletion := by
  intro s op hr hp hw
  obtain ⟨j, hj, hrun⟩ : ∃ j, j + 1 ≤ engineBound op s ∧ engineRun j (engineStart op s) = exec op.instr s := by
    cases op with
    | sqrt =>
      obtain ⟨j, hj, hrun⟩ := sqrt_run hr hp
      exact ⟨j, by simp only [engineBound]; omega, hrun⟩
    | isPrime =>
      obtain ⟨j, hj, hrun⟩ := isPrime_run hr hp
      exact ⟨j, by simp only [engineBound]; omega, hrun⟩
    | isPrimeList =>
      obtain ⟨j, hj, hrun⟩ := isPrimeList_run hr hp
      exact ⟨j, by simp only [engineBound]; omega, hrun⟩
    | decode =>
      obtain ⟨j, hj, hrun⟩ := execDecode_run hr hp
      exact ⟨j, by simp only [engineBound]; omega, hrun⟩
    | badCommand => exact ⟨0, le_rfl, rfl⟩
  exact ⟨j + 1, hj, (engineRun_start hr hp hw j).trans hrun⟩

end Sys2Proof.Machine
end

section
/-! SqrtBound (41_isqrt_bound.md): where it stands against any square, and from there its values and its range. -/

namespace Sys2Proof.Machine

/-- SqrtBound stands to `m` as `n` does to the square of `m` (41_isqrt_bound.md R121). -/
theorem sqrtBound_le_iff {n m : Nat} (hn : n < 2 ^ 64) : sqrtBound n ≤ m ↔ n ≤ m * m := by
  obtain ⟨hroot, -⟩ := sqrtBound_spec hn
  exact ⟨fun h => hroot.1.trans (Nat.mul_self_le_mul_self h), hroot.le_of_le⟩

theorem lt_sqrtBound_iff {n m : Nat} (hn : n < 2 ^ 64) : m < sqrtBound n ↔ m * m < n := by
  rw [← Nat.not_le, ← Nat.not_le, sqrtBound_le_iff hn]

/-- The fixed points (41_isqrt_bound.md R120). -/
theorem sqrtBound_of_le_two {n : Nat} (h : n ≤ 2) : sqrtBound n = n := by
  rw [sqrtBound, sqrtStart_of_le h]

theorem sqrtBound_eq_succ {n m : Nat} (hn : n < 2 ^ 64) (hlo : m * m < n) (hhi : n ≤ (m + 1) * (m + 1)) :
    sqrtBound n = m + 1 :=
  sqrtBound_eq hn (isCeilSqrt_of_bounds hlo hhi le_rfl)

theorem sqrtBound_le_self {n : Nat} (hn : n < 2 ^ 64) : sqrtBound n ≤ n :=
  (sqrtBound_le_iff hn).2 (Nat.le_mul_self n)

theorem sqrtBound_lt_self {n : Nat} (h3 : 3 ≤ n) (hn : n < 2 ^ 64) : sqrtBound n < n := by
  obtain ⟨m, rfl⟩ : ∃ m, n = m + 1 := ⟨n - 1, by omega⟩
  have hsquare : m + 1 ≤ m * m := by nlinarith
  exact Nat.lt_succ_of_le ((sqrtBound_le_iff hn).2 hsquare)

/-- The bounds of the loop's invariant, beside the invariant (41_isqrt_bound.md R121). -/
theorem Bisect.Inv.brackets {n : Nat} {v : Bisect} (h : v.Inv n) :
    v.lo * v.lo < n ∧ n ≤ v.hi * v.hi ∧ v.Inv n := by
  have ⟨hlo, hhi, _⟩ := h
  exact ⟨hlo, hhi, h⟩

/-- The bounds of the bisection and the square of its midpoint (41_isqrt_bound.md R123). -/
theorem Bisect.Inv.no_overflow {n : Nat} {v : Bisect} (h : v.Inv n) :
    v.c ≤ 2 ^ 32 - 1 ∧ v.c * v.c ≤ 2 ^ 64 - 2 ^ 33 + 1 ∧ v.lo ≤ 2 ^ 32 ∧ v.hi ≤ 2 ^ 32 := by
  obtain ⟨-, -, hhi, hwidth, hc⟩ := h
  obtain ⟨-, hlt⟩ := midpoint_bounds hwidth
  have hmid : v.c ≤ 2 ^ 32 - 1 := by omega
  exact ⟨hmid, Nat.mul_self_le_mul_self hmid, by omega, hhi⟩

/-- Settles O20. -/
theorem sqrtCompletes : Obligations.SqrtCompletes := by
  refine ⟨rfl, fun s => ⟨execSqrt_eq s, ?_⟩⟩
  obtain ⟨hroot, -⟩ := sqrtBound_spec s.arg0.isLt
  exact hroot

/-- Settles O21: at the start, at each iteration that goes on, and at the one that ends the loop. -/
theorem sqrtBoundIsLeastRoot : Obligations.SqrtBoundIsLeastRoot := by
  intro n hn
  obtain ⟨hroot, -⟩ := sqrtBound_spec hn
  refine ⟨hroot, fun v e => ?_, fun v v' hv e => (bisectNext_more hv e).brackets, fun v r => bisectNext_done⟩
  obtain ⟨-, hv⟩ := sqrtStart_more hn e
  exact hv.brackets

/-- Settles O22: `2^32` is what lies above `2^32 − 1`. -/
theorem sqrtBoundRange : Obligations.SqrtBoundRange := by
  intro n hn
  obtain ⟨-, hmax⟩ := sqrtBound_spec hn
  have hlargest : 2 ^ 32 - 1 < sqrtBound n ↔ 0xFFFFFFFE00000001 < n := lt_sqrtBound_iff hn
  refine ⟨hmax, ?_, BitVec.toNat_ofNat (sqrtBound n) 64 |>.trans (Nat.mod_eq_of_lt (by omega))⟩
  rw [← hlargest]
  omega

/-- Settles O23: whichever command runs the bisection, its variables meet the loop's invariant. -/
theorem midpointsDoNotOverflow : Obligations.MidpointsDoNotOverflow := by
  intro s v h hw
  have hv : v.Inv s.candidate := by
    rcases hw with hw | hw | hw
    · obtain ⟨-, -, hv⟩ := h.work_inv _ hw
      exact hv
    · obtain ⟨-, -, hv⟩ := h.work_inv _ hw
      exact hv
    · obtain ⟨-, -, -, hv⟩ := h.work_inv _ hw
      exact hv
  exact hv.no_overflow

/-- Settles O24: the fixed points, the values between two neighbouring squares, and SqrtBound against `n` itself. -/
theorem sqrtCornerCases : Obligations.SqrtCornerCases :=
  ⟨sqrtBound_of_le_two (by decide), sqrtBound_of_le_two (by decide), sqrtBound_of_le_two (by decide),
    sqrtBound_eq_succ (m := 1) (by decide) (by decide) (by decide),
    sqrtBound_eq_succ (m := 1) (by decide) (by decide) (by decide),
    sqrtBound_eq_succ (m := 2) (by decide) (by decide) (by decide),
    sqrtBound_eq_succ (m := 2 ^ 16 - 1) (by decide) (by decide) (by decide),
    sqrtBound_eq_succ (m := 2 ^ 32 - 2) (by decide) (by decide) (by decide),
    sqrtBound_eq_succ (m := 2 ^ 32 - 1) (by decide) (by decide) (by decide),
    sqrtBound_eq_succ (m := 2 ^ 32 - 1) (by decide) (by decide) (by decide),
    fun _ => sqrtBound_le_self, fun _ => sqrtBound_lt_self⟩

end Sys2Proof.Machine
end

section
/-! trial_division_tester (42_trial_division.md): the fast path, the answer of ISPRIME_LIST by what ends its walk, lists
against primality, and the range of the divisors. -/

namespace Sys2Proof.Machine

/-! What the two commands complete with. -/

theorem execIsPrimeList_of_answer {s : State} {e : ErrorCode} {r : Bool}
    (hin : s.arg1.toNat + s.arg2.toNat ≤ s.cap.entries)
    (h : isPrimeList s.candidate s.listCount s.listEntry = (e, r)) :
    exec .isPrimeList s = .next (s.complete e (boolWord r)) := by
  rw [execIsPrimeList_inRange (listInRange_iff.2 hin), h]

/-- Equal answers are equal completions. -/
theorem execIsPrimeList_eq_execIsPrime {s : State} (hin : s.arg1.toNat + s.arg2.toNat ≤ s.cap.entries)
    (h : isPrimeList s.candidate s.listCount s.listEntry = (.ok, isPrime s.candidate)) :
    exec .isPrimeList s = exec .isPrime s :=
  (execIsPrimeList_of_answer hin h).trans (execIsPrime_eq s).symm

theorem execIsPrimeList_listRange {s : State} (h : s.cap.entries < s.arg1.toNat + s.arg2.toNat) :
    exec .isPrimeList s = .next (s.complete .listRange 0#64) :=
  execIsPrimeList_outOfRange (Bool.eq_false_iff.2 fun hin => absurd (listInRange_iff.1 hin) (Nat.not_le.2 h))

/-! The fast path (42_trial_division.md R134). -/

theorem fastPath_of_lt_two {n : Nat} (h : n < 2) : fastPath n = some false := if_pos h

theorem fastPath_of_two_or_three {n : Nat} (h : n = 2 ∨ n = 3) : fastPath n = some true := by
  rw [fastPath, if_neg (by omega), if_pos h]

theorem fastPath_of_even {n : Nat} (h : 2 < n) (heven : n % 2 = 0) : fastPath n = some false := by
  rw [fastPath, if_neg (by omega), if_neg (by omega), if_pos heven]

theorem isPrime_of_fastPath {n : Nat} {r : Bool} (h : fastPath n = some r) : isPrime n = r := by
  rw [isPrime, h]

theorem isPrimeList_of_fastPath {n count : Nat} {L : Nat → Nat} {r : Bool} (h : fastPath n = some r) :
    isPrimeList n count L = (.ok, r) := by
  rw [isPrimeList, h]

/-! The answer of ISPRIME_LIST past the fast path. -/

/-- The answer for the candidate `n` with the bound `b`, by what ends the walk along the list (42_trial_division.md
R133, R138). -/
def WalkEnd.verdict (n b : Nat) : WalkEnd → ErrorCode × Bool
  | .invalid => (.listInvalid, false)
  | .answer r => (.ok, r)
  | .exhausted prev => (.ok, noDivisorFrom n b (continuation prev))

theorem isPrimeList_eq_verdict {n b count : Nat} {L : Nat → Nat} (hs : Slow n) (hn : n < 2 ^ 64)
    (hb : IsCeilSqrt n b) :
    isPrimeList n count L = (walkLoop (count + 1) n count L (Walk.begin b)).verdict n b := by
  rw [isPrimeList_slow hs, sqrtBound_eq hn hb]
  cases walkLoop (count + 1) n count L (Walk.begin b) <;> rfl

section
variable {n b count : Nat} {L : Nat → Nat} (hs : Slow n) (hn : n < 2 ^ 64) (hb : IsCeilSqrt n b)
include hs hn hb

/-- The first entry that is not passed decides the answer (42_trial_division.md R136, R137, R139). -/
theorem isPrimeList_of_ended {k : Nat} {r : WalkEnd} (hk : k < count) (hpassed : ∀ i < k, Passed n b L i)
    (hend : walkNext n count L (Walk.at b L k) = .done r) : isPrimeList n count L = r.verdict n b := by
  rw [isPrimeList_eq_verdict hs hn hb, walkLoop_ended hk hpassed hend]

/-- The continuation decides the answer of a list that is passed whole (42_trial_division.md R138). -/
theorem isPrimeList_of_passed (hpassed : ∀ i < count, Passed n b L i) :
    isPrimeList n count L = (.ok, noDivisorFrom n b (continuation (previous L count))) := by
  rw [isPrimeList_eq_verdict hs hn hb, walkLoop_exhausted hpassed]
  rfl

end

/-! Lists and primality. -/

theorem Slow.not_prime_of_dvd {n b d : Nat} (hs : Slow n) (hb : IsCeilSqrt n b) (h2 : 2 ≤ d) (hd : d ≤ b)
    (h : d ∣ n) : ¬ n.Prime :=
  Nat.not_prime_of_dvd_of_lt h h2 (hd.trans_lt (hb.lt_slow hs))

/-- The prime divisors up to the bound decide (42_trial_division.md R131). -/
theorem Slow.prime_of_no_prime_dvd {n b : Nat} (hs : Slow n) (hb : IsCeilSqrt n b)
    (h : ∀ p, p.Prime → p ≤ b → ¬ p ∣ n) : n.Prime := by
  refine (slow_prime_iff hs hb).1 fun q _ h3 hq hdvd => ?_
  exact h q.minFac (Nat.minFac_prime (by omega)) ((Nat.minFac_le (by omega)).trans hq) (q.minFac_dvd.trans hdvd)

/-- An entry that ends the walk with 0 is a divisor (42_trial_division.md R136). -/
theorem walkNext_answer_false {n count : Nat} {L : Nat → Nat} {v : Walk} (hv : 2 ≤ v.prev)
    (h : walkNext n count L v = .done (.answer false)) : 2 ≤ L v.i ∧ L v.i ≤ v.b ∧ L v.i ∣ n := by
  dsimp only [walkNext] at h
  split_ifs at h with hi hskip hle hbeyond hdvd
  · simp at h
  · simp at h
  · exact ⟨by omega, Nat.not_lt.1 hbeyond, Nat.dvd_of_mod_eq_zero hdvd⟩
  · simp at h

/-- A walk answers 0 only for a divisor that it has found in the list. -/
theorem walkLoop_answer_false {k n count : Nat} {L : Nat → Nat} {v : Walk} (hv : 2 ≤ v.prev)
    (h : walkLoop k n count L v = .answer false) : ∃ d, 2 ≤ d ∧ d ≤ v.b ∧ d ∣ n := by
  induction k generalizing v with
  | zero => simp [walkLoop] at h
  | succ k ih =>
    rw [walkLoop] at h
    cases hnext : walkNext n count L v with
    | more v' =>
      rw [hnext] at h
      obtain ⟨hmore, -⟩ := walkNext_prev (n := n) (count := count) (L := L) hv
      obtain ⟨hbound, -⟩ := walkNext_more hnext
      exact hbound ▸ ih (hmore v' hnext) h
    | done r =>
      obtain rfl : r = .answer false := by rwa [hnext] at h
      exact ⟨_, walkNext_answer_false hv hnext⟩

/-- Whatever the list, the answer 0 with `OK` stands on a divisor (42_trial_division.md R142). -/
theorem not_prime_of_isPrimeList_false {n count : Nat} {L : Nat → Nat} (hn : n < 2 ^ 64)
    (h : isPrimeList n count L = (.ok, false)) : ¬ n.Prime := by
  cases hf : fastPath n with
  | some r =>
    obtain rfl : r = false := by simpa [isPrimeList_of_fastPath hf] using h
    exact fun hp => absurd ((fastPath_prime hf).2 hp) Bool.false_ne_true
  | none =>
    have hs := fastPath_none_iff.1 hf
    obtain ⟨hb, -⟩ := sqrtBound_spec hn
    rw [isPrimeList_eq_verdict hs hn hb] at h
    cases hend : walkLoop (count + 1) n count L (Walk.begin (sqrtBound n)) with
    | invalid => simp [hend, WalkEnd.verdict] at h
    | answer r =>
      obtain rfl : r = false := by simpa [hend, WalkEnd.verdict] using h
      obtain ⟨d, h2, hd, hdvd⟩ := walkLoop_answer_false (v := Walk.begin _) le_rfl hend
      exact hs.not_prime_of_dvd hb h2 hd hdvd
    | exhausted prev =>
      have h2 := walkLoop_exhausted_prev (v := Walk.begin _) le_rfl hend
      have hfound : ¬ noDivisorFrom n (sqrtBound n) (continuation prev) = true := by
        simpa [hend, WalkEnd.verdict] using h
      rw [noDivisorFrom_continuation h2, not_not] at hfound
      obtain ⟨q, -, hq, hqb, hdvd⟩ := hfound
      exact hs.not_prime_of_dvd hb (h2.trans hq.le) hqb hdvd

/-! A list of the first primes (42_trial_division.md R141). -/

theorem nth_prime_lt_nth_prime {i k : Nat} : Nat.nth Nat.Prime i < Nat.nth Nat.Prime k ↔ i < k :=
  Nat.nth_lt_nth Nat.infinite_setOfPred_prime

section
variable {n b count : Nat} {L : Nat → Nat} (hL : ∀ i < count, L i = Nat.nth Nat.Prime i)
include hL

/-- Such a list rises, from the leading 2 on. -/
theorem previous_lt_of_primePrefix {k : Nat} (hk : k < count) (hskip : ¬ Skipped L k) : previous L k < L k := by
  cases k with
  | zero => exact absurd ⟨rfl, (hL 0 hk).trans Nat.nth_prime_zero_eq_two⟩ hskip
  | succ k =>
    rw [previous, if_neg k.succ_ne_zero, Nat.add_sub_cancel, hL k (by omega), hL _ hk]
    exact nth_prime_lt_nth_prime.2 k.lt_succ_self

/-- The primes of the entries passed so far do not divide, so a prime divisor is not below the next one. -/
theorem nth_prime_le_of_passed (hs : Slow n) {k p : Nat} (hk : k ≤ count) (hpassed : ∀ i < k, Passed n b L i)
    (hp : p.Prime) (hdvd : p ∣ n) : Nat.nth Nat.Prime k ≤ p := by
  by_contra hlt
  obtain ⟨i, -, rfl⟩ := Nat.exists_lt_card_nth_eq hp
  have hi : i < k := nth_prime_lt_nth_prime.1 (Nat.not_le.1 hlt)
  rw [← hL i (hi.trans_le hk)] at hdvd
  obtain ⟨-, hodd⟩ := hs
  rcases hpassed i hi with ⟨rfl, h2⟩ | ⟨-, -, hndvd⟩
  · rw [h2] at hdvd
    omega
  · exact hndvd hdvd

/-- The same against the last examined candidate: an odd prime divisor is above it. -/
theorem previous_lt_of_passed (hs : Slow n) {p : Nat} (hpassed : ∀ i < count, Passed n b L i)
    (hp : p.Prime) (hdvd : p ∣ n) : previous L count < p := by
  have hle := nth_prime_le_of_passed hL hs le_rfl hpassed hp hdvd
  cases count with
  | zero =>
    obtain ⟨-, hodd⟩ := hs
    have hne : p ≠ 2 := by
      rintro rfl
      omega
    exact lt_of_le_of_ne hp.two_le hne.symm
  | succ k =>
    rw [previous, if_neg k.succ_ne_zero, Nat.add_sub_cancel, hL k k.lt_succ_self]
    exact (nth_prime_lt_nth_prime.2 k.lt_succ_self).trans_le hle

/-- The first entry that is not passed is above the bound, and then no prime up to the bound divides; or it divides. -/
theorem isPrimeList_of_primePrefix_ended (hs : Slow n) (hn : n < 2 ^ 64) (hb : IsCeilSqrt n b) {k : Nat}
    (hk : k < count) (hpassed : ∀ i < k, Passed n b L i) (hnot : ¬ Passed n b L k) :
    isPrimeList n count L = (.ok, decide n.Prime) := by
  obtain ⟨hskip, hentry⟩ := not_or.1 hnot
  have hgt := previous_lt_of_primePrefix hL hk hskip
  rcases Nat.lt_or_ge b (L k) with hbeyond | hle
  · have hprime : n.Prime := hs.prime_of_no_prime_dvd hb fun p hp hpb hdvd => by
      have hge := nth_prime_le_of_passed hL hs hk.le hpassed hp hdvd
      rw [← hL k hk] at hge
      omega
    rw [isPrimeList_of_ended hs hn hb hk hpassed (walkNext_beyond hk hgt hbeyond), decide_eq_true hprime]
    rfl
  · have hdvd : L k ∣ n := not_not.1 fun h => hentry ⟨hgt, hle, h⟩
    have h2 : 2 ≤ L k := hL k hk ▸ (Nat.prime_nth_prime k).two_le
    rw [isPrimeList_of_ended hs hn hb hk hpassed (walkNext_divisor hk hgt hle hdvd),
      decide_eq_false (hs.not_prime_of_dvd hb h2 hle hdvd)]
    rfl

/-- The continuation tries what the primes of the list leave over. -/
theorem isPrimeList_of_primePrefix_passed (hs : Slow n) (hn : n < 2 ^ 64) (hb : IsCeilSqrt n b)
    (hpassed : ∀ i < count, Passed n b L i) : isPrimeList n count L = (.ok, decide n.Prime) := by
  obtain ⟨h2, -⟩ := previous_bounds ((Nat.le_succ 2).trans (hb.ge_three hs)) hpassed
  have hanswer : noDivisorFrom n b (continuation (previous L count)) = true ↔ n.Prime := by
    rw [noDivisorFrom_continuation h2]
    constructor
    · refine fun hnone => hs.prime_of_no_prime_dvd hb fun p hp hpb hdvd => hnone ?_
      have hgt := previous_lt_of_passed hL hs hpassed hp hdvd
      exact ⟨p, hp.eq_two_or_odd.resolve_left (by omega), hgt, hpb, hdvd⟩
    · rintro hprime ⟨q, -, hq, hqb, hdvd⟩
      exact hs.not_prime_of_dvd hb (h2.trans hq.le) hqb hdvd hprime
  rw [isPrimeList_of_passed hs hn hb hpassed, Prod.mk.injEq, Bool.eq_iff_iff, decide_eq_true_iff]
  exact ⟨rfl, hanswer⟩

/-- ISPRIME_LIST with such a list answers as ISPRIME does (42_trial_division.md R141). -/
theorem isPrimeList_of_primePrefix (hn : n < 2 ^ 64) : isPrimeList n count L = (.ok, isPrime n) := by
  cases hf : fastPath n with
  | some r => rw [isPrimeList_of_fastPath hf, isPrime_of_fastPath hf]
  | none =>
    have hs := fastPath_none_iff.1 hf
    obtain ⟨hb, -⟩ := sqrtBound_spec hn
    have hprime : isPrime n = decide n.Prime := Bool.eq_iff_iff.2 ((isPrime_iff hn).trans decide_eq_true_iff.symm)
    rw [hprime]
    by_cases hpassed : ∀ i < count, Passed n (sqrtBound n) L i
    · exact isPrimeList_of_primePrefix_passed hL hs hn hb hpassed
    · classical
      have hex : ∃ k, k < count ∧ ¬ Passed n (sqrtBound n) L k := by simpa using hpassed
      obtain ⟨hk, hnot⟩ := Nat.find_spec hex
      refine isPrimeList_of_primePrefix_ended hL hs hn hb hk (fun i hi => ?_) hnot
      exact not_not.1 fun h => Nat.find_min hex hi ⟨hi.trans hk, h⟩

end

/-! The engine's iterations (42_trial_division.md R143). -/

theorem Work.Inv.pend_ne_none {s : State} {w : Work} (h : w.Inv s) : s.pend ≠ none := by
  cases w with
  | divide v =>
    rcases h with ⟨hp | ⟨hp, -⟩, -⟩
    · simp [hp]
    · simp [hp]
  | _ =>
    obtain ⟨hp, -⟩ := h
    simp [hp]

/-- The engine's turn of a command that has working variables is the next iteration of their loop. -/
theorem step_engine_of_work {s : State} {w : Work} (ts : List Turn) (h : s.Inv) (hw : s.work = some w) :
    step (s.withInbox (.engine :: ts)) = engineAdvance w (s.withInbox ts) :=
  step_engine_started h (h.work_inv w hw).pend_ne_none hw

theorem step_divide {s : State} {v : Divide} {l : LoopStep Divide Bool} (ts : List Turn) (h : s.Inv)
    (hw : s.work = some (.divide v)) (hl : divideNext s.candidate v = l) :
    step (s.withInbox (.engine :: ts)) = .next (divideTurn l (s.withInbox ts)) :=
  hl ▸ step_engine_of_work ts h hw

theorem step_walk {s : State} {v : Walk} {l : LoopStep Walk WalkEnd} (ts : List Turn) (h : s.Inv)
    (hw : s.work = some (.walk v)) (hl : walkNext s.candidate s.listCount s.listEntry v = l) :
    step (s.withInbox (.engine :: ts)) = .next (walkTurn v.b l (s.withInbox ts)) :=
  hl ▸ step_engine_of_work ts h hw

theorem divideNext_of_lt {n : Nat} {v : Divide} (h : v.b < v.d) : divideNext n v = .done true :=
  if_neg (Nat.not_le.2 h)

/-! The obligations. -/

/-- Settles O25. -/
theorem isPrimeDecidesPrimality : Obligations.IsPrimeDecidesPrimality := by
  refine ⟨rfl, fun s => ⟨fun hp => ?_, fun hnp => ?_⟩⟩
  · rw [execIsPrime_eq, (isPrime_iff s.arg0.isLt).2 hp]
    rfl
  · rw [execIsPrime_eq, Bool.eq_false_iff.2 (mt (isPrime_iff s.arg0.isLt).1 hnp)]
    rfl

/-- Settles O26: the range check, then each of the three answers. -/
theorem isPrimeListCompletes : Obligations.IsPrimeListCompletes := by
  refine ⟨rfl, fun s => ⟨execIsPrimeList_listRange, fun hin => ?_⟩⟩
  rcases isPrimeList_cases s.candidate s.listCount s.listEntry with h | h | h
  · exact .inl ⟨h, execIsPrimeList_of_answer hin h⟩
  · exact .inr (.inl ⟨h, execIsPrimeList_of_answer hin h⟩)
  · exact .inr (.inr ⟨h, execIsPrimeList_of_answer hin h⟩)

/-- Settles O27: a candidate of the fast path has its answer without the list. -/
theorem listFastPathReadsNoEntry : Obligations.ListFastPathReadsNoEntry := by
  intro s hin
  have answers : ∀ {r}, fastPath s.candidate = some r → exec .isPrimeList s = .next (s.complete .ok (boolWord r)) :=
    fun hf => execIsPrimeList_of_answer hin (isPrimeList_of_fastPath hf)
  refine ⟨fun h => answers (fastPath_of_lt_two h), fun h => answers (fastPath_of_two_or_three h),
    fun h heven => answers (fastPath_of_even h heven), fun hfast => ?_⟩
  cases hf : fastPath s.candidate with
  | none => exact absurd (fastPath_none_iff.1 hf) hfast
  | some r =>
    refine execIsPrimeList_eq_execIsPrime hin ?_
    rw [isPrimeList_of_fastPath hf, isPrime_of_fastPath hf]

/-- Settles O28: the entry ends the walk, and the walk's end decides the answer. -/
theorem firstEntryNotPassedEndsWalk : Obligations.FirstEntryNotPassedEndsWalk := by
  intro s b k n L hin h5 hodd hb hk hpassed hskip
  have ends : ∀ {r e a}, walkNext n s.listCount L (Walk.at b L k) = .done r → r.verdict n b = (e, a) →
      exec .isPrimeList s = .next (s.complete e (boolWord a)) := fun hend hverdict =>
    execIsPrimeList_of_answer hin ((isPrimeList_of_ended ⟨h5, hodd⟩ s.arg0.isLt hb hk hpassed hend).trans hverdict)
  exact ⟨fun hle => ends (walkNext_invalid hk hskip hle) rfl,
    fun hgt hbeyond => ends (walkNext_beyond hk hgt hbeyond) rfl,
    fun hgt hle hdvd => ends (walkNext_divisor hk hgt hle hdvd) rfl⟩

/-- Settles O29. -/
theorem exhaustedListContinues : Obligations.ExhaustedListContinues := by
  intro s b n L prev hin h5 hodd hb hpassed
  have hs : Slow n := ⟨h5, hodd⟩
  have answers : ∀ {r}, noDivisorFrom n b (continuation prev) = r →
      exec .isPrimeList s = .next (s.complete .ok (boolWord r)) := fun h =>
    execIsPrimeList_of_answer hin ((isPrimeList_of_passed hs s.arg0.isLt hb hpassed).trans (congrArg _ h))
  obtain ⟨h2, -⟩ := previous_bounds ((Nat.le_succ 2).trans (hb.ge_three hs)) hpassed
  have hanswer := noDivisorFrom_continuation (n := n) (b := b) h2
  exact ⟨fun hfound => answers (Bool.eq_false_iff.2 fun h => hanswer.1 h hfound),
    fun hnone => answers (hanswer.2 hnone)⟩

/-- Settles O30. -/
theorem primePrefixListAgrees : Obligations.PrimePrefixListAgrees := by
  intro s hin hL
  have hanswer : isPrimeList s.candidate s.listCount s.listEntry = (.ok, isPrime s.candidate) :=
    isPrimeList_of_primePrefix hL s.arg0.isLt
  exact ⟨execIsPrimeList_eq_execIsPrime hin hanswer, _, execIsPrimeList_of_answer hin hanswer⟩

/-- Settles O31: of the three answers, 0 with `OK` contradicts the premise; an error has a code of its own. -/
theorem listNeverDeniesPrime : Obligations.ListNeverDeniesPrime := by
  intro s hp
  rcases Nat.lt_or_ge s.cap.entries (s.arg1.toNat + s.arg2.toNat) with hout | hin
  · exact ⟨_, execIsPrimeList_listRange hout, fun h => absurd h.1 (by decide : ErrorCode.listRange.code ≠ 0#4)⟩
  · rcases isPrimeList_cases s.candidate s.listCount s.listEntry with h | h | h
    · exact ⟨_, execIsPrimeList_of_answer hin h, fun h' => absurd h'.2 (by decide : boolWord true ≠ 0#64)⟩
    · exact absurd hp (not_prime_of_isPrimeList_false s.arg0.isLt h)
    · exact ⟨_, execIsPrimeList_of_answer hin h, fun h' => absurd h'.1 (by decide : ErrorCode.listInvalid.code ≠ 0#4)⟩

/-- Settles O32: the invariant bounds the divisor below, and the ceiling square root bounds it above. -/
theorem divisorsStayInRange : Obligations.DivisorsStayInRange := by
  intro s ts h n run
  refine ⟨fun v hw => ?_, fun v hw hi => ?_⟩
  · obtain ⟨-, -, hb, h3, -⟩ := h.work_inv _ hw
    have hmax := hb.le_two_pow_32 s.arg0.isLt
    refine ⟨fun hlt => step_divide ts h hw (divideNext_of_lt hlt), fun hle => ?_⟩
    have hnext := divideNext_of_le (n := n) hle
    exact ⟨h3, hle.trans hmax, Nat.add_le_add_right (hle.trans hmax) 2,
      fun hdvd => step_divide ts h hw (hnext.trans (if_pos hdvd)),
      fun hndvd => step_divide ts h hw (hnext.trans (if_neg hndvd))⟩
  · obtain ⟨-, -, -, hb, -, h2, -⟩ := h.work_inv _ hw
    have hmax := hb.le_two_pow_32 s.arg0.isLt
    obtain ⟨hskip, hinvalid, hbeyond, hentry⟩ := walkNext_of_lt (n := n) (entry := s.listEntry) hi h2
    refine ⟨h2, fun he => ?_, fun hne hlow => ?_, fun hgt hbgt => step_walk ts h hw (hbeyond hgt hbgt),
      fun hgt hle => ?_⟩
    · have hfirst : v.i + 1 = 1 := congrArg (· + 1) he.1
      exact step_walk ts h hw (hfirst ▸ hskip he)
    · have hle : s.listEntry v.i ≤ v.prev := hlow.elim (fun hlt => (Nat.le_of_lt_succ hlt).trans h2) id
      exact step_walk ts h hw (hinvalid hne hle)
    · exact ⟨h2.trans_lt hgt, hle.trans hmax,
        fun hdvd => step_walk ts h hw ((hentry hgt hle).trans (if_pos hdvd)),
        fun hndvd => step_walk ts h hw ((hentry hgt hle).trans (if_neg hndvd))⟩

end Sys2Proof.Machine
end

section
/-! gap_decoder (43_gap_decoder.md): the engine's turn of a DECODE that reads its stream, what each record does to the
cursor and to `SEQ`, and DECODE as a whole. -/

namespace Sys2Proof.Machine

/-! The engine's turn. -/

/-- The turn of a DECODE that has its cursor is one iteration of DecodeLoop (R153). -/
theorem step_engine_cursor {s : State} {op : Opcode} {c : Cursor} (ts : List Turn) (hr : s.rst = false)
    (hp : s.pend = some op) (hw : s.work = some (.cursor c)) :
    step (s.withInbox (.engine :: ts)) = decodeTurn c (s.withInbox ts) :=
  engineTurn_advance (s := s.withInbox ts) hr hp hw

theorem step_of_cursor {s : State} {ts : List Turn} {op : Opcode} {c : Cursor} (hr : s.rst = false)
    (hp : s.pend = some op) (hi : s.inbox = .engine :: ts) (hw : s.work = some (.cursor c)) :
    step s = decodeTurn c (s.withInbox ts) :=
  (congrArg step (withInbox_of_inbox hi)).symm.trans (step_engine_cursor ts hr hp hw)

/-- The bytes of a whole record at the cursor make the iteration that record's meaning (R90, R153). -/
theorem decodeTurn_eq_exec {s : State} {c : Cursor} {i : Instr} {rest : List Byte} (hc : c.cnt < s.length)
    (h : Sys2Proof.decode c.mode.source (s.streamFrom c.p) = .ok (i, rest)) : decodeTurn c s = exec i s := by
  have hrecord : i.opcode? = none := by
    obtain ⟨-, rfl, -⟩ := (decode_ok_iff _ _ _ _).1 h
    exact instr_opcode_none _ _
  rw [decodeTurn, if_pos hc, h]
  exact runRecord_eq_exec s hrecord

/-- Settles O47. -/
theorem stepRunsStreamRecord : Obligations.StepRunsStreamRecord := by
  intro s ts c i rest op hr hp hw hc hdecode
  exact (step_engine_cursor ts hr hp hw).trans (decodeTurn_eq_exec (s := s.withInbox ts) hc hdecode)

/-! The records by their bytes, and what each appends. -/

theorem decode_anchor_bytes (b0 b1 b2 b3 b4 b5 b6 b7 : Byte) (rest : List Byte) :
    Sys2Proof.decode .anchor (b0 :: b1 :: b2 :: b3 :: b4 :: b5 :: b6 :: b7 :: rest) =
      .ok (.nccAnchor (b7 ++ b6 ++ b5 ++ b4 ++ b3 ++ b2 ++ b1 ++ b0), rest) := by
  rw [← leValue_eight]
  exact decode_append .anchor [b0, b1, b2, b3, b4, b5, b6, b7] rest rfl

theorem decode_delta_bytes (b0 b1 : Byte) (rest : List Byte) :
    Sys2Proof.decode .delta (b0 :: b1 :: rest) = .ok (decodeDelta (b1 ++ b0), rest) := by
  rw [← leValue_two]
  exact decode_append .delta [b0, b1] rest rfl

/-- A record that emits `v` writes the one entry `DEST_BASE + cnt` and moves the cursor (R153). -/
theorem emit_appends (s : State) (c : Cursor) (k : Nat) (v : Word) :
    ∃ m, s.emit c k v =
        { s with
          seq := m
          work := some (.cursor { p := c.p + k, last := v, cnt := c.cnt + 1, mode := .delta }) } ∧
      m.find (s.arg1.toNat + c.cnt) = some v ∧ ∀ j, j ≠ s.arg1.toNat + c.cnt → m.find j = s.seq.find j :=
  ⟨s.seq.write (s.arg1.toNat + c.cnt) v, rfl, Memory.find_write_same _ _ _, fun _ => Memory.find_write_other _ v⟩

/-- A DECODE that passes its checks starts with a cursor at `START` in ANCHOR mode (R153). -/
theorem engineStart_decode_open {s : State} (hin : s.destInRange = true) (hp : s.streamPresent = true) :
    engineStart .decode s = s.openCursor := by
  simp [engineStart, hin, hp]

/-- Settles O35: the first step by `engineStart_decode_open`, the record by `emit_appends`. -/
theorem anchorRecordAppends : Obligations.AnchorRecordAppends := by
  refine ⟨fun s ts hr hp hw hin hpresent => ?_, fun s c a hw hm hc hin => ⟨?_, ?_⟩⟩
  · have hstart : step (s.withInbox (.engine :: ts)) = .next (engineStart .decode (s.withInbox ts)) :=
      engineTurn_start (s := s.withInbox ts) hr hp hw
    rw [hstart, engineStart_decode_open (s := s.withInbox ts) (destInRange_iff.2 hin) hpresent]
    rfl
  · obtain ⟨m, hemit, hm'⟩ := emit_appends s c 8 a
    have hcursor : s.recordCursor .anchor = some c := recordCursor_eq_some.2 ⟨hw, hm, hc, destInRange_iff.2 hin⟩
    exact ⟨m, (execNccAnchor_next hcursor).trans (congrArg _ hemit), hm'⟩
  · rintro ts b0 b1 b2 b3 b4 b5 b6 b7 rest hr hp hbytes rfl
    refine stepRunsStreamRecord s ts c _ rest .decode hr hp hw hc ?_
    rw [hm, hbytes]
    exact decode_anchor_bytes b0 b1 b2 b3 b4 b5 b6 b7 rest

/-- `last + zext_64(D)` modulo `2^64` (R155, R161). -/
theorem toNat_add_delta (last : Word) (d : BitVec 16) :
    (last + d.setWidth 64).toNat = (last.toNat + d.toNat) % 2 ^ 64 := by
  rw [BitVec.toNat_add, BitVec.toNat_setWidth_of_le (by decide)]

/-- Settles O36. -/
theorem deltaRecordAppends : Obligations.DeltaRecordAppends := by
  refine fun s c d hw hm hc hin => ⟨?_, ?_⟩
  · obtain ⟨m, hemit, hm'⟩ := emit_appends s c 2 (c.last + d.setWidth 64)
    have hcursor : s.recordCursor .delta = some c := recordCursor_eq_some.2 ⟨hw, hm, hc, destInRange_iff.2 hin⟩
    exact ⟨m, _, (execNccDelta_next hcursor).trans (congrArg _ hemit), toNat_add_delta c.last d, hm'⟩
  · rintro ts b0 b1 rest hr hp hbytes rfl hd
    refine stepRunsStreamRecord s ts c _ rest .decode hr hp hw hc ?_
    have hdelta : decodeDelta (b1 ++ b0) = .nccDelta (b1 ++ b0) := if_neg hd
    rw [hm, hbytes, ← hdelta]
    exact decode_delta_bytes b0 b1 rest

/-- Settles O37. -/
theorem sentinelResynchronises : Obligations.SentinelResynchronises := by
  refine fun s c hw hm hc hin => ⟨?_, fun ts rest hr hp hbytes => ?_⟩
  · have hcursor : s.recordCursor .delta = some c := recordCursor_eq_some.2 ⟨hw, hm, hc, destInRange_iff.2 hin⟩
    exact execNccSentinel_next hcursor
  · refine stepRunsStreamRecord s ts c _ rest .decode hr hp hw hc ?_
    rw [hm, hbytes]
    exact decode_delta_bytes 0#8 0#8 rest

/-! The ends of the loop. -/

/-- A record cut short ends DECODE with its mode's error and the count (R157, R158). -/
theorem step_shortRead {s : State} {ts : List Turn} {c : Cursor} (hr : s.rst = false) (hp : s.pend = some .decode)
    (hstill : s.streamMoved = false) (hi : s.inbox = .engine :: ts) (hw : s.work = some (.cursor c))
    (hc : c.cnt < s.length) (hlen : s.stream.bytes.length < c.p + c.mode.source.size) :
    step s = .next ((s.withInbox ts).complete c.mode.shortRead (BitVec.ofNat 64 c.cnt)) := by
  rw [step_of_cursor hr hp hi hw, decodeTurn_short (s := s.withInbox ts) hc hlen,
    completeDecode_still (s := s.withInbox ts) hstill]

/-- Settles O39. -/
theorem shortAnchorRead : Obligations.ShortAnchorRead := by
  intro s ts c hr hp hstill hi hw hm hc hlen
  have hstep := step_shortRead hr hp hstill hi hw hc (by rw [hm]; exact hlen)
  rwa [hm] at hstep

/-- Settles O40. -/
theorem shortDeltaRead : Obligations.ShortDeltaRead := by
  intro s ts c hr hp hstill hi hw hm hc hlen
  have hstep := step_shortRead hr hp hstill hi hw hc (by rw [hm]; exact hlen)
  rwa [hm] at hstep

/-- Once the count is `LENGTH`, DECODE completes with it and reads nothing (R159). -/
theorem step_stop {s : State} {ts : List Turn} {c : Cursor} (hr : s.rst = false) (hp : s.pend = some .decode)
    (hstill : s.streamMoved = false) (hi : s.inbox = .engine :: ts) (hw : s.work = some (.cursor c))
    (hc : c.cnt = s.length) : step s = .next ((s.withInbox ts).complete .ok s.arg2) := by
  rw [step_of_cursor hr hp hi hw, decodeTurn_stop (s := s.withInbox ts) hc.ge,
    completeDecode_still (s := s.withInbox ts) hstill, hc, State.length, BitVec.ofNat_toNat, BitVec.setWidth_eq]

/-- A record can be read by no other cursor than the one there is. -/
theorem recordCursor_cases {s : State} {c : Cursor} (m : Mode) (hw : s.work = some (.cursor c)) :
    s.recordCursor m = some c ∨ s.recordCursor m = none := by
  cases h : s.recordCursor m with
  | none => exact .inr rfl
  | some c' =>
    obtain ⟨hw', -⟩ := recordCursor_eq_some.1 h
    obtain rfl : c' = c := by simpa [hw'] using hw
    exact .inl rfl

/-- Every record but the sentinel counts one value (R159). -/
theorem record_counts {s t : State} {c : Cursor} {i : Instr} (hw : s.work = some (.cursor c)) (hi : i.opcode? = none)
    (h : exec i s = .next t) :
    ∃ c' : Cursor, t.work = some (.cursor c') ∧ c'.cnt = c.cnt + if i = .nccSentinel then 0 else 1 := by
  cases i with
  | nccAnchor a =>
    rcases recordCursor_cases .anchor hw with hcursor | hnone
    · obtain rfl := Host.Outcome.next.inj ((execNccAnchor_next hcursor).symm.trans h)
      exact ⟨_, State.emit_work .., rfl⟩
    · simp [exec, execNccAnchor, hnone] at h
  | nccSentinel =>
    rcases recordCursor_cases .delta hw with hcursor | hnone
    · obtain rfl := Host.Outcome.next.inj ((execNccSentinel_next hcursor).symm.trans h)
      exact ⟨_, State.setWork_work .., rfl⟩
    · simp [exec, execNccSentinel, hnone] at h
  | nccDelta d =>
    rcases recordCursor_cases .delta hw with hcursor | hnone
    · obtain rfl := Host.Outcome.next.inj ((execNccDelta_next hcursor).symm.trans h)
      exact ⟨_, State.emit_work .., rfl⟩
    · simp [exec, execNccDelta, hnone] at h
  | _ => cases hi

/-- Settles O41: the stop by `step_stop`, `LENGTH = 0` as a decode of no value, the count by `record_counts`. -/
theorem decodeStopsAtLength : Obligations.DecodeStopsAtLength := by
  refine ⟨fun s ts c => step_stop, fun s hstill hlen hbase hpresent => ?_, fun s t c i => record_counts⟩
  have hzero : s.length = 0 := by simp [State.length, hlen]
  have hin : s.destInRange = true := destInRange_iff.2 (by simpa [hlen] using hbase)
  have hvs : nccValues s.length .anchor 0#64 (s.streamFrom s.start) = ([], .ok) := by rw [hzero, nccValues]
  have hexec := execDecode_ok hstill hpresent hin hvs hzero.symm
  rw [hlen] at hexec
  exact hexec

/-! DECODE as a whole. -/

/-- Settles O42. -/
theorem decodeMatchesValues : Obligations.DecodeMatchesValues := by
  refine ⟨rfl, fun s hstill hin hpresent => ?_⟩
  refine (execDecode_eq (destInRange_iff.2 hin) hpresent).trans (congrArg _ ?_)
  exact completeDecode_still (s := s.seqWriteAll _ _) hstill _ _

/-- Settles O43, by everything a DECODE can do. -/
theorem decodeFrame : Obligations.DecodeFrame := by
  intro s
  obtain ⟨m, v, c, k, hexec, hstill, hout, -⟩ := execDecode_spec s
  refine ⟨_, hexec, rfl, rfl, rfl, rfl, rfl, rfl, rfl, rfl, rfl, rfl, rfl, rfl, rfl, rfl, rfl, rfl, fun hm => ?_,
    fun j hj => ?_, fun hm j hj => ?_⟩
  · obtain ⟨htick, -⟩ := hstill hm
    exact htick
  · exact congrArg (Option.getD · _) (hout j hj)
  · obtain ⟨-, -, hwritten⟩ := hstill hm
    exact congrArg (Option.getD · _) (hwritten j hj)

/-- Settles O33. -/
theorem decodeBufferOverflow : Obligations.DecodeBufferOverflow := by
  intro s hstill hlt
  have hin : s.destInRange = false := Bool.eq_false_iff.2 fun h => absurd (destInRange_iff.1 h) (Nat.not_le.2 hlt)
  exact (execDecode_bufferOverflow hin).trans (congrArg _ (completeDecode_still hstill _ _))

/-- Settles O34. -/
theorem decodeOpenFailure : Obligations.DecodeOpenFailure := by
  intro s hstill hin hp
  exact (execDecode_openFailure (destInRange_iff.2 hin) hp).trans (congrArg _ (completeDecode_still hstill _ _))

end Sys2Proof.Machine
end

section
/-! Errors and the idle block (60_exceptions.md): after a completion the block waits, keeping the code, until the host
issues the next command; by itself it does nothing. -/

namespace Sys2Proof.Machine

/-! After a completion (R184). -/

theorem State.CompletesTo.rst_eq {s t : State} (h : s.CompletesTo t) : t.rst = s.rst := by
  obtain ⟨c, k, e, -⟩ := h
  rw [e]

theorem State.CompletesTo.idle {s t : State} (h : s.CompletesTo t) : t.status.busy = false := by
  obtain ⟨c, k, e, -⟩ := h
  rw [e]

/-- An idle block accepts any word written to `CMD`, whatever code its `ERR` holds. -/
theorem idle_accepts_command {s : State} (hr : s.rst = false) (hb : s.status.busy = false) (w : Word)
    (ts : List Turn) :
    ∃ u, step (s.withInbox (.host (.write .eight 0x000#32 w) :: ts)) = .next u ∧
      u.status.busy = true ∧ u.status.err = 0#4 ∧ (∃ op, u.pend = some op) ∧ u.result = s.result := by
  have haccepted := step_writeCmd_idle (s := s.withInbox (.host (.write .eight 0x000#32 w) :: ts)) hr hb rfl
  exact ⟨_, haccepted, rfl, rfl, ⟨_, rfl⟩, rfl⟩

/-- While the block is idle no completion can write `ERR`, so only an acceptance or a reset does. -/
theorem idle_err_changes_at_acceptance {s t : State} (hinv : s.Inv) (hb : s.status.busy = false)
    (h : step s = .next t) (hnr : ¬ ∃ level ts, s.inbox = .reset level :: ts)
    (hne : t.status.err ≠ s.status.err) : t.status.busy = true ∧ t.status.err = 0#4 := by
  cases step_effect h with
  | hostAccepted => exact ⟨rfl, rfl⟩
  | completes ts v e k hp hm =>
    have hidle : s.pend = none := by simpa [hb] using hinv.busy_iff_pend
    exact absurd hidle hp
  | resets hi => exact absurd ⟨_, _, hi⟩ hnr
  | _ => exact absurd rfl hne

/-- Settles O50: every command completes to an idle block, which accepts the next command. -/
theorem errorsDoNotStopTheBlock : Obligations.ErrorsDoNotStopTheBlock := by
  refine ⟨fun s op t w ts hr hexec => ?_, fun s t hinv hb => idle_err_changes_at_acceptance hinv hb⟩
  obtain ⟨u, hu, hcompletes⟩ := exec_completesTo op s s.inbox
  obtain rfl : t = u := Host.Outcome.next.inj (hexec.symm.trans hu)
  exact ⟨hcompletes.idle, idle_accepts_command (hcompletes.rst_eq.trans hr) hcompletes.idle w ts⟩

/-! The idle block (R194). -/

/-- Without a pending command the engine waits, in reset and out of it. -/
theorem engineTurn_idle {s : State} (hp : s.pend = none) : engineTurn s = .next s := by
  simp [engineTurn, hp]

theorem completeTurn_idle {s : State} (hp : s.pend = none) : completeTurn s = .next s := by
  simp [completeTurn, hp]

/-- Settles O51. -/
theorem idleBlockDoesNothing : Obligations.IdleBlockDoesNothing := by
  intro s ts hp
  exact ⟨engineTurn_idle hp, completeTurn_idle hp, completeTurn_idle hp⟩

end Sys2Proof.Machine
end

section
/-! Held in reset (70_reset_and_hazards.md R210): the rules of each kind of turn while `rst` is asserted. The rule of a
read is `step_read_inReset`. -/

namespace Sys2Proof.Machine

/-- The write finds the block held in reset, whatever stands at its offset. -/
theorem step_write_inReset {s : State} {ts : List Turn} {addr : BitVec 32} {v : Word} (hr : s.rst = true)
    (ha : addr.toNat % 8 = 0) :
    step (s.withInbox (.host (.write .eight addr v) :: ts)) = .next (s.withInbox ts) := by
  simp [step_withInbox, takeTurn, busAccess, busAdmitted_eight ha, hr]

/-- The engine waits, also before a pending command. -/
theorem engineTurn_inReset {s : State} (hr : s.rst = true) : engineTurn s = .next s := if_pos hr

theorem completeTurn_inReset {s : State} (hr : s.rst = true) : completeTurn s = .next s := if_pos hr

/-- Settles O60, by the rule of each kind of turn. -/
theorem heldInReset : Obligations.HeldInReset := by
  intro s ts addr v hr ha
  exact ⟨step_write_inReset hr ha, step_read_inReset hr ha, engineTurn_inReset (s := s.withInbox ts) hr,
    completeTurn_inReset (s := s.withInbox ts) hr⟩

end Sys2Proof.Machine
end
